-- ==== Sys2Proof/Word.lean ====
section
/-! DEFINITION. The words the engine's interfaces are made of (30_encoding.md R50). -/

namespace Sys2Proof

/-- A byte: a register address or a data byte of a pair (R32). -/
abbrev Byte := BitVec 8

/-- A wire frame, format `WF`: one pair as 16 bits (R51). -/
abbrev Frame := BitVec 16

/-- A host command word, format `HC` (R56). -/
abbrev HostWord := BitVec 32

/-- A brightness level as a buffer cell holds it (R14). -/
abbrev Level := BitVec 4

end Sys2Proof
end

