-- ==== Sys2Proof/Syntax.lean ====
section
/-! DEFINITION. The instructions: one constructor per row of spec/opcode_table.json (R57, R59, R52 to R54),
the host's responses (R60, R115) and the pseudo-operations (R62). -/

namespace Sys2Proof

/-- The 30 rows of the opcode table. Levels and phases are integers and coordinates naturals, as the
operation rules take them (R58, R95, R99). -/
inductive Instr where
  -- host operations, format HC (R57)
  | init
  | setint (level : Int)
  | setbrt (x y : Nat) (level : Int)
  | render (pwmPhase : Int)
  | pixwr (x y : Nat) (v : Bool)
  | pixrd (x y : Nat)
  | fill (v : Bool)
  -- reserved host codes, format HC (R59)
  | reserved0
  | reserved8
  | reserved9
  | reservedA
  | reservedB
  | reservedC
  | reservedD
  | reservedE
  | reservedF
  -- wire frames, format WF (R52 to R54)
  | wDigit0 (data : Byte)
  | wDigit1 (data : Byte)
  | wDigit2 (data : Byte)
  | wDigit3 (data : Byte)
  | wDigit4 (data : Byte)
  | wDigit5 (data : Byte)
  | wDigit6 (data : Byte)
  | wDigit7 (data : Byte)
  | wDecode
  | wIntensity (level : Level)
  | wScanlimit
  | wShutdown0
  | wShutdown1
  | wDisptest
  deriving DecidableEq, Repr

/-- Whether an instruction is a host command (format HC) rather than a wire frame (format WF) (R50). -/
def Instr.isHost : Instr → Bool
  | .init | .setint _ | .setbrt _ _ _ | .render _ | .pixwr _ _ _ | .pixrd _ _ | .fill _ => true
  | .reserved0 | .reserved8 | .reserved9 | .reservedA | .reservedB | .reservedC | .reservedD
  | .reservedE | .reservedF => true
  | .wDigit0 _ | .wDigit1 _ | .wDigit2 _ | .wDigit3 _ | .wDigit4 _ | .wDigit5 _ | .wDigit6 _
  | .wDigit7 _ => false
  | .wDecode | .wIntensity _ | .wScanlimit | .wShutdown0 | .wShutdown1 | .wDisptest => false

/-- The status of a response (R60, R115). -/
inductive Status where
  | ok
  | configurationError
  | transmissionError
  | preconditionError
  | addressError
  | illegalCommand
  deriving DecidableEq, Repr

/-- One response to the host: the content of an HR word (R60). -/
structure Response where
  status : Status
  rdata : Bool
  deriving DecidableEq, Repr

/-- An encoded instruction: a host command word or a wire frame (R50). -/
inductive Code where
  | hc (w : HostWord)
  | wf (w : Frame)
  deriving DecidableEq, Repr

/-- Why the decoder takes no instruction from some bits. -/
inductive Reject where
  /-- A wire frame the engine never emits (R55, U11). -/
  | reservedFrame
  /-- No format of the spec has that many bits (R50). -/
  | noSuchFormat
  deriving DecidableEq, Repr

/-- The pseudo-operations of R62. -/
inductive Pseudo where
  | setpix (x y : Nat)
  | clrpix (x y : Nat)
  | clear
  | pwmcycle (phases : Nat)
  deriving DecidableEq, Repr

/-- The expansion of each pseudo-operation (R62). -/
def Pseudo.expand : Pseudo → List Instr
  | .setpix x y => [.pixwr x y true]
  | .clrpix x y => [.pixwr x y false]
  | .clear => [.fill false]
  | .pwmcycle phases => (List.range phases).map fun (p : Nat) => .render (p : Int)

end Sys2Proof
end

