-- ==== Sys2Proof/WellFormed.lean ====
section
/-! DEFINITION. Which instructions have a word: the operand ranges the fields of HC can carry (R56, R58). -/

namespace Sys2Proof

/-- `level` and `pwmPhase` fit the signed 8-bit field `v` (R58). -/
def fitsSigned8 (n : Int) : Bool := decide (-128 ≤ n) && decide (n ≤ 127)

/-- `x` fits the unsigned 12-bit field (R58). -/
def fitsX (x : Nat) : Bool := decide (x < 4096)

/-- `y` fits the unsigned 8-bit field (R58). -/
def fitsY (y : Nat) : Bool := decide (y < 256)

/-- The instruction has an encoding. -/
def Instr.wf : Instr → Bool
  | .setint level => fitsSigned8 level
  | .setbrt x y level => fitsX x && fitsY y && fitsSigned8 level
  | .render pwmPhase => fitsSigned8 pwmPhase
  | .pixwr x y _ => fitsX x && fitsY y
  | .pixrd x y => fitsX x && fitsY y
  | .init | .fill _ => true
  | .reserved0 | .reserved8 | .reserved9 | .reservedA | .reservedB | .reservedC | .reservedD
  | .reservedE | .reservedF => true
  | .wDigit0 _ | .wDigit1 _ | .wDigit2 _ | .wDigit3 _ | .wDigit4 _ | .wDigit5 _ | .wDigit6 _
  | .wDigit7 _ => true
  | .wDecode | .wIntensity _ | .wScanlimit | .wShutdown0 | .wShutdown1 | .wDisptest => true

end Sys2Proof
end

