-- ==== Sys2Proof/Decode.lean ====
section
/-! DEFINITION. Decoder and encoder of the three formats HC, WF and HR (30_encoding.md), the opcode table as
data, and the cutting of a bit stream into frames (R50). -/

namespace Sys2Proof

/-! ## Fields of HC (R56, R58) -/

/-- `op = HC[31:28]`. -/
def hcOp (w : HostWord) : BitVec 4 := w.extractLsb' 28 4

/-- `x = zext_12(HC[27:16])`. -/
def hcX (w : HostWord) : Nat := (w.extractLsb' 16 12).toNat

/-- `y = zext_8(HC[15:8])`. -/
def hcY (w : HostWord) : Nat := (w.extractLsb' 8 8).toNat

/-- `sext_8(HC[7:0])`, a level or a phase. -/
def hcSigned (w : HostWord) : Int := (w.extractLsb' 0 8).toInt

/-- `HC[0]`, a pixel bit. -/
def hcBit (w : HostWord) : Bool := w.getLsbD 0

/-- The decoder of host commands: total, since a reserved `op` is an instruction of the table (R57, R59).
Fields an operation does not use are not read. -/
def decodeHost (w : HostWord) : Instr :=
  match (hcOp w).toNat with
  | 0x1 => .init
  | 0x2 => .setint (hcSigned w)
  | 0x3 => .setbrt (hcX w) (hcY w) (hcSigned w)
  | 0x4 => .render (hcSigned w)
  | 0x5 => .pixwr (hcX w) (hcY w) (hcBit w)
  | 0x6 => .pixrd (hcX w) (hcY w)
  | 0x7 => .fill (hcBit w)
  | 0x8 => .reserved8
  | 0x9 => .reserved9
  | 0xA => .reservedA
  | 0xB => .reservedB
  | 0xC => .reservedC
  | 0xD => .reservedD
  | 0xE => .reservedE
  | 0xF => .reservedF
  -- 4 bits: what is left is 0x0
  | _ => .reserved0

/-! ## Fields of WF (R51) -/

/-- `addr`, bits 15:8. -/
def frameAddr (w : Frame) : Byte := w.extractLsb' 8 8

/-- `data`, bits 7:0. -/
def frameData (w : Frame) : Byte := w.extractLsb' 0 8

/-- The frame of a pair: `a ‖ d` (R32). -/
def pairFrame (a d : Byte) : Frame := a ++ d

/-- The decoder of wire frames. A frame that the engine never emits is rejected (R55). -/
def decodeFrame (w : Frame) : Except Reject Instr :=
  let d := frameData w
  match (frameAddr w).toNat with
  | 0x01 => .ok (.wDigit0 d)
  | 0x02 => .ok (.wDigit1 d)
  | 0x03 => .ok (.wDigit2 d)
  | 0x04 => .ok (.wDigit3 d)
  | 0x05 => .ok (.wDigit4 d)
  | 0x06 => .ok (.wDigit5 d)
  | 0x07 => .ok (.wDigit6 d)
  | 0x08 => .ok (.wDigit7 d)
  | 0x09 => if d = 0x00 then .ok .wDecode else .error .reservedFrame
  | 0x0A => if d.toNat ≤ 15 then .ok (.wIntensity (d.extractLsb' 0 4)) else .error .reservedFrame
  | 0x0B => if d = 0x07 then .ok .wScanlimit else .error .reservedFrame
  | 0x0C => if d = 0x00 then .ok .wShutdown0 else if d = 0x01 then .ok .wShutdown1 else .error .reservedFrame
  | 0x0F => if d = 0x00 then .ok .wDisptest else .error .reservedFrame
  | _ => .error .reservedFrame

/-- The decoder on either kind of code. -/
def decode : Code → Except Reject Instr
  | .hc w => .ok (decodeHost w)
  | .wf w => decodeFrame w

/-- The decoder on a number of `nbits` bits: 32 is format HC, 16 format WF, nothing else is decoded (R50). -/
def decodeBits (nbits w : Nat) : Except Reject Instr :=
  if nbits = 32 then decode (.hc (BitVec.ofNat 32 w))
  else if nbits = 16 then decode (.wf (BitVec.ofNat 16 w))
  else .error .noSuchFormat

/-- What the decoder reads from an instruction numbered as the opcode table numbers its bits. Both formats
are one word, so bit `i` of the number is bit `i` of the word. -/
def decodeTableWord (nbits w : Nat) : Option Instr :=
  match decodeBits nbits w with
  | .ok i => some i
  | .error _ => none

/-! ## The encoder -/

/-- An HC word from its four fields (R56). -/
def hcWord (op : BitVec 4) (x : BitVec 12) (y v : BitVec 8) : HostWord := op ++ x ++ y ++ v

/-- The field `v` of a pixel bit (R58); the ignored bits 7:1 are 0. -/
def bitField (v : Bool) : BitVec 8 := if v then 1 else 0

/-- The word of an instruction. Fields the operation ignores are 0 (R59). -/
def encode : Instr → Code
  | .init => .hc (hcWord 0x1 0 0 0)
  | .setint level => .hc (hcWord 0x2 0 0 (BitVec.ofInt 8 level))
  | .setbrt x y level => .hc (hcWord 0x3 (BitVec.ofNat 12 x) (BitVec.ofNat 8 y) (BitVec.ofInt 8 level))
  | .render pwmPhase => .hc (hcWord 0x4 0 0 (BitVec.ofInt 8 pwmPhase))
  | .pixwr x y v => .hc (hcWord 0x5 (BitVec.ofNat 12 x) (BitVec.ofNat 8 y) (bitField v))
  | .pixrd x y => .hc (hcWord 0x6 (BitVec.ofNat 12 x) (BitVec.ofNat 8 y) 0)
  | .fill v => .hc (hcWord 0x7 0 0 (bitField v))
  | .reserved0 => .hc (hcWord 0x0 0 0 0)
  | .reserved8 => .hc (hcWord 0x8 0 0 0)
  | .reserved9 => .hc (hcWord 0x9 0 0 0)
  | .reservedA => .hc (hcWord 0xA 0 0 0)
  | .reservedB => .hc (hcWord 0xB 0 0 0)
  | .reservedC => .hc (hcWord 0xC 0 0 0)
  | .reservedD => .hc (hcWord 0xD 0 0 0)
  | .reservedE => .hc (hcWord 0xE 0 0 0)
  | .reservedF => .hc (hcWord 0xF 0 0 0)
  | .wDigit0 data => .wf (pairFrame 0x01 data)
  | .wDigit1 data => .wf (pairFrame 0x02 data)
  | .wDigit2 data => .wf (pairFrame 0x03 data)
  | .wDigit3 data => .wf (pairFrame 0x04 data)
  | .wDigit4 data => .wf (pairFrame 0x05 data)
  | .wDigit5 data => .wf (pairFrame 0x06 data)
  | .wDigit6 data => .wf (pairFrame 0x07 data)
  | .wDigit7 data => .wf (pairFrame 0x08 data)
  | .wDecode => .wf (pairFrame 0x09 0x00)
  | .wIntensity level => .wf (pairFrame 0x0A (level.setWidth 8))
  | .wScanlimit => .wf (pairFrame 0x0B 0x07)
  | .wShutdown0 => .wf (pairFrame 0x0C 0x00)
  | .wShutdown1 => .wf (pairFrame 0x0C 0x01)
  | .wDisptest => .wf (pairFrame 0x0F 0x00)

/-! ## The response word HR (R60) -/

/-- The number of a status, HR bits 3:0. -/
def statusCode : Status → BitVec 4
  | .ok => 0
  | .configurationError => 1
  | .transmissionError => 2
  | .preconditionError => 3
  | .addressError => 4
  | .illegalCommand => 5

/-- The HR word of a response: bits 7:5 zero, bit 4 `rdata`, bits 3:0 `status`. -/
def encodeResponse (r : Response) : BitVec 8 := (0 : BitVec 3) ++ BitVec.ofBool r.rdata ++ statusCode r.status

/-- The response an HR word carries; status codes 6 to 15 and a nonzero 7:5 are never produced. -/
def decodeResponse (w : BitVec 8) : Option Response :=
  if w.extractLsb' 5 3 = 0 then
    let rdata := w.getLsbD 4
    match (w.extractLsb' 0 4).toNat with
    | 0 => some ⟨.ok, rdata⟩
    | 1 => some ⟨.configurationError, rdata⟩
    | 2 => some ⟨.transmissionError, rdata⟩
    | 3 => some ⟨.preconditionError, rdata⟩
    | 4 => some ⟨.addressError, rdata⟩
    | 5 => some ⟨.illegalCommand, rdata⟩
    | _ => none
  else none

/-! ## The bit stream of a bracket -/

/-- The bits of a frame in the order they leave: 15 first, 0 last (R33). -/
def frameBits (w : Frame) : List Bool := (List.range 16).map fun i => w.getLsbD (15 - i)

/-- The number a list of bits writes, the first bit the most significant. -/
def bitsToNat (bs : List Bool) : Nat := bs.foldl (fun n b => 2 * n + b.toNat) 0

/-- The bits between `CS(asserted)` and `CS(deasserted)`, cut into groups of 16 from the first bit on (R50).
`fuel` bounds the number of groups; bits after the last whole group are no frame. -/
def cutFrames : Nat → List Bool → List Frame
  | 0, _ => []
  | fuel + 1, bs =>
    if bs.length < 16 then [] else BitVec.ofNat 16 (bitsToNat (bs.take 16)) :: cutFrames fuel (bs.drop 16)

/-! ## The opcode table -/

/-- One row of spec/opcode_table.json. -/
structure OpcodeRow where
  mnemonic : String
  nbits : Nat
  word : Nat
  mask : Nat
  deriving DecidableEq, Repr

/-- The row an instruction belongs to. -/
def opcodeRow : Instr → OpcodeRow
  | .init => ⟨"INIT", 32, 0x10000000, 0xF0000000⟩
  | .setint _ => ⟨"SETINT", 32, 0x20000000, 0xF0000000⟩
  | .setbrt _ _ _ => ⟨"SETBRT", 32, 0x30000000, 0xF0000000⟩
  | .render _ => ⟨"RENDER", 32, 0x40000000, 0xF0000000⟩
  | .pixwr _ _ _ => ⟨"PIXWR", 32, 0x50000000, 0xF0000000⟩
  | .pixrd _ _ => ⟨"PIXRD", 32, 0x60000000, 0xF0000000⟩
  | .fill _ => ⟨"FILL", 32, 0x70000000, 0xF0000000⟩
  | .reserved0 => ⟨"RESERVED_0", 32, 0x00000000, 0xF0000000⟩
  | .reserved8 => ⟨"RESERVED_8", 32, 0x80000000, 0xF0000000⟩
  | .reserved9 => ⟨"RESERVED_9", 32, 0x90000000, 0xF0000000⟩
  | .reservedA => ⟨"RESERVED_A", 32, 0xA0000000, 0xF0000000⟩
  | .reservedB => ⟨"RESERVED_B", 32, 0xB0000000, 0xF0000000⟩
  | .reservedC => ⟨"RESERVED_C", 32, 0xC0000000, 0xF0000000⟩
  | .reservedD => ⟨"RESERVED_D", 32, 0xD0000000, 0xF0000000⟩
  | .reservedE => ⟨"RESERVED_E", 32, 0xE0000000, 0xF0000000⟩
  | .reservedF => ⟨"RESERVED_F", 32, 0xF0000000, 0xF0000000⟩
  | .wDigit0 _ => ⟨"W.DIGIT0", 16, 0x0100, 0xFF00⟩
  | .wDigit1 _ => ⟨"W.DIGIT1", 16, 0x0200, 0xFF00⟩
  | .wDigit2 _ => ⟨"W.DIGIT2", 16, 0x0300, 0xFF00⟩
  | .wDigit3 _ => ⟨"W.DIGIT3", 16, 0x0400, 0xFF00⟩
  | .wDigit4 _ => ⟨"W.DIGIT4", 16, 0x0500, 0xFF00⟩
  | .wDigit5 _ => ⟨"W.DIGIT5", 16, 0x0600, 0xFF00⟩
  | .wDigit6 _ => ⟨"W.DIGIT6", 16, 0x0700, 0xFF00⟩
  | .wDigit7 _ => ⟨"W.DIGIT7", 16, 0x0800, 0xFF00⟩
  | .wDecode => ⟨"W.DECODE", 16, 0x0900, 0xFFFF⟩
  | .wIntensity _ => ⟨"W.INTENSITY", 16, 0x0A00, 0xFFF0⟩
  | .wScanlimit => ⟨"W.SCANLIMIT", 16, 0x0B07, 0xFFFF⟩
  | .wShutdown0 => ⟨"W.SHUTDOWN.0", 16, 0x0C00, 0xFFFF⟩
  | .wShutdown1 => ⟨"W.SHUTDOWN.1", 16, 0x0C01, 0xFFFF⟩
  | .wDisptest => ⟨"W.DISPTEST", 16, 0x0F00, 0xFFFF⟩

/-- The width of a code in bits. -/
def Code.nbits : Code → Nat
  | .hc _ => 32
  | .wf _ => 16

/-- A code as a number. -/
def Code.toNat : Code → Nat
  | .hc w => w.toNat
  | .wf w => w.toNat

/-- A code has the fixed bits of a row. -/
def OpcodeRow.matchesCode (r : OpcodeRow) (c : Code) : Bool :=
  r.nbits == c.nbits && (c.toNat &&& r.mask == r.word)

end Sys2Proof
end

