-- ==== Sys2Proof/Config.lean ====
section
/-! DEFINITION. What an implementation fixes (R3, R11) and the free values of the model. An `opaque`
constant has no body: no proof can see its value, so a claim holds whatever it is. -/

namespace Sys2Proof

/-- The static parameters of one engine (R3, R11): `N` and `BRIGHT_MODE`. -/
structure Config where
  /-- `N`, the number of chained modules. The legal values are 1 and up. -/
  modules : Nat
  /-- `BRIGHT_MODE`: false is binary mode, true is simulated grayscale. -/
  brightMode : Bool
  deriving DecidableEq, Repr

/-- `N >= 1` (R3). -/
def Config.legal (c : Config) : Bool := decide (1 ≤ c.modules)

/-- The legal engines that take their operations as host command words, as `step` does: `x` has 12 bits, so
`8*N <= 4096`, that is `N <= 512` (R4, D2). No rule and no meaning of `exec` depends on the bound. -/
def Config.legalForHost (c : Config) : Bool := c.legal && decide (8 * c.modules ≤ 4096)

/-- One answer of the channel oracle (R70, D15). -/
inductive Draw where
  | ok
  | fail
  deriving DecidableEq, Repr, Inhabited

/-- `N - 1` for the engine that leaves `State.reset`: OPEN in the spec (R3, D2, U9), so a free value, below the
bound of R4. DESIGN CHOICE, log entry 1, safe. -/
opaque Config.otherModules : Fin 512

/-- `BRIGHT_MODE` for the engine that leaves `State.reset`: OPEN (R3, D2, U9). DESIGN CHOICE, log entry 1,
safe. -/
opaque Config.brightModeOpen : Bool

/-- The engine of this row: its `N` is any number from 1 to 512 (R4), its mode either one. -/
def Config.engine : Config := { modules := Config.otherModules.val + 1, brightMode := Config.brightModeOpen }

/-- The oracle's `n`-th answer where `State.oracle` does not list it: a free input under no law (D15).
DESIGN CHOICE, log entry 3, safe. -/
opaque Config.channel : Nat → Draw

/-- `SR` after a pair and after a reset: unspecified (R17, R24, U5). DESIGN CHOICE, log entry 4, safe. -/
opaque Config.idleShiftRegister : Nat → BitVec 16

/-- The data bits a failed pair write put on the wire; only the first 16 are used (R70, U2).
DESIGN CHOICE, log entry 6, safe. -/
opaque Config.failedBits : Nat → List Bool

/-- `SDO` after a failed pair write (R70, U2). DESIGN CHOICE, log entry 6, safe. -/
opaque Config.failedSdo : Nat → Bool

/-- The largest level, 15 (R3). -/
def levelMax : Int := 15

/-- Rows of both buffers, 8 (R3). -/
def rows : Nat := 8

/-- `W = 8*N`, the buffers' width in columns (R3). -/
def Config.width (c : Config) : Nat := 8 * c.modules

end Sys2Proof
end

