-- ==== Sys2Proof/Machine/State.lean ====
section
/-! DEFINITION. The state of the engine (10_state.md), as plain data, and the reasons a step can stop. -/

namespace Sys2Proof.Machine

/-- Why the machine stops. -/
inductive Fault where
  /-- Raised by every wire frame (`W.*`) run while chip-select is deasserted: `T.PAIR` has the precondition
  `CS = asserted`, "no rule of this spec calls `T.PAIR` otherwise" (R70), so the spec gives no effect. Safe: no
  claim is made of what the engine would do. No run from an idle engine raises it. Log entry 8. -/
  | pairOutsideBracket
  deriving DecidableEq, Repr

/-- Why a step has no meaning. -/
inductive Refusal where
  /-- Raised by no arm now: every instruction of the table has its meaning. Safe. -/
  | notModelled (mnemonic : String)
  deriving DecidableEq, Repr

/-- The logical state of the chip-select line (R15). -/
inductive ChipSelect where
  | deasserted
  | asserted
  deriving DecidableEq, Repr

/-- The byte-level wire events (R5): `A`, `P(a,d)`, `F(a,d)`, `D`. -/
inductive Event where
  | a
  | p (addr data : Byte)
  | f (addr data : Byte)
  | d
  deriving DecidableEq, Repr

/-- The bit-level wire events (R6): a change of chip-select, or one data bit with its clock pulse. -/
inductive BitEvent where
  | cs (level : ChipSelect)
  | bit (value : Bool)
  deriving DecidableEq, Repr

/-- The operations that drive the wire, with their operands: the `op` of `POS` (R16). -/
inductive Op where
  | init
  | setint (level : Int)
  | render (pwmPhase : Int)
  deriving DecidableEq, Repr

/-- The sequencer position `POS = (op, s, y, m, k)` (R16). `m` is the index of the pair being sent, `k` its
next bit: 15 is a pair not yet begun. From the end of the last pair to the `D`, `POS` stays at that pair's last
bit, `m = N - 1` and `k = 0` (DEDUCED, log entry 9, safe). A component that `op` does not use (`y` during
`INIT`, `s` during `RENDER`, both during `SETINT`) is 0: R16 does not say what it holds (DESIGN CHOICE, log
entry 23, unsafe). -/
inductive Pos where
  | idle
  | active (op : Op) (s : Fin 5) (y : Fin 8) (m : Nat) (k : Fin 16)
  deriving DecidableEq, Repr

/-- What the outside does next. DESIGN CHOICE, log entry 2, safe. -/
inductive Input where
  /-- The host presents a command word; the whole operation is one step (R2, R38). -/
  | command (w : HostWord)
  /-- The host presents a command word; the operation is then run one small step at a time (R16). -/
  | start (w : HostWord)
  /-- The outside does nothing for this step: a busy engine goes on by one small step, an idle one waits. -/
  | wait
  /-- The engine is seen one clock pulse later, inside the pair in progress (R33). -/
  | pulse
  /-- `rst` is asserted (R140, R141). -/
  | reset
  deriving DecidableEq, Repr

/-- A buffer as a list of cells in one canonical form: keys strictly rising, no cell equal to the value an
unlisted cell reads as. Log entry 10. -/
abbrev Memory (α : Type) := List (Nat × α)

/-- All the state the spec gives the engine (R10), then the model's own fields (log entries 2, 3, 9, 21). -/
structure State where
  /-- `N` and `BRIGHT_MODE`, static (R11). -/
  inst : Config
  /-- `RDY` (R12). -/
  rdy : Bool
  /-- `PIX` (R13); an unlisted cell is 0. -/
  pix : Memory Bool
  /-- `BRT` (R14); an unlisted cell is 15. -/
  brt : Memory Level
  /-- `CS` (R15). -/
  cs : ChipSelect
  /-- `SCK` (R15). -/
  sck : Bool
  /-- `SDO` (R15). -/
  sdo : Bool
  /-- `POS` (R16). -/
  pos : Pos
  /-- `SR` (R17). -/
  sr : BitVec 16
  /-- `BUSY` (R19). -/
  busy : Bool
  /-- `TRACE` (R20), ghost, oldest first. -/
  trace : List Event
  /-- The bit-level trace (R6, R33), ghost, oldest first. -/
  wire : List BitEvent
  /-- The responses given to the host (R5, R60), ghost, oldest first. -/
  responses : List Response
  /-- The pairs of the bracket in progress that are still to be sent (R71's `dv` from `m` on), first first. -/
  frames : List Frame
  /-- What the outside does next, first first (R25). -/
  inputs : List Input
  /-- The channel oracle's answers as far as they are listed: entry `n` answers draw `n` (R25). -/
  oracle : List Draw
  /-- The number of draws made so far. -/
  drawn : Nat
  /-- The number of free values taken so far. -/
  free : Nat
  deriving DecidableEq, Repr

/-- An engine right after the release of its first reset (R24), for given static parameters. `SR` is
unspecified: DESIGN CHOICE 0, log entry 5, unsafe. -/
def State.resetOf (c : Config) : State where
  inst := c
  rdy := false
  pix := []
  brt := []
  cs := .deasserted
  sck := false
  sdo := false
  pos := .idle
  sr := 0
  busy := false
  trace := []
  wire := []
  responses := []
  frames := []
  inputs := []
  oracle := []
  drawn := 0
  free := 0

/-- The engine of this row right after reset: `N` and `BRIGHT_MODE` are OPEN (R3), so they are free values. -/
def State.reset : State := State.resetOf Config.engine

end Sys2Proof.Machine
end

