-- ==== Sys2Proof/Machine/Ops.lean ====
section
/-! DEFINITION. The shared operations: buffer cells, the wire, the transport primitives of 40_transport.md,
the response that ends an operation (an error's whole effect, R125), and reset. -/

namespace Sys2Proof.Machine

/-! ## Buffers (R30, R31) -/

/-- The value of a cell; `dflt` is what an unlisted cell reads as. -/
def Memory.read {α : Type} (dflt : α) : Memory α → Nat → α
  | [], _ => dflt
  | (k', v) :: rest, k => if k = k' then v else Memory.read dflt rest k

/-- Write a cell, keeping the canonical form. -/
def Memory.write {α : Type} [DecidableEq α] (dflt : α) : Memory α → Nat → α → Memory α
  | [], k, v => if v = dflt then [] else [(k, v)]
  | (k', v') :: rest, k, v =>
    if k < k' then if v = dflt then (k', v') :: rest else (k, v) :: (k', v') :: rest
    else if k = k' then if v = dflt then rest else (k, v) :: rest
    else (k', v') :: Memory.write dflt rest k v

/-- Write every cell with a key below `n`. -/
def Memory.fill {α : Type} [DecidableEq α] (dflt : α) (n : Nat) (v : α) : Memory α :=
  if v = dflt then [] else (List.range n).map fun k => (k, v)

/-- The canonical form: keys strictly rising, no listed cell equal to `dflt`. -/
def Memory.wf {α : Type} [DecidableEq α] (dflt : α) : Memory α → Bool
  | [] => true
  | [(_, v)] => decide (v ≠ dflt)
  | (k, v) :: (k', v') :: rest => decide (v ≠ dflt) && decide (k < k') && Memory.wf dflt ((k', v') :: rest)

/-- Every listed key is below `n`. -/
def Memory.below {α : Type} (n : Nat) (m : Memory α) : Bool := m.all fun c => decide (c.1 < n)

/-- The reset value of a `PIX` cell (R13). -/
def pixReset : Bool := false

/-- The reset value of a `BRT` cell (R14). -/
def brtReset : Level := 15

/-- The key of cell `(x, y)`, `y < 8`. No rule sees it (R31). DESIGN CHOICE, log entry 10, safe. -/
def cellKey (x y : Nat) : Nat := 8 * x + y

/-- The number of cells of a buffer, `64*N` (R30). -/
def cellCount (s : State) : Nat := 64 * s.inst.modules

/-- `PIX[y][x]`. -/
def readPix (s : State) (x y : Nat) : Bool := Memory.read pixReset s.pix (cellKey x y)

/-- `PIX[y][x] <- v`. -/
def writePix (x y : Nat) (v : Bool) (s : State) : State :=
  { s with pix := Memory.write pixReset s.pix (cellKey x y) v }

/-- `PIX[y][x] <- v` for every cell. -/
def fillPix (v : Bool) (s : State) : State :=
  { s with pix := Memory.fill pixReset (cellCount s) v }

/-- `BRT[y][x]`. -/
def readBrt (s : State) (x y : Nat) : Level := Memory.read brtReset s.brt (cellKey x y)

/-- `BRT[y][x] <- v`. -/
def writeBrt (x y : Nat) (v : Level) (s : State) : State :=
  { s with brt := Memory.write brtReset s.brt (cellKey x y) v }

/-! ## The wire (R15, R33) -/

/-- The electrical level of chip-select: `CSN` is low when asserted (R15). -/
def csn : ChipSelect → Bool
  | .deasserted => true
  | .asserted => false

/-- `CS <- asserted; TRACE += A` (R71). -/
def openBracket (s : State) : State :=
  { s with cs := .asserted, trace := s.trace ++ [.a], wire := s.wire ++ [.cs .asserted] }

/-- `CS <- deasserted; TRACE += D`, on the success path (R71) and on the failure path (R72). -/
def closeBracket (s : State) : State :=
  { s with cs := .deasserted, trace := s.trace ++ [.d], wire := s.wire ++ [.cs .deasserted] }

/-- `SDO <- b`. -/
def setSdo (b : Bool) (s : State) : State := { s with sdo := b }

/-- `SCK <- b`. -/
def setSck (b : Bool) (s : State) : State := { s with sck := b }

/-- One `BIT(b)` event of the bit-level trace. -/
def recordBit (b : Bool) (s : State) : State := { s with wire := s.wire ++ [.bit b] }

/-- One bit: `SDO <- b; SCK <- 1; SCK <- 0`, one `BIT(b)` event (R33). -/
def shiftBit (b : Bool) (s : State) : State :=
  recordBit b (setSck false (setSck true (setSdo b s)))

/-- Shift bits `n-1` down to 0 of `w` (R33). -/
def shiftOut (w : BitVec 16) : Nat → State → State
  | 0, s => s
  | n + 1, s => shiftOut w n (shiftBit (w.getLsbD n) s)

/-! ## The channel oracle (R70, R25) -/

/-- The oracle's answer to draw number `n`. -/
def answer (s : State) (n : Nat) : Draw := (s.oracle[n]?).getD (Config.channel n)

/-- `chan()`: one draw. -/
def draw (s : State) : State × Draw := ({ s with drawn := s.drawn + 1 }, answer s s.drawn)

/-! ## T.PAIR (R70) -/

/-- `SR <- a ‖ d`. -/
def loadPair (a d : Byte) (s : State) : State := { s with sr := pairFrame a d }

/-- `TRACE += P(a, d)`; the pair is over, and `SR` between pairs is unspecified (R17): a free value. -/
def pairSent (a d : Byte) (s : State) : State :=
  { s with
    trace := s.trace ++ [.p a d]
    sr := Config.idleShiftRegister s.free
    free := s.free + 1 }

/-- `TRACE += F(a, d)`. 0 to 16 bits of any value reached the wire, and `SDO` and `SR` are whatever they are
(R70, U2): free values. `SCK` is low when the operation has ended (R22; DEDUCED, log entry 7, unsafe). -/
def pairFailed (a d : Byte) (s : State) : State :=
  { s with
    trace := s.trace ++ [.f a d]
    wire := s.wire ++ ((Config.failedBits s.free).take 16).map .bit
    sdo := Config.failedSdo s.free
    sck := false
    sr := Config.idleShiftRegister s.free
    free := s.free + 1 }

/-- `T.PAIR(a, d)` (R70). -/
def pair (a d : Byte) (s : State) : State × Draw :=
  match draw s with
  | (s', .ok) => (pairSent a d (shiftOut (pairFrame a d) 16 (loadPair a d s')), .ok)
  | (s', .fail) => (pairFailed a d s', .fail)

/-! ## T.BRACKET and T.SEND (R71 to R73) -/

/-- The operands of `T.BRACKET(a, dv)`. -/
structure Bracket where
  addr : Byte
  data : List Byte
  deriving DecidableEq, Repr

/-- The pairs of a bracket, in order, up to the first that fails; the pairs after it are not attempted and
draw nothing (R72). -/
def sendPairs (a : Byte) : List Byte → State → State × Draw
  | [], s => (s, .ok)
  | d :: rest, s =>
    match pair a d s with
    | (s', .ok) => sendPairs a rest s'
    | (s', .fail) => (s', .fail)

/-- `T.BRACKET(a, dv)` (R71, R72): `.ok` for `OK`, `.fail` for `TransmissionError`. -/
def bracket (b : Bracket) (s : State) : State × Draw :=
  match sendPairs b.addr b.data (openBracket s) with
  | (s', r) => (closeBracket s', r)

/-- The operands of `T.SEND(a, d) = T.BRACKET(a, [d, ..., d])`, `N` copies (R73). -/
def broadcast (n : Nat) (a d : Byte) : Bracket := { addr := a, data := List.replicate n d }

/-- Brackets one after another, up to the first that fails; the later ones are not opened (R85, R105, R117). -/
def sendBrackets : List Bracket → State → State × Draw
  | [], s => (s, .ok)
  | b :: rest, s =>
    match bracket b s with
    | (s', .ok) => sendBrackets rest s'
    | (s', .fail) => (s', .fail)

/-! ## The end of an operation (R60, R115, R125) -/

/-- The operation ends and the host gets its response: `POS <- idle`, `BUSY <- 0` (R125). Nothing is saved, no
mode changes, control goes nowhere, and no error is recorded in state (R115). -/
def respond (status : Status) (rdata : Bool) (s : State) : State :=
  { s with
    pos := .idle
    busy := false
    frames := []
    responses := s.responses ++ [{ status := status, rdata := rdata }] }

/-- `return OK`. -/
def respondOk (s : State) : State := respond .ok false s

/-- `return <Error>`: taking an error, the engine's only kind of exception (R115, R125). -/
def raise (e : Status) (s : State) : State := respond e false s

/-- The first error in the order of the checks (R123). -/
def firstError : List (Option Status) → Option Status
  | [] => none
  | some e :: _ => some e
  | none :: rest => firstError rest

/-- The checks of an operation, all before any state change and any wire event (R123); then its body. -/
def guarded (checks : List (Option Status)) (body : State → State) (s : State) : State :=
  match firstError checks with
  | some e => raise e s
  | none => body s

/-- The end of an operation that drove the wire: on `ok` its state change `onOk` and `OK`, else
`TransmissionError` and no state change (R117). -/
def finish (onOk : State → State) : State × Draw → State
  | (s, .ok) => respondOk (onOk s)
  | (s, .fail) => raise .transmissionError s

/-! ## Reset (R24, R140, R141) -/

/-- Reset's effect on the wire: `D` if `CS` was asserted (R24). -/
def releaseBracket (s : State) : State :=
  match s.cs with
  | .asserted => closeBracket s
  | .deasserted => s

/-- `rst`: every piece of state as R24 says; an operation in progress is abandoned without a response (R141).
`TRACE` is kept; `SR` is unspecified, a free value. -/
def resetEngine (s : State) : State :=
  { releaseBracket s with
    rdy := false
    pix := []
    brt := []
    sck := false
    sdo := false
    pos := .idle
    sr := Config.idleShiftRegister s.free
    busy := false
    frames := []
    free := s.free + 1 }

end Sys2Proof.Machine
end

