-- ==== Sys2Proof/Machine/Flags.lean ====
section
/-! DEFINITION. The lifecycle flag `RDY` and the flag `BUSY` (R12, R19, R118). There are no arithmetic flags
and no sticky error flags (R19). -/

namespace Sys2Proof.Machine

/-- The lifecycle check of every operation but `INIT`: Ready is required (R118). -/
def readyCheck (s : State) : Option Status := if s.rdy then none else some .preconditionError

/-- The lifecycle check of `INIT`: Uninitialized is required (R118, D12). -/
def uninitializedCheck (s : State) : Option Status := if s.rdy then some .preconditionError else none

/-- `RDY <- 1` (R85). -/
def setReady (s : State) : State := { s with rdy := true }

/-- The operation is accepted and its position is the first one: `BUSY = 1` (R19), `POS` at the
operation's first bit, `m = 0` and `k = 15`, with `s = 0` for `INIT` and `y = 0` for `RENDER` (R16). The
components the operation does not use are put to 0, which R16 leaves open: DESIGN CHOICE, log entry 23, unsafe. -/
def begin (op : Op) (s : State) : State := { s with busy := true, pos := .active op 0 0 0 15 }

end Sys2Proof.Machine
end

