-- ==== Sys2Proof/Machine/Operands.lean ====
section
/-! DEFINITION. Operand checks and the arithmetic of level arguments (R36, R99, R121). -/

namespace Sys2Proof.Machine

/-- `0 <= x < 8N` and `0 <= y < 8` (R30). -/
def inRange (s : State) (x y : Nat) : Bool := decide (x < s.inst.width) && decide (y < rows)

/-- The address check of `SETBRT`, `PIXWR`, `PIXRD` (R36, R121). -/
def addressCheck (s : State) (x y : Nat) : Option Status :=
  if inRange s x y then none else some .addressError

/-- `0 <= level <= 15`, on the whole integer (R99). -/
def levelInRange (level : Int) : Bool := decide (0 ≤ level) && decide (level ≤ levelMax)

/-- The level check of `SETINT` (R86, R116). -/
def levelCheck (level : Int) : Option Status :=
  if levelInRange level then none else some .configurationError

/-- `clamp15(level)`: the level itself in range, else 15 on both sides (R98, R99). -/
def clamp15 (level : Int) : Level := if levelInRange level then BitVec.ofInt 4 level else 15

/-- The data byte of an Intensity frame (R53). -/
def intensityByte (level : Int) : Byte := BitVec.ofInt 8 level

end Sys2Proof.Machine
end

