-- ==== Sys2Proof/Machine/Buffers.lean ====
section
/-! DEFINITION. The buffer operations `PIXWR`, `PIXRD`, `FILL`, `SETBRT` (42_buffers.md). None of them writes
anything on the wire. -/

namespace Sys2Proof.Machine

/-- The checks of an operation on one cell: the address, then the lifecycle (R95, R96, R98, R123). -/
def cellChecks (x y : Nat) (s : State) : List (Option Status) := [addressCheck s x y, readyCheck s]

/-- `PIXWR x, y, v` (R95). -/
def pixelWrite (x y : Nat) (v : Bool) (s : State) : State :=
  guarded (cellChecks x y s) (fun s => respondOk (writePix x y v s)) s

/-- `PIXRD x, y` (R96). -/
def pixelRead (x y : Nat) (s : State) : State :=
  guarded (cellChecks x y s) (fun s => respond .ok (readPix s x y) s) s

/-- `FILL v` (R97). -/
def fillPixels (v : Bool) (s : State) : State :=
  guarded [readyCheck s] (fun s => respondOk (fillPix v s)) s

/-- `SETBRT x, y, level` (R98). -/
def setBrightness (x y : Nat) (level : Int) (s : State) : State :=
  guarded (cellChecks x y s) (fun s => respondOk (writeBrt x y (clamp15 level) s)) s

/-- The meaning of `PIXWR`. -/
def execPixwr (x y : Nat) (v : Bool) (s : State) : Host.Outcome State Fault Refusal := .next (pixelWrite x y v s)

/-- The meaning of `PIXRD`. -/
def execPixrd (x y : Nat) (s : State) : Host.Outcome State Fault Refusal := .next (pixelRead x y s)

/-- The meaning of `FILL`. -/
def execFill (v : Bool) (s : State) : Host.Outcome State Fault Refusal := .next (fillPixels v s)

/-- The meaning of `SETBRT`. -/
def execSetbrt (x y : Nat) (level : Int) (s : State) : Host.Outcome State Fault Refusal :=
  .next (setBrightness x y level s)

end Sys2Proof.Machine
end

