-- ==== Sys2Proof/Machine/Render.lean ====
section
/-! DEFINITION. The soft-PWM raster engine: `RENDER` (43_render.md). -/

namespace Sys2Proof.Machine

/-- `lit(x, y, p)` (R106): binary mode reads `PIX` only, brightness mode `BRT` only, with a strict comparison
of integers. -/
def lit (s : State) (x y : Nat) (p : Int) : Bool :=
  if s.inst.brightMode then decide (p < ((readBrt s x y).toNat : Int)) else readPix s x y

/-- `rowbyte(y, m, p)`: the sum over `b` in 0..7 of `lit(8*m + b, y, p) * 2^b` (R107). -/
def rowByte (s : State) (y m : Nat) (p : Int) : Byte :=
  BitVec.ofNat 8 ((List.range 8).map fun b => (lit s (8 * m + b) y p).toNat * 2 ^ b).sum

/-- The `N` data bytes of row `y`, module 0 first (R35, R105). -/
def rowData (s : State) (y : Nat) (p : Int) : List Byte :=
  (List.range s.inst.modules).map fun m => rowByte s y m p

/-- The register address of row `y`: `DIGIT_BASE + y` (R54). -/
def digitAddr (y : Nat) : Byte := BitVec.ofNat 8 (0x01 + y)

/-- The row bracket of row `y` (R105). -/
def rowBracket (s : State) (p : Int) (y : Nat) : Bracket := { addr := digitAddr y, data := rowData s y p }

/-- The eight row brackets, row 0 first (R105, R114). The buffers are read before the first is sent, which
R43 says is the same thing as reading each row just before sending it. -/
def rowBrackets (s : State) (p : Int) : List Bracket := (List.range rows).map (rowBracket s p)

/-- `RENDER pwmPhase` (R105). -/
def renderFrame (p : Int) (s : State) : State :=
  guarded [readyCheck s] (fun s => finish id (sendBrackets (rowBrackets s p) s)) s

/-- The meaning of `RENDER`. -/
def execRender (pwmPhase : Int) (s : State) : Host.Outcome State Fault Refusal := .next (renderFrame pwmPhase s)

end Sys2Proof.Machine
end

