-- ==== Sys2Proof/Machine/Reserved.lean ====
section
/-! DEFINITION. The reserved host codes (R59, R122): each answers `IllegalCommand`, changes no state and writes
nothing on the wire, before any other check (R123). -/

namespace Sys2Proof.Machine

/-- `IllegalCommand` (R122). -/
def illegalCommand (s : State) : State := raise .illegalCommand s

/-- The meaning of `op` 0x0, reserved. -/
def execReserved0 (s : State) : Host.Outcome State Fault Refusal := .next (illegalCommand s)

/-- The meaning of `op` 0x8, reserved. -/
def execReserved8 (s : State) : Host.Outcome State Fault Refusal := .next (illegalCommand s)

/-- The meaning of `op` 0x9, reserved. -/
def execReserved9 (s : State) : Host.Outcome State Fault Refusal := .next (illegalCommand s)

/-- The meaning of `op` 0xA, reserved. -/
def execReservedA (s : State) : Host.Outcome State Fault Refusal := .next (illegalCommand s)

/-- The meaning of `op` 0xB, reserved. -/
def execReservedB (s : State) : Host.Outcome State Fault Refusal := .next (illegalCommand s)

/-- The meaning of `op` 0xC, reserved. -/
def execReservedC (s : State) : Host.Outcome State Fault Refusal := .next (illegalCommand s)

/-- The meaning of `op` 0xD, reserved. -/
def execReservedD (s : State) : Host.Outcome State Fault Refusal := .next (illegalCommand s)

/-- The meaning of `op` 0xE, reserved. -/
def execReservedE (s : State) : Host.Outcome State Fault Refusal := .next (illegalCommand s)

/-- The meaning of `op` 0xF, reserved. -/
def execReservedF (s : State) : Host.Outcome State Fault Refusal := .next (illegalCommand s)

end Sys2Proof.Machine
end

