-- ==== Sys2Proof/Machine/Sequencer.lean ====
section
/-! DEFINITION. The MAX7219 command sequencer: `INIT` and `SETINT` (41_sequencer.md). -/

namespace Sys2Proof.Machine

/-- The five register writes of `INIT`, in order (R85): Shutdown 0, Display-Test 0, Scan-Limit 7,
Decode-Mode 0, Shutdown 1. -/
def initSequence : List (Byte × Byte) :=
  [(0x0C, 0x00), (0x0F, 0x00), (0x0B, 0x07), (0x09, 0x00), (0x0C, 0x01)]

/-- The five broadcast brackets of `INIT`. -/
def initBrackets (n : Nat) : List Bracket := initSequence.map fun w => broadcast n w.1 w.2

/-- The one broadcast bracket of `SETINT` (R86). -/
def setintBracket (n : Nat) (level : Int) : Bracket := broadcast n 0x0A (intensityByte level)

/-- The checks of `INIT` (R85, R123). -/
def initChecks (s : State) : List (Option Status) := [uninitializedCheck s]

/-- The checks of `SETINT`, the level first (R86, R123). -/
def setintChecks (level : Int) (s : State) : List (Option Status) := [levelCheck level, readyCheck s]

/-- `INIT` (R85). -/
def initialise (s : State) : State :=
  guarded (initChecks s) (fun s => finish setReady (sendBrackets (initBrackets s.inst.modules) s)) s

/-- `SETINT level` (R86). The level is not stored (R18). -/
def setIntensity (level : Int) (s : State) : State :=
  guarded (setintChecks level s)
    (fun s => finish id (sendBrackets [setintBracket s.inst.modules level] s)) s

/-- The meaning of `INIT`. -/
def execInit (s : State) : Host.Outcome State Fault Refusal := .next (initialise s)

/-- The meaning of `SETINT`. -/
def execSetint (level : Int) (s : State) : Host.Outcome State Fault Refusal := .next (setIntensity level s)

end Sys2Proof.Machine
end

