-- ==== Sys2Proof/Machine/Wire.lean ====
section
/-! DEFINITION. The wire frames: each is one `T.PAIR` of the bracket in progress (R70, R71), with the failure
path of R72 and R117. The operations run them through `sendPairs`; here a frame is one step of its own. -/

namespace Sys2Proof.Machine

/-- The position after a pair, given the pairs still to be sent: the next `m` at its first bit, or, after the
last pair, still that pair's last bit, since the loops over `k` and `m` have nowhere to go before the `D` (R16;
DEDUCED, log entry 9, safe). -/
def nextPair (pending : List Frame) : Pos → Pos
  | .idle => .idle
  | .active op s y m _ =>
    match pending with
    | [] => .active op s y m 0
    | _ :: _ => .active op s y (m + 1) 15

/-- The pair at `POS` is over: go to the next one, if there is one. -/
def advancePair (s : State) : State :=
  { s with frames := s.frames.tail, pos := nextPair s.frames.tail s.pos }

/-- The failure path: chip-select is released first, then the operation ends with `TransmissionError`
(R72, R117). -/
def abortBracket (s : State) : State := raise .transmissionError (closeBracket s)

/-- The rest of the loop body of `T.BRACKET` after a pair's draw (R71, R72). -/
def afterPair : State × Draw → State
  | (s, .ok) => advancePair s
  | (s, .fail) => abortBracket s

/-- One pair of the bracket in progress. -/
def sendPair (a d : Byte) (s : State) : State := afterPair (pair a d s)

/-- One pair as an instruction. `T.PAIR` has the precondition `CS = asserted` (R70). -/
def execPair (a d : Byte) (s : State) : Host.Outcome State Fault Refusal :=
  match s.cs with
  | .asserted => .next (sendPair a d s)
  | .deasserted => .fault .pairOutsideBracket

/-- The meaning of `W.DIGIT0`: row 0's digit register (R54). -/
def execWDigit0 (data : Byte) (s : State) : Host.Outcome State Fault Refusal := execPair 0x01 data s

/-- The meaning of `W.DIGIT1`: row 1's digit register (R54). -/
def execWDigit1 (data : Byte) (s : State) : Host.Outcome State Fault Refusal := execPair 0x02 data s

/-- The meaning of `W.DIGIT2`: row 2's digit register (R54). -/
def execWDigit2 (data : Byte) (s : State) : Host.Outcome State Fault Refusal := execPair 0x03 data s

/-- The meaning of `W.DIGIT3`: row 3's digit register (R54). -/
def execWDigit3 (data : Byte) (s : State) : Host.Outcome State Fault Refusal := execPair 0x04 data s

/-- The meaning of `W.DIGIT4`: row 4's digit register (R54). -/
def execWDigit4 (data : Byte) (s : State) : Host.Outcome State Fault Refusal := execPair 0x05 data s

/-- The meaning of `W.DIGIT5`: row 5's digit register (R54). -/
def execWDigit5 (data : Byte) (s : State) : Host.Outcome State Fault Refusal := execPair 0x06 data s

/-- The meaning of `W.DIGIT6`: row 6's digit register (R54). -/
def execWDigit6 (data : Byte) (s : State) : Host.Outcome State Fault Refusal := execPair 0x07 data s

/-- The meaning of `W.DIGIT7`: row 7's digit register (R54). -/
def execWDigit7 (data : Byte) (s : State) : Host.Outcome State Fault Refusal := execPair 0x08 data s

/-- The meaning of `W.DECODE`: raw-segment mode (R52). -/
def execWDecode (s : State) : Host.Outcome State Fault Refusal := execPair 0x09 0x00 s

/-- The meaning of `W.SCANLIMIT`: all 8 rows (R52). -/
def execWScanlimit (s : State) : Host.Outcome State Fault Refusal := execPair 0x0B 0x07 s

/-- The meaning of `W.SHUTDOWN.0`: enter shutdown (R52). -/
def execWShutdown0 (s : State) : Host.Outcome State Fault Refusal := execPair 0x0C 0x00 s

/-- The meaning of `W.SHUTDOWN.1`: normal operation (R52). -/
def execWShutdown1 (s : State) : Host.Outcome State Fault Refusal := execPair 0x0C 0x01 s

/-- The meaning of `W.DISPTEST`: display test off (R52). -/
def execWDisptest (s : State) : Host.Outcome State Fault Refusal := execPair 0x0F 0x00 s

/-- The meaning of `W.INTENSITY`: `data[7:4] = 0`, `data[3:0] = level` (R53). -/
def execWIntensity (level : Level) (s : State) : Host.Outcome State Fault Refusal :=
  execPair 0x0A (level.setWidth 8) s

end Sys2Proof.Machine
end

