-- ==== Sys2Proof/Machine/Dispatch.lean ====
section
/-! DEFINITION. One instruction: one arm per row of the opcode table. -/

namespace Sys2Proof.Machine

def exec (i : Instr) (s : State) : Host.Outcome State Fault Refusal :=
  match i with
  | .init => Sys2Proof.Machine.execInit s
  | .setint level => Sys2Proof.Machine.execSetint level s
  | .setbrt x y level => Sys2Proof.Machine.execSetbrt x y level s
  | .render pwmPhase => Sys2Proof.Machine.execRender pwmPhase s
  | .pixwr x y v => Sys2Proof.Machine.execPixwr x y v s
  | .pixrd x y => Sys2Proof.Machine.execPixrd x y s
  | .fill v => Sys2Proof.Machine.execFill v s
  | .reserved0 => Sys2Proof.Machine.execReserved0 s
  | .reserved8 => Sys2Proof.Machine.execReserved8 s
  | .reserved9 => Sys2Proof.Machine.execReserved9 s
  | .reservedA => Sys2Proof.Machine.execReservedA s
  | .reservedB => Sys2Proof.Machine.execReservedB s
  | .reservedC => Sys2Proof.Machine.execReservedC s
  | .reservedD => Sys2Proof.Machine.execReservedD s
  | .reservedE => Sys2Proof.Machine.execReservedE s
  | .reservedF => Sys2Proof.Machine.execReservedF s
  | .wDigit0 data => Sys2Proof.Machine.execWDigit0 data s
  | .wDigit1 data => Sys2Proof.Machine.execWDigit1 data s
  | .wDigit2 data => Sys2Proof.Machine.execWDigit2 data s
  | .wDigit3 data => Sys2Proof.Machine.execWDigit3 data s
  | .wDigit4 data => Sys2Proof.Machine.execWDigit4 data s
  | .wDigit5 data => Sys2Proof.Machine.execWDigit5 data s
  | .wDigit6 data => Sys2Proof.Machine.execWDigit6 data s
  | .wDigit7 data => Sys2Proof.Machine.execWDigit7 data s
  | .wDecode => Sys2Proof.Machine.execWDecode s
  | .wIntensity level => Sys2Proof.Machine.execWIntensity level s
  | .wScanlimit => Sys2Proof.Machine.execWScanlimit s
  | .wShutdown0 => Sys2Proof.Machine.execWShutdown0 s
  | .wShutdown1 => Sys2Proof.Machine.execWShutdown1 s
  | .wDisptest => Sys2Proof.Machine.execWDisptest s

end Sys2Proof.Machine
end

