-- ==== Sys2Proof/Machine/SmallStep.lean ====
section
/-! DEFINITION. The small steps of an operation that drives the wire, one for each change of the sequencer
position `POS` (R16): acceptance, the opening of a bracket, a pair (`Machine/Wire.lean`) or one bit of it, the
closing of a bracket. They use the same operations as the whole operations of the other files. -/

namespace Sys2Proof.Machine

/-! ## Acceptance -/

/-- A command is accepted. An operation with a wire sequence passes its checks and begins; every other one is
over at once. A wire frame is no host command (R75): nothing is accepted. -/
def accept (i : Instr) (s : State) : State :=
  match i with
  | .init => guarded (initChecks s) (begin .init) s
  | .setint level => guarded (setintChecks level s) (begin (.setint level)) s
  | .render p => guarded [readyCheck s] (begin (.render p)) s
  | .setbrt x y level => setBrightness x y level s
  | .pixwr x y v => pixelWrite x y v s
  | .pixrd x y => pixelRead x y s
  | .fill v => fillPixels v s
  | .reserved0 | .reserved8 | .reserved9 | .reservedA | .reservedB | .reservedC | .reservedD
  | .reservedE | .reservedF => illegalCommand s
  | .wDigit0 _ | .wDigit1 _ | .wDigit2 _ | .wDigit3 _ | .wDigit4 _ | .wDigit5 _ | .wDigit6 _
  | .wDigit7 _ | .wDecode | .wIntensity _ | .wScanlimit | .wShutdown0 | .wShutdown1 | .wDisptest => s

/-! ## Brackets -/

/-- The bracket at a position: write `i` of the `INIT` sequence, the Intensity write, or row `y` (R16). -/
def bracketAt (s : State) (op : Op) (i : Fin 5) (y : Fin 8) : Bracket :=
  match op with
  | .init => broadcast s.inst.modules (initSequence.get i).1 (initSequence.get i).2
  | .setint level => setintBracket s.inst.modules level
  | .render p => rowBracket s p y

/-- The frames of a bracket, in order (R71). -/
def bracketFrames (b : Bracket) : List Frame := b.data.map (pairFrame b.addr)

/-- The bracket at `POS` is opened: `A`, and its pairs are all still to be sent. -/
def openNext (s : State) : State :=
  match s.pos with
  | .idle => s
  | .active op i y _ _ =>
    openBracket { s with pos := .active op i y 0 15, frames := bracketFrames (bracketAt s op i y) }

/-- The position after a bracket, none after the last one: `s` up to 4 for `INIT`, `y` up to 7 for `RENDER`
(R16). -/
def nextBracket (op : Op) (i : Fin 5) (y : Fin 8) : Option Pos :=
  match op with
  | .init => if i.val < 4 then some (.active .init (i + 1) y 0 15) else none
  | .setint _ => none
  | .render p => if y.val < 7 then some (.active (.render p) i (y + 1) 0 15) else none

/-- What an operation that drove the wire changes when it ends with `OK`: `INIT` sets `RDY` (R85). -/
def onSuccess : Op → State → State
  | .init => setReady
  | .setint _ => id
  | .render _ => id

/-- All pairs are sent: `D`, then the next bracket, or the end of the operation. -/
def closeNext (s : State) : State :=
  match s.pos with
  | .idle => s
  | .active op i y _ _ =>
    match nextBracket op i y with
    | some p => closeBracket { s with pos := p }
    | none => respondOk (onSuccess op (closeBracket s))

/-! ## Bits -/

/-- The bits `k` down to 0 of a pair whose write has begun, and its end (R33, R70). -/
def finishPair (w : Frame) (k : Fin 16) (s : State) : State :=
  advancePair (pairSent (frameAddr w) (frameData w) (shiftOut s.sr (k.val + 1) s))

/-- `POS` goes on to the next lower bit. -/
def setBit (k : Fin 16) (s : State) : State :=
  match s.pos with
  | .idle => s
  | .active op i y m _ => { s with pos := .active op i y m k }

/-- One clock pulse of a pair whose write has begun: bit `k`; after bit 0 the pair is over. -/
def pulseBit (w : Frame) (k : Fin 16) (s : State) : State :=
  if k.val = 0 then finishPair w k s else setBit (k - 1) (shiftBit (s.sr.getLsbD k.val) s)

/-- The first clock pulse of a pair: the draw is made, and on `fail` the whole failure path is taken (R70,
R72). -/
def firstPulse (w : Frame) (s : State) : State :=
  match draw s with
  | (s', .ok) => pulseBit w 15 (loadPair (frameAddr w) (frameData w) s')
  | (s', .fail) => abortBracket (pairFailed (frameAddr w) (frameData w) s')

/-- One clock pulse. Between pairs there is none (R77): the state stays. -/
def pulse (s : State) : State :=
  match s.cs, s.frames, s.pos with
  | .asserted, w :: _, .active _ _ _ _ k => if k.val = 15 then firstPulse w s else pulseBit w k s
  | _, _, _ => s

end Sys2Proof.Machine
end

