-- ==== Sys2Proof/Machine/Fetch.lean ====
section
/-! DEFINITION. What the engine does next. It has no program counter and fetches no instructions (R16, R43):
an idle engine takes the host's next command, a busy one goes on from `POS`. -/

namespace Sys2Proof.Machine

/-- The next thing to happen: an instruction of the table, or a move that is none of its rows. -/
inductive Move where
  | run (i : Instr) (s : State)
  | go (s : State)
  deriving DecidableEq, Repr

/-- The input at the head of the queue is consumed. -/
def popInput (s : State) : State := { s with inputs := s.inputs.tail }

/-- An idle engine: it waits for a command (R129, R140) and accepts one when the host presents it. -/
def fetchIdle (s : State) : Move :=
  match s.inputs with
  | [] => .go s
  | .command w :: _ => .run (decodeHost w) (popInput s)
  | .start w :: _ => .go (accept (decodeHost w) (popInput s))
  | .wait :: _ => .go (popInput s)
  | .pulse :: _ => .go (popInput s)
  | .reset :: _ => .go (resetEngine (popInput s))

/-- The pair at `POS` as an instruction, whole or from bit `k` on. The transport checks no byte (R70), so a
frame that no row of the table has is sent like any other. -/
def fetchPair (w : Frame) (s : State) : Move :=
  match s.pos with
  | .idle => .go s
  | .active _ _ _ _ k =>
    if k.val = 15 then
      match decodeFrame w with
      | .ok i => .run i s
      | .error _ => .go (sendPair (frameAddr w) (frameData w) s)
    else .go (finishPair w k s)

/-- An operation in progress goes on: open the bracket at `POS`, send its next pair, or close it. -/
def fetchOperation (s : State) : Move :=
  match s.cs, s.frames with
  | .deasserted, _ => .go (openNext s)
  | .asserted, [] => .go (closeNext s)
  | .asserted, w :: _ => fetchPair w s

/-- A busy engine goes on with its operation, for as many steps as the queue holds `wait`s, and when the queue is
empty. Between two of its steps a reset may come, or a look at one clock pulse, at any place the queue puts it:
R141 lets a model admit or leave out a reset of a busy engine, and this one admits it (DESIGN CHOICE, log entry
2, safe). A command is not accepted: it stays at the head of the queue, and what stands behind it waits until the
operation has ended (R2, R19, U14). -/
def fetchBusy (s : State) : Move :=
  match s.inputs with
  | .reset :: _ => .go (resetEngine (popInput s))
  | .pulse :: _ => .go (pulse (popInput s))
  | .wait :: _ => fetchOperation (popInput s)
  | .command _ :: _ => fetchOperation s
  | .start _ :: _ => fetchOperation s
  | [] => fetchOperation s

/-- What the engine does next. -/
def fetch (s : State) : Move := if s.busy then fetchBusy s else fetchIdle s

/-! ## Placing an instruction where the next step takes it (log entry 2) -/

/-- The host presents a command word to an idle engine. -/
def placeHost (w : HostWord) (s : State) : State :=
  { s with
    busy := false
    pos := .idle
    cs := .deasserted
    frames := []
    inputs := .command w :: s.inputs }

/-- The operation and position at which the engine sends a frame (R85, R86, R105): the last pair of its
bracket. -/
def framePos (n : Nat) (w : Frame) : Pos :=
  let at_ (op : Op) (i : Fin 5) (y : Fin 8) : Pos := .active op i y (n - 1) 15
  match (frameAddr w).toNat with
  | 0x01 => at_ (.render 0) 0 0
  | 0x02 => at_ (.render 0) 0 1
  | 0x03 => at_ (.render 0) 0 2
  | 0x04 => at_ (.render 0) 0 3
  | 0x05 => at_ (.render 0) 0 4
  | 0x06 => at_ (.render 0) 0 5
  | 0x07 => at_ (.render 0) 0 6
  | 0x08 => at_ (.render 0) 0 7
  | 0x0A => at_ (.setint (frameData w).toNat) 0 0
  | 0x0F => at_ .init 1 0
  | 0x0B => at_ .init 2 0
  | 0x09 => at_ .init 3 0
  | _ => if frameData w = 0x01 then at_ .init 4 0 else at_ .init 0 0

/-- The engine is inside a bracket with one pair, this frame, still to be sent. -/
def placeFrame (w : Frame) (s : State) : State :=
  { s with
    busy := true
    pos := framePos s.inst.modules w
    cs := .asserted
    frames := [w]
    inputs := [] }

/-- An instruction of `nbits` bits placed for the next step. -/
def placeWord (nbits w : Nat) (s : State) : State :=
  if nbits = 32 then placeHost (BitVec.ofNat 32 w) s
  else if nbits = 16 then placeFrame (BitVec.ofNat 16 w) s
  else s

end Sys2Proof.Machine
end

