-- ==== Sys2Proof/Machine/Assembler.lean ====
section
/-! DEFINITION. The written forms of R61: one operation a line, mnemonic then operands; wire events as `A`,
`P(aa,dd)`, `F(aa,dd)`, `D`. -/

namespace Sys2Proof.Machine

/-- A hexadecimal digit. -/
def hexDigit (n : Nat) : String := (["0", "1", "2", "3", "4", "5", "6", "7", "8", "9", "A", "B", "C", "D", "E", "F"][n]?).getD "?"

/-- Two hexadecimal digits. -/
def hexByte (b : Byte) : String := hexDigit (b.toNat / 16) ++ hexDigit (b.toNat % 16)

/-- A pair in the notation of R61. -/
def pairText (letter : String) (a d : Byte) : String := letter ++ "(" ++ hexByte a ++ "," ++ hexByte d ++ ")"

/-- A pixel bit as an operand. -/
def bitText (v : Bool) : String := if v then "1" else "0"

/-- The line of an operation, or the frame of a wire frame; the reserved codes have no line (R61). -/
def assemblyLine : Instr → Option String
  | .init => some "INIT"
  | .setint level => some ("SETINT " ++ toString level)
  | .setbrt x y level => some ("SETBRT " ++ toString x ++ ", " ++ toString y ++ ", " ++ toString level)
  | .render pwmPhase => some ("RENDER " ++ toString pwmPhase)
  | .pixwr x y v => some ("PIXWR " ++ toString x ++ ", " ++ toString y ++ ", " ++ bitText v)
  | .pixrd x y => some ("PIXRD " ++ toString x ++ ", " ++ toString y)
  | .fill v => some ("FILL " ++ bitText v)
  | .reserved0 | .reserved8 | .reserved9 | .reservedA | .reservedB | .reservedC | .reservedD
  | .reservedE | .reservedF => none
  | .wDigit0 data => some (pairText "P" 0x01 data)
  | .wDigit1 data => some (pairText "P" 0x02 data)
  | .wDigit2 data => some (pairText "P" 0x03 data)
  | .wDigit3 data => some (pairText "P" 0x04 data)
  | .wDigit4 data => some (pairText "P" 0x05 data)
  | .wDigit5 data => some (pairText "P" 0x06 data)
  | .wDigit6 data => some (pairText "P" 0x07 data)
  | .wDigit7 data => some (pairText "P" 0x08 data)
  | .wDecode => some (pairText "P" 0x09 0x00)
  | .wIntensity level => some (pairText "P" 0x0A (level.setWidth 8))
  | .wScanlimit => some (pairText "P" 0x0B 0x07)
  | .wShutdown0 => some (pairText "P" 0x0C 0x00)
  | .wShutdown1 => some (pairText "P" 0x0C 0x01)
  | .wDisptest => some (pairText "P" 0x0F 0x00)

/-- A wire event in the notation of R5 and R61. -/
def eventText : Event → String
  | .a => "A"
  | .p a d => pairText "P" a d
  | .f a d => pairText "F" a d
  | .d => "D"

end Sys2Proof.Machine
end

