-- ==== Sys2Proof/Machine/Chips.lean ====
section
/-! DEFINITION. What the wire trace fixes about a register of a chained chip. The chips are outside the engine
(R21, R133; 00_scope.md section 3), no step reads this, and nothing is said of LEDs. It is only the reading of
`TRACE` that R35, R39 and R41 give: at the `D` of a whole bracket, pair `m` reaches module `m` and writes `data`
to the register `addr`; and of what R105, R150, U3 and U4 leave unknown after a short one. DEDUCED, log entry
13. -/

namespace Sys2Proof.Machine

/-- A reader of the trace, for one register of one module: the pairs of the open bracket, the address of the
pair whose write failed in it, and the register's value where it is known. -/
structure ChipView where
  pairs : List (Byte × Byte)
  failed : Option Byte
  value : Option Byte
  deriving DecidableEq, Repr

/-- The register's value after a whole bracket: written if module `m`'s pair names it. -/
def latchPair (a : Byte) (old : Option Byte) : Option (Byte × Byte) → Option Byte
  | none => old
  | some (a', d) => if a' = a then some d else old

/-- The registers that only `INIT` writes (R52). -/
def controlRegisters : List Byte := [0x0C, 0x0F, 0x0B, 0x09]

/-- The registers that hold any value after the failure of a bracket with address `a`: all that the failed
operation could have written (U3), the four control registers for `INIT` and Intensity for `SETINT`; for
`RENDER` the failed row's only, since the rows before it hold the new frame and those after it the old one
(R105, R150). -/
def unknownAfterFailure (a : Byte) : List Byte := if a ∈ controlRegisters then controlRegisters else [a]

/-- The register at the `D` of a bracket. After a bracket that fails (`F`) only the registers of
`unknownAfterFailure` are unknown; after one that a reset cuts short every register is (R141, U4). A reset that
cuts a bracket after all `N` pairs leaves the same events as a whole bracket and is read as one, although U4
leaves its effect unspecified too: DESIGN CHOICE, log entry 13, unsafe. -/
def latchBracket (n m : Nat) (a : Byte) (v : ChipView) : Option Byte :=
  match v.failed with
  | some a' => if a ∈ unknownAfterFailure a' then none else v.value
  | none => if v.pairs.length = n then latchPair a v.value v.pairs[m]? else none

/-- One event. -/
def chipEvent (n m : Nat) (a : Byte) (v : ChipView) : Event → ChipView
  | .a => { v with pairs := [], failed := none }
  | .p a' d => { v with pairs := v.pairs ++ [(a', d)] }
  | .f a' _ => { v with failed := some a' }
  | .d => { pairs := [], failed := none, value := latchBracket n m a v }

/-- The value of register `a` of module `m` in a chain of `n`, where the trace fixes one; before the first
write it is unspecified (R142, U10). The reading supposes that the chips keep power: a register keeps what the last
whole bracket wrote to it, also over a reset of the engine (R142). R142 and R151 allow chips that lose power or are
powered up with the engine and then hold unknown values, which `TRACE` does not show: DESIGN CHOICE, log entry 13,
unsafe. -/
def chipRegister (n m : Nat) (a : Byte) (t : List Event) : Option Byte :=
  (t.foldl (chipEvent n m a) { pairs := [], failed := none, value := none }).value

end Sys2Proof.Machine
end

