-- ==== Sys2Proof/Safety.lean ====
section
/-! DEFINITION. What a safe run is, in the terms the statements use: well-formed traces (R74), frames that may
be emitted (R55), the idle invariant (R22), the buffers' form (R13, R14), and the traces the rules give for
whole and for cut-short operations. -/

namespace Sys2Proof.Machine

/-- `k` steps of the machine, to the first stop. -/
def run (k : Nat) (s : State) : Host.Outcome State Fault Refusal := core.run k s

/-! ## Well-formed traces (R74) -/

/-- Where a reader of the trace stands: outside a bracket, after `j` pairs of one, or after an `F`. -/
inductive Scan where
  | outside
  | inside (j : Nat)
  | failed
  deriving DecidableEq, Repr

/-- One event in a chain of `n`; `cuts` allows the `D` with which a reset cuts a bracket short (R24). -/
def scanEvent (cuts : Bool) (n : Nat) : Scan → Event → Option Scan
  | .outside, .a => some (.inside 0)
  | .inside j, .p _ _ => if j < n then some (.inside (j + 1)) else none
  | .inside j, .f _ _ => if j < n then some .failed else none
  | .inside j, .d => if cuts || j == n then some .outside else none
  | .failed, .d => some .outside
  | _, _ => none

/-- A list of events; `none` where it is not well formed. -/
def scanEvents (cuts : Bool) (n : Nat) : Scan → List Event → Option Scan
  | q, [] => some q
  | q, e :: rest =>
    match scanEvent cuts n q e with
    | some q' => scanEvents cuts n q' rest
    | none => none

/-- A whole number of well-formed brackets, none of them cut by a reset. -/
def WholeBrackets (n : Nat) (t : List Event) : Prop := scanEvents false n .outside t = some .outside

/-- Where the trace must stand: outside a bracket, or, while `CS` is asserted, inside one that holds every pair
but the pending ones. -/
def scanPoint (s : State) : Scan :=
  match s.cs with
  | .deasserted => .outside
  | .asserted => .inside (s.inst.modules - s.frames.length)

/-- `POS` agrees with the pending pairs: while `CS` is asserted, `m` is the index of the first pending pair, or
of the last pair of the bracket when none is pending. So `m < N` in every legal engine (R16). -/
def PosTracks (s : State) : Prop :=
  s.cs = .asserted → s.frames.length ≤ s.inst.modules ∧
    ∃ op n y m k, s.pos = .active op n y m k ∧ m = s.inst.modules - max 1 s.frames.length

/-- The trace agrees with `CS`, `POS` and the pending pairs: well-formed brackets, of which a reset may have cut
some short, then, while `CS` is asserted, one more with the pairs sent so far. -/
def TraceTracks (s : State) : Prop :=
  scanEvents true s.inst.modules .outside s.trace = some (scanPoint s) ∧ PosTracks s

/-- A pair whose clock pulses have begun (R17, R33, R70): `SR` holds its frame, `SDO` the last bit sent, which
is the one above `k`, and the bits sent so far, 15 down to `k + 1`, are the end of the bit-level trace. -/
def PairInProgress (s : State) : Prop :=
  ∀ w rest op n y m k, s.cs = .asserted → s.frames = w :: rest → s.pos = .active op n y m k → k.val ≠ 15 →
    s.sr = w ∧ s.sdo = w.getLsbD (k.val + 1) ∧
      ∃ before, s.wire = before ++ ((frameBits w).take (15 - k.val)).map .bit

/-! ## Frames that may be emitted (R55) -/

/-- The pairs that the engine never emits (R55). -/
def neverEmitted (a d : Byte) : Bool :=
  decide (a = 0x00) || decide (a = 0x0D) || decide (a = 0x0E) || decide (0x10 ≤ a.toNat) ||
  (decide (a = 0x09) && decide (d ≠ 0x00)) || (decide (a = 0x0B) && decide (d ≠ 0x07)) ||
  (decide (a = 0x0C) && decide (d ≠ 0x00) && decide (d ≠ 0x01)) || (decide (a = 0x0F) && decide (d ≠ 0x00)) ||
  (decide (a = 0x0A) && decide (0x0F < d.toNat))

/-- An event that the engine may emit, whether the pair was written or failed. -/
def eventAllowed : Event → Bool
  | .a => true
  | .p a d => !neverEmitted a d
  | .f a d => !neverEmitted a d
  | .d => true

/-- Every emitted frame is allowed, and so is every frame about to be: the pending ones, and those of the
bracket at `POS`. -/
def FramesAllowed (s : State) : Prop :=
  (∀ e ∈ s.trace, eventAllowed e = true) ∧
  (∀ w ∈ s.frames, neverEmitted (frameAddr w) (frameData w) = false) ∧
  (∀ level i y m k, s.pos = .active (.setint level) i y m k → levelInRange level = true)

/-- The pair that each wire frame writes (R52 to R54); none for a host command. -/
def framePair : Instr → Option (Byte × Byte)
  | .wDigit0 data => some (0x01, data)
  | .wDigit1 data => some (0x02, data)
  | .wDigit2 data => some (0x03, data)
  | .wDigit3 data => some (0x04, data)
  | .wDigit4 data => some (0x05, data)
  | .wDigit5 data => some (0x06, data)
  | .wDigit6 data => some (0x07, data)
  | .wDigit7 data => some (0x08, data)
  | .wDecode => some (0x09, 0x00)
  | .wIntensity level => some (0x0A, BitVec.ofNat 8 level.toNat)
  | .wScanlimit => some (0x0B, 0x07)
  | .wShutdown0 => some (0x0C, 0x00)
  | .wShutdown1 => some (0x0C, 0x01)
  | .wDisptest => some (0x0F, 0x00)
  | .init | .setint _ | .setbrt _ _ _ | .render _ | .pixwr _ _ _ | .pixrd _ _ | .fill _ => none
  | .reserved0 | .reserved8 | .reserved9 | .reservedA | .reservedB | .reservedC | .reservedD
  | .reservedE | .reservedF => none

/-! ## The idle invariant (R22) -/

/-- Nothing is in progress: `CS` deasserted, `SCK` low, `POS` idle, no pair pending. -/
def Quiet (s : State) : Prop := s.cs = .deasserted ∧ s.sck = false ∧ s.pos = .idle ∧ s.frames = []

/-- `SCK` is low between steps, and whenever `BUSY = 0` the engine is quiet (R22). -/
def IdleInvariant (s : State) : Prop := s.sck = false ∧ (s.busy = false → Quiet s)

/-! ## The buffers (R13, R14, R23) -/

/-- Both buffers are in canonical form and hold no cell outside `8 x 8N`. -/
def BuffersOk (s : State) : Prop :=
  Memory.wf pixReset s.pix = true ∧ Memory.wf brtReset s.brt = true ∧
  Memory.below (cellCount s) s.pix = true ∧ Memory.below (cellCount s) s.brt = true

/-- Every cell of both buffers has its reset value (R24). -/
def BuffersReset (s : State) : Prop :=
  ∀ x y, readPix s x y = false ∧ readBrt s x y = 15

/-! ## What an operation puts on the wire -/

/-- The next `k` draws of the oracle are all `ok`. -/
def DrawsOk (s : State) (k : Nat) : Prop := ∀ i < k, answer s (s.drawn + i) = .ok

/-- Draw `k` from now is the first that fails. -/
def FirstFailure (s : State) (k : Nat) : Prop := DrawsOk s k ∧ answer s (s.drawn + k) = .fail

/-- The trace of a whole bracket (R71). -/
def bracketTrace (b : Bracket) : List Event := .a :: b.data.map (.p b.addr) ++ [.d]

/-- The trace of a bracket whose pair `j` fails (R72). -/
def failedTrace (b : Bracket) (j : Nat) : List Event :=
  .a :: (b.data.take j).map (.p b.addr) ++ (b.data[j]?.toList.map (.f b.addr) ++ [.d])

/-- The trace of brackets of `n` pairs each, sent one after another, when draw `k` is the first to fail: the
whole brackets before it, then the one that fails (R72, R117). -/
def cutTrace (n : Nat) (bs : List Bracket) (k : Nat) : List Event :=
  (bs.take (k / n)).flatMap bracketTrace ++ bs[k / n]?.toList.flatMap fun b => failedTrace b (k % n)

/-- The trace of a broadcast bracket, `N` equal pairs (R73). -/
def broadcastTrace (n : Nat) (a d : Byte) : List Event := .a :: List.replicate n (.p a d) ++ [.d]

/-- The bit-level image of an event (R6); what a failed pair put on the wire is unspecified, so none. -/
def eventBits : Event → List BitEvent
  | .a => [.cs .asserted]
  | .p a d => (frameBits (pairFrame a d)).map .bit
  | .f _ _ => []
  | .d => [.cs .deasserted]

/-- No pair write of the trace failed. -/
def NoFailure (t : List Event) : Prop := ∀ a d, Event.f a d ∉ t

/-- The address of a written pair. -/
def pairAddr : Event → Option Byte
  | .a => none
  | .p a _ => some a
  | .f _ _ => none
  | .d => none

/-- A data bit with its clock pulse. -/
def isBit : BitEvent → Bool
  | .cs _ => false
  | .bit _ => true

/-! ## What an instruction leaves alone -/

/-- The static parameters, the outside's inputs and the oracle are as before. -/
def SameOutside (s t : State) : Prop := t.inst = s.inst ∧ t.inputs = s.inputs ∧ t.oracle = s.oracle

/-- The wire and everything behind it is as before: lines, `SR`, traces, draws. -/
def SameWire (s t : State) : Prop :=
  t.cs = s.cs ∧ t.sck = s.sck ∧ t.sdo = s.sdo ∧ t.sr = s.sr ∧ t.trace = s.trace ∧ t.wire = s.wire ∧
    t.drawn = s.drawn ∧ t.free = s.free

/-- The engine's own state is as before: `RDY` and both buffers. -/
def SameEngine (s t : State) : Prop := t.rdy = s.rdy ∧ t.pix = s.pix ∧ t.brt = s.brt

/-- The operation is over with this response: `POS` idle, `BUSY` 0, one response more (R125, R60). -/
def Answered (s t : State) (status : Status) (rdata : Bool) : Prop :=
  t.pos = .idle ∧ t.busy = false ∧ t.frames = [] ∧
    t.responses = s.responses ++ [{ status := status, rdata := rdata }]

/-- The operation did nothing but answer (R115, R125). -/
def OnlyAnswered (s t : State) (status : Status) (rdata : Bool) : Prop :=
  Answered s t status rdata ∧ SameOutside s t ∧ SameWire s t ∧ SameEngine s t

end Sys2Proof.Machine
end

