-- ==== Sys2Proof/Certificates/Slice0/Obligations.lean ====
section
/-! DEFINITION. The statements for the provers. Each formalises rules of spec/ over the model; none is about a
program. Every free value of the model (`Config`'s opaque constants, `SR`, `SDO` after a failed write) is left
free: no statement rests on one. -/

open Sys2Proof Sys2Proof.Machine

/-! ## Encoding (30_encoding.md, 20_memory.md) -/

/-- Words written out from R52 to R58 decode to the instructions they stand for. -/
def Obligations.OpcodeWordsDecode : Prop :=
  decodeHost 0x10000000 = .init ∧ decodeHost 0x2000000F = .setint 15 ∧
    decodeHost 0x300907FF = .setbrt 9 7 (-1) ∧ decodeHost 0x40000080 = .render (-128) ∧
    decodeHost 0x500302FF = .pixwr 3 2 true ∧ decodeHost 0x60170700 = .pixrd 23 7 ∧
    decodeHost 0x70000001 = .fill true ∧ decodeHost 0x90000000 = .reserved9 ∧
    decodeFrame 0x0308 = .ok (.wDigit2 0x08) ∧ decodeFrame 0x0A05 = .ok (.wIntensity 5) ∧
    decodeFrame 0x0B07 = .ok .wScanlimit ∧ decodeFrame 0x0C01 = .ok .wShutdown1 ∧
    decodeFrame 0x0D00 = .error .reservedFrame

/-- Every well-formed instruction of both formats is read back from its word, every operand at every value. -/
def Obligations.DecodeEncodeRoundTrip : Prop :=
  ∀ i : Instr, i.wf = true → decode (encode i) = .ok i

/-- A frame is decoded exactly when it is one the engine may emit (R55), and then it is that instruction's
only word. -/
def Obligations.FrameDecodeExact : Prop :=
  ∀ w : Frame,
    (∀ i, decodeFrame w = .ok i → encode i = .wf w ∧ framePair i = some (frameAddr w, frameData w)) ∧
      ((∃ i, decodeFrame w = .ok i) ↔ neverEmitted (frameAddr w) (frameData w) = false)

/-- The operation codes and the fields each reads (R57), by arithmetic on the word's number. -/
def Obligations.HostWordFields : Prop :=
  ∀ w : HostWord,
    let op := w.toNat / 2 ^ 28
    let x := w.toNat / 2 ^ 16 % 2 ^ 12
    let y := w.toNat / 2 ^ 8 % 2 ^ 8
    let v : Int := if w.toNat % 2 ^ 8 < 2 ^ 7 then (w.toNat % 2 ^ 8 : Nat) else (w.toNat % 2 ^ 8 : Nat) - 2 ^ 8
    let b := decide (w.toNat % 2 = 1)
    (op = 0x1 → decodeHost w = .init) ∧ (op = 0x2 → decodeHost w = .setint v) ∧
      (op = 0x3 → decodeHost w = .setbrt x y v) ∧ (op = 0x4 → decodeHost w = .render v) ∧
      (op = 0x5 → decodeHost w = .pixwr x y b) ∧ (op = 0x6 → decodeHost w = .pixrd x y) ∧
      (op = 0x7 → decodeHost w = .fill b)

/-- Reserved codes answer `IllegalCommand` with no effect, and unused fields are ignored (R59). -/
def Obligations.ReservedAndIgnoredFields : Prop :=
  (∀ w : HostWord, w.toNat / 2 ^ 28 = 0x0 ∨ 0x8 ≤ w.toNat / 2 ^ 28 →
    ∀ s, ∃ t, exec (decodeHost w) s = .next t ∧ OnlyAnswered s t .illegalCommand false) ∧
  (∀ w w' : HostWord, w.toNat / 2 ^ 28 = w'.toNat / 2 ^ 28 →
    (w.toNat / 2 ^ 28 = 0x1 → decodeHost w = decodeHost w') ∧
    (w.toNat / 2 ^ 28 = 0x2 ∨ w.toNat / 2 ^ 28 = 0x4 →
      w.toNat % 2 ^ 8 = w'.toNat % 2 ^ 8 → decodeHost w = decodeHost w') ∧
    (w.toNat / 2 ^ 28 = 0x7 → w.toNat % 2 = w'.toNat % 2 → decodeHost w = decodeHost w') ∧
    (w.toNat / 2 ^ 28 = 0x6 → w.toNat / 2 ^ 8 = w'.toNat / 2 ^ 8 → decodeHost w = decodeHost w') ∧
    (w.toNat / 2 ^ 28 = 0x5 → w.toNat / 2 ^ 8 = w'.toNat / 2 ^ 8 → w.toNat % 2 = w'.toNat % 2 →
      decodeHost w = decodeHost w'))

/-- The response word (R60): its fields, one response for each command, and `rdata` only for a `PIXRD` that
ends `OK`. -/
def Obligations.ResponseWord : Prop :=
  (∀ r : Response, (encodeResponse r).toNat = r.rdata.toNat * 2 ^ 4 +
    (match r.status with
      | .ok => 0 | .configurationError => 1 | .transmissionError => 2
      | .preconditionError => 3 | .addressError => 4 | .illegalCommand => 5)) ∧
  (∀ r : Response, decodeResponse (encodeResponse r) = some r) ∧
  (∀ (i : Instr) (s : State), i.isHost = true → ∃ t st r, exec i s = .next t ∧
    t.responses = s.responses ++ [⟨st, r⟩] ∧
    (∀ x y, i = .pixrd x y → st = .ok → r = readPix s x y) ∧
    ((∀ x y, i ≠ .pixrd x y) ∨ st ≠ .ok → r = false))

/-- The address byte of a pair goes on the wire before the data byte (R32), each from bit 7 down to bit 0 (R33,
which the spec marks as its own decision, D7). -/
def Obligations.PairByteOrder : Prop :=
  ∀ a d : Byte, (pairFrame a d).toNat = a.toNat * 2 ^ 8 + d.toNat ∧
    frameBits (pairFrame a d) =
      (List.range 8).map (fun i => a.getLsbD (7 - i)) ++ (List.range 8).map (fun i => d.getLsbD (7 - i))

/-- A wire decoder that cuts the bits of a bracket into groups of 16 gets back the frames sent (R50). -/
def Obligations.CutFramesRecoversFrames : Prop :=
  ∀ ws : List Frame, cutFrames ws.length (ws.flatMap frameBits) = ws

/-! ## Steps -/

/-- An idle engine runs the command the host presents (R2): the step is the decoded instruction's. -/
def Obligations.StepRunsHostCommand : Prop :=
  ∀ (s : State) (w : HostWord) (rest : List Input), s.busy = false → s.inputs = .command w :: rest →
    step s = exec (decodeHost w) { s with inputs := rest }

/-- Inside a bracket, the step at a pair not yet begun is the instruction its frame decodes to, unless a reset
or a single clock pulse comes first; a `wait` at the head of the queue is consumed (log entry 2). -/
def Obligations.StepRunsWireFrame : Prop :=
  ∀ (s : State) (w : Frame) (rest : List Frame) (i : Instr) (op : Op) (n : Fin 5) (y : Fin 8) (m : Nat),
    s.busy = true → s.cs = .asserted → s.frames = w :: rest → s.pos = .active op n y m 15 →
    s.inputs.head? ≠ some .reset → s.inputs.head? ≠ some .pulse → decodeFrame w = .ok i →
    (s.inputs.head? ≠ some .wait → step s = exec i s) ∧
      (s.inputs.head? = some .wait → step s = exec i { s with inputs := s.inputs.tail })

/-- An idle engine that gets no input stays as it is (R129, R140). -/
def Obligations.IdleEngineWaits : Prop :=
  ∀ s : State, s.busy = false → s.inputs = [] → step s = .next s

/-- While `BUSY = 1` a presented command is not accepted: it stays at the head of the queue. -/
def Obligations.BusyAcceptsNoCommand : Prop :=
  ∀ (s : State) (w : HostWord) (rest : List Input), s.busy = true →
    (s.inputs = .command w :: rest ∨ s.inputs = .start w :: rest) →
    ∃ t, step s = .next t ∧ t.inputs = s.inputs

/-- Every step of every state answers a next state: nothing faults, nothing is refused. -/
def Obligations.EveryStepAnswersNext : Prop :=
  ∀ s : State, ∃ t, step s = .next t

/-! ## INIT and SETINT (41_sequencer.md) -/

/-- `INIT` in Uninitialized with every draw `ok` sends the five broadcast writes in order and sets `RDY`; it
changes nothing else of the engine. -/
def Obligations.InitSucceeds : Prop :=
  ∀ s : State, s.rdy = false → DrawsOk s (5 * s.inst.modules) →
    ∃ t, exec .init s = .next t ∧
      t.trace = s.trace ++ (broadcastTrace s.inst.modules 0x0C 0x00 ++ broadcastTrace s.inst.modules 0x0F 0x00 ++
        broadcastTrace s.inst.modules 0x0B 0x07 ++ broadcastTrace s.inst.modules 0x09 0x00 ++
        broadcastTrace s.inst.modules 0x0C 0x01) ∧
      t.rdy = true ∧ t.pix = s.pix ∧ t.brt = s.brt ∧ t.cs = .deasserted ∧
      t.drawn = s.drawn + 5 * s.inst.modules ∧ Answered s t .ok false ∧ SameOutside s t

/-- `SETINT` in Ready with a level in 0..15 and every draw `ok` sends one Intensity bracket; nothing else of
the engine changes. -/
def Obligations.SetintSucceeds : Prop :=
  ∀ (s : State) (level : Int), 0 ≤ level → level ≤ 15 → s.rdy = true → DrawsOk s s.inst.modules →
    ∃ t, exec (.setint level) s = .next t ∧
      t.trace = s.trace ++ broadcastTrace s.inst.modules 0x0A (BitVec.ofInt 8 level) ∧
      t.cs = .deasserted ∧ t.drawn = s.drawn + s.inst.modules ∧ Answered s t .ok false ∧ SameEngine s t ∧
      SameOutside s t

/-- `ConfigurationError` (R116): for a level outside 0..15, in both lifecycle states, with no effect; and no
other operation ever answers it. -/
def Obligations.ConfigurationErrorOnlyFromSetint : Prop :=
  (∀ (s : State) (level : Int), level < 0 ∨ 15 < level →
    ∃ t, exec (.setint level) s = .next t ∧ OnlyAnswered s t .configurationError false) ∧
  (∀ (i : Instr) (s t : State) (r : Bool), i.isHost = true → exec i s = .next t →
    t.responses = s.responses ++ [⟨.configurationError, r⟩] →
    ∃ level, i = .setint level ∧ (level < 0 ∨ 15 < level))

/-- The range test of levels is on the whole integer: `SETBRT` stores `clamp15`; `SETINT` sends the level, in
pairs of address 0x0A after an `A`, or answers `ConfigurationError` with no effect (R99). -/
def Obligations.LevelArithmetic : Prop :=
  ∀ level : Int,
    ((clamp15 level).toNat : Int) = (if 0 ≤ level ∧ level ≤ 15 then level else 15) ∧
    (∀ (s : State) (x y : Nat), x < 8 * s.inst.modules → y < 8 → s.rdy = true →
      Memory.wf brtReset s.brt = true →
      ∃ t, exec (.setbrt x y level) s = .next t ∧
        ((readBrt t x y).toNat : Int) = if 0 ≤ level ∧ level ≤ 15 then level else 15) ∧
    (∀ s : State, s.rdy = true →
      (¬(0 ≤ level ∧ level ≤ 15) →
        ∃ t, exec (.setint level) s = .next t ∧ OnlyAnswered s t .configurationError false) ∧
      (0 ≤ level → level ≤ 15 → 1 ≤ s.inst.modules →
        ∃ t st d first rest, exec (.setint level) s = .next t ∧ (BitVec.toNat d : Int) = level ∧
          t.trace = s.trace ++ .a :: first :: rest ∧ (first = .p 0x0A d ∨ first = .f 0x0A d) ∧
          (∀ e ∈ rest, e = .p 0x0A d ∨ e = .f 0x0A d ∨ e = .d) ∧
          t.responses = s.responses ++ [⟨st, false⟩] ∧ (st = .ok ∨ st = .transmissionError)))

/-- `TransmissionError` (R117): a pair write that fails ends `INIT`, `SETINT` and `RENDER` at once: the trace
holds the whole brackets before it and the failed one, chip-select is released, and the engine's own state is
as before; and no other operation ever answers it. -/
def Obligations.WireOperationFails : Prop :=
  (∀ (s : State) (i : Instr) (bs : List Bracket) (k : Nat),
    ((i = .init ∧ s.rdy = false ∧ bs = initBrackets s.inst.modules) ∨
      (∃ level, i = .setint level ∧ 0 ≤ level ∧ level ≤ 15 ∧ s.rdy = true ∧
        bs = [setintBracket s.inst.modules level]) ∨
      (∃ p, i = .render p ∧ s.rdy = true ∧ bs = rowBrackets s p)) →
    k < bs.length * s.inst.modules → FirstFailure s k →
    ∃ t, exec i s = .next t ∧ t.trace = s.trace ++ cutTrace s.inst.modules bs k ∧ t.cs = .deasserted ∧
      t.drawn = s.drawn + (k + 1) ∧ Answered s t .transmissionError false ∧ SameEngine s t ∧ SameOutside s t) ∧
  (∀ (i : Instr) (s t : State) (r : Bool), i.isHost = true → exec i s = .next t →
    t.responses = s.responses ++ [⟨.transmissionError, r⟩] →
    i = .init ∨ (∃ level, i = .setint level) ∨ ∃ p, i = .render p)

/-- What a successful `INIT`, `SETINT` and `RENDER` put on the wire (R87, R112): so many brackets of `N` pairs
each, so many pairs and bits, no failed pair, and the pairs' addresses in order. -/
def Obligations.WireCounts : Prop :=
  ∀ (i : Instr) (s t : State), exec i s = .next t → t.responses = s.responses ++ [⟨.ok, false⟩] →
    let sent (brackets pairs bits : Nat) (addrs : List Byte) : Prop :=
      ∃ new out, t.trace = s.trace ++ new ∧ t.wire = s.wire ++ out ∧ NoFailure new ∧
        WholeBrackets s.inst.modules new ∧ new.count .a = brackets ∧ new.count .d = brackets ∧
        new.filterMap pairAddr = addrs ∧ addrs.length = pairs ∧ (out.filter isBit).length = bits
    let n := s.inst.modules
    (i = .init → sent 5 (5 * n) (80 * n)
      (List.replicate n 0x0C ++ List.replicate n 0x0F ++ List.replicate n 0x0B ++ List.replicate n 0x09 ++
        List.replicate n 0x0C)) ∧
    (∀ level, i = .setint level → sent 1 n (16 * n) (List.replicate n 0x0A)) ∧
    (∀ p, i = .render p → sent 8 (8 * n) (128 * n)
      ((List.range 8).flatMap fun y => List.replicate n (BitVec.ofNat 8 (1 + y))))

/-! ## Buffers (42_buffers.md) -/

/-- `PIXWR` writes its cell and no other, puts nothing on the wire and answers `OK`. -/
def Obligations.PixwrWritesOneCell : Prop :=
  ∀ (s : State) (x y : Nat) (v : Bool), x < 8 * s.inst.modules → y < 8 → s.rdy = true →
    Memory.wf pixReset s.pix = true →
    ∃ t, exec (.pixwr x y v) s = .next t ∧ readPix t x y = v ∧
      (∀ x' y', y' < 8 → (x', y') ≠ (x, y) → readPix t x' y' = readPix s x' y') ∧
      t.brt = s.brt ∧ t.rdy = s.rdy ∧ SameWire s t ∧ SameOutside s t ∧ Answered s t .ok false

/-- `PIXRD` answers the pixel and changes nothing. -/
def Obligations.PixrdAnswersPixel : Prop :=
  ∀ (s : State) (x y : Nat), x < 8 * s.inst.modules → y < 8 → s.rdy = true →
    ∃ t, exec (.pixrd x y) s = .next t ∧ OnlyAnswered s t .ok (readPix s x y)

/-- `FILL` writes every cell of `PIX` and nothing else. -/
def Obligations.FillWritesEveryCell : Prop :=
  ∀ (s : State) (v : Bool), s.rdy = true →
    ∃ t, exec (.fill v) s = .next t ∧ (∀ x y, x < 8 * s.inst.modules → y < 8 → readPix t x y = v) ∧
      t.brt = s.brt ∧ t.rdy = s.rdy ∧ SameWire s t ∧ SameOutside s t ∧ Answered s t .ok false

/-- `SETBRT` stores the level, 15 for one out of range on either side, in its cell and no other. -/
def Obligations.SetbrtStoresClampedLevel : Prop :=
  ∀ (s : State) (x y : Nat) (level : Int), x < 8 * s.inst.modules → y < 8 → s.rdy = true →
    Memory.wf brtReset s.brt = true →
    ∃ t, exec (.setbrt x y level) s = .next t ∧
      ((readBrt t x y).toNat : Int) = (if 0 ≤ level ∧ level ≤ 15 then level else 15) ∧
      (∀ x' y', y' < 8 → (x', y') ≠ (x, y) → readBrt t x' y' = readBrt s x' y') ∧
      t.pix = s.pix ∧ t.rdy = s.rdy ∧ SameWire s t ∧ SameOutside s t ∧ Answered s t .ok false

/-- The buffer operations and the reserved codes never touch the wire, whatever they answer. -/
def Obligations.BufferOperationsOffWire : Prop :=
  ∀ (i : Instr) (s t : State), i.isHost = true → i ≠ .init → (∀ level, i ≠ .setint level) →
    (∀ p, i ≠ .render p) → exec i s = .next t → SameWire s t ∧ t.rdy = s.rdy

/-! ## Errors and lifecycle (60_exceptions.md) -/

/-- `AddressError` (R121): for a coordinate out of range, in both lifecycle states, with no effect; from the
three cell operations only. -/
def Obligations.AddressErrorOnOutOfRange : Prop :=
  (∀ (s : State) (x y : Nat), 8 * s.inst.modules ≤ x ∨ 8 ≤ y →
    (∀ v, ∃ t, exec (.pixwr x y v) s = .next t ∧ OnlyAnswered s t .addressError false) ∧
    (∃ t, exec (.pixrd x y) s = .next t ∧ OnlyAnswered s t .addressError false) ∧
    (∀ level, ∃ t, exec (.setbrt x y level) s = .next t ∧ OnlyAnswered s t .addressError false)) ∧
  (∀ (i : Instr) (s t : State) (r : Bool), i.isHost = true → exec i s = .next t →
    t.responses = s.responses ++ [⟨.addressError, r⟩] →
    ∃ x y, (8 * s.inst.modules ≤ x ∨ 8 ≤ y) ∧
      ((∃ v, i = .pixwr x y v) ∨ i = .pixrd x y ∨ ∃ level, i = .setbrt x y level))

/-- The lifecycle check (R118): which operation is allowed when, and `PreconditionError` with no effect
otherwise. -/
def Obligations.LifecycleCheck : Prop :=
  ∀ s : State,
    (s.rdy = true → ∃ t, exec .init s = .next t ∧ OnlyAnswered s t .preconditionError false) ∧
    (s.rdy = false →
      (∀ level, 0 ≤ level → level ≤ 15 →
        ∃ t, exec (.setint level) s = .next t ∧ OnlyAnswered s t .preconditionError false) ∧
      (∀ x y, x < 8 * s.inst.modules → y < 8 →
        (∀ level, ∃ t, exec (.setbrt x y level) s = .next t ∧ OnlyAnswered s t .preconditionError false) ∧
        (∀ v, ∃ t, exec (.pixwr x y v) s = .next t ∧ OnlyAnswered s t .preconditionError false) ∧
        (∃ t, exec (.pixrd x y) s = .next t ∧ OnlyAnswered s t .preconditionError false)) ∧
      (∀ v, ∃ t, exec (.fill v) s = .next t ∧ OnlyAnswered s t .preconditionError false) ∧
      (∀ p, ∃ t, exec (.render p) s = .next t ∧ OnlyAnswered s t .preconditionError false)) ∧
    (∀ i t r, i.isHost = true → exec i s = .next t → t.responses = s.responses ++ [⟨.preconditionError, r⟩] →
      (i = .init ∧ s.rdy = true) ∨ (i ≠ .init ∧ s.rdy = false))

/-- `IllegalCommand` (R122): each reserved code answers it, in every state, with no effect. -/
def Obligations.ReservedCodesAnswerIllegalCommand : Prop :=
  ∀ (i : Instr) (s : State),
    i ∈ [Instr.reserved0, .reserved8, .reserved9, .reservedA, .reservedB, .reservedC, .reservedD, .reservedE,
      .reservedF] →
    ∃ t, exec i s = .next t ∧ OnlyAnswered s t .illegalCommand false

/-- What an error does (R125): one found by a check leaves the engine and the wire exactly as if the operation
had not been issued; a `TransmissionError` leaves the engine's own state so, and the wire events before it
stay. -/
def Obligations.ErrorsArePrecise : Prop :=
  ∀ (i : Instr) (s t : State) (e : Status) (r : Bool), i.isHost = true → exec i s = .next t →
    t.responses = s.responses ++ [⟨e, r⟩] →
    (e = .configurationError ∨ e = .addressError ∨ e = .preconditionError ∨ e = .illegalCommand →
      OnlyAnswered s t e false) ∧
    (e = .transmissionError → SameEngine s t ∧ SameOutside s t ∧ Answered s t e false ∧ t.cs = .deasserted ∧
      ∃ new, t.trace = s.trace ++ new)

/-- Until `INIT` answers `OK`, every other host command answers an error and does nothing. -/
def Obligations.NothingWorksBeforeInit : Prop :=
  ∀ (i : Instr) (s : State), i.isHost = true → i ≠ .init → s.rdy = false →
    ∃ t e, exec i s = .next t ∧ e ≠ .ok ∧ OnlyAnswered s t e false

/-- `RDY` becomes 1 only at the successful end of `INIT`, whole or in small steps (log entry 2) with the `D` of
its fifth bracket, all its pairs sent; and 0 only by reset. -/
def Obligations.ReadyChangesOnlyByInitOrReset : Prop :=
  ∀ s t : State, step s = .next t → t.rdy ≠ s.rdy →
    (t.rdy = true ∧ t.responses = s.responses ++ [⟨.ok, false⟩] ∧
      ((s.busy = false ∧ ∃ w rest, s.inputs = .command w :: rest ∧ decodeHost w = .init) ∨
        (s.busy = true ∧ s.cs = .asserted ∧ s.frames = [] ∧ t.trace = s.trace ++ [.d] ∧
          ∃ y m k, s.pos = .active .init 4 y m k))) ∨
    (t.rdy = false ∧ ∃ rest, s.inputs = .reset :: rest)

/-! ## Wire frames (40_transport.md) -/

/-- Each wire frame, run in an open bracket with the next draw `ok`, puts its pair on the wire, most
significant bit first, and moves `POS` to the next pair, if one is pending; nothing else changes. That a frame
is an instruction, and goes on in the bracket's loop, is the model's choice (log entry 8; `POS` after the last
pair: log entry 9). -/
def Obligations.WireFrameSendsPair : Prop :=
  ∀ (i : Instr) (a d : Byte) (s : State), framePair i = some (a, d) → s.cs = .asserted →
    answer s s.drawn = .ok →
    ∃ t, exec i s = .next t ∧ t.trace = s.trace ++ [.p a d] ∧
      t.wire = s.wire ++ (List.range 16).map (fun n => .bit ((a ++ d : BitVec 16).getLsbD (15 - n))) ∧
      t.cs = .asserted ∧ t.sck = false ∧ t.sdo = d.getLsbD 0 ∧ t.drawn = s.drawn + 1 ∧
      t.frames = s.frames.tail ∧ t.pos = nextPair s.frames.tail s.pos ∧ t.busy = s.busy ∧ t.responses = s.responses ∧
      SameEngine s t ∧ SameOutside s t

/-- A wire frame whose draw is `fail` ends its bracket and its operation: `F`, `D`, `TransmissionError` (R70,
R72, R117). That one instruction does all of this, where `T.PAIR` only returns `fail`, is the model's choice (log
entry 8). -/
def Obligations.WireFrameFails : Prop :=
  ∀ (i : Instr) (a d : Byte) (s : State), framePair i = some (a, d) → s.cs = .asserted →
    answer s s.drawn = .fail →
    ∃ t, exec i s = .next t ∧ t.trace = s.trace ++ [.f a d, .d] ∧ t.cs = .deasserted ∧
      t.drawn = s.drawn + 1 ∧ Answered s t .transmissionError false ∧ SameEngine s t ∧ SameOutside s t

/-- A wire frame outside a bracket stops: the precondition of `T.PAIR` does not hold. The stop is the model's
choice (log entry 8). -/
def Obligations.WireFrameNeedsBracket : Prop :=
  ∀ (i : Instr) (a d : Byte) (s : State), framePair i = some (a, d) → s.cs = .deasserted →
    exec i s = .fault .pairOutsideBracket

/-- Sixteen single clock pulses do what the whole pair does in one step, `ok` or `fail`; and so do fewer, with
one step for the rest of the pair. The pulse is the model's input (log entry 2). -/
def Obligations.SixteenPulsesMakePair : Prop :=
  ∀ (s : State) (w : Frame) (rest : List Frame) (op : Op) (n : Fin 5) (y : Fin 8) (m : Nat),
    s.busy = true → s.cs = .asserted → s.frames = w :: rest → s.pos = .active op n y m 15 →
    Machine.run 16 { s with inputs := List.replicate 16 .pulse } = step { s with inputs := [] } ∧
      ∀ j ≤ 15, Machine.run (j + 1) { s with inputs := List.replicate j .pulse } = step { s with inputs := [] }

/-- For every idle engine, command and oracle: the operation run in small steps ends in the very state the
whole operation gives. The two ways to present a command are the model's (log entry 2). -/
def Obligations.SmallStepsRefineOperation : Prop :=
  ∀ (s : State) (w : HostWord), s.busy = false → Quiet s →
    ∃ k t, Machine.run k { s with inputs := [.start w] } = .next t ∧
      step { s with inputs := [.command w] } = .next t

/-- The bits an operation puts on the wire are the images of its events, when no pair write fails (R6). -/
def Obligations.BitTraceRefinesTrace : Prop :=
  ∀ (i : Instr) (s t : State), i.isHost = true → exec i s = .next t →
    ∃ new, t.trace = s.trace ++ new ∧ (NoFailure new → t.wire = s.wire ++ new.flatMap eventBits)

/-! ## RENDER (43_render.md) -/

/-- `RENDER` in Ready with every draw `ok` sends eight row brackets of `N` pairs, row 0 at address 1 first,
module 0 first, and changes nothing of the engine. -/
def Obligations.RenderSucceeds : Prop :=
  ∀ (s : State) (p : Int), s.rdy = true → DrawsOk s (8 * s.inst.modules) →
    ∃ t, exec (.render p) s = .next t ∧
      t.trace = s.trace ++ ((List.range 8).flatMap fun y =>
        Event.a :: (List.range s.inst.modules).map (fun m => Event.p (BitVec.ofNat 8 (1 + y)) (rowByte s y m p)) ++
          [Event.d]) ∧
      t.cs = .deasserted ∧ t.drawn = s.drawn + 8 * s.inst.modules ∧ Answered s t .ok false ∧ SameEngine s t ∧
      SameOutside s t

/-- The lit function (R106): which cell it reads in each mode, and that it reads nothing else. -/
def Obligations.LitReadsOneCell : Prop :=
  ∀ (s s' : State) (x y : Nat) (p p' : Int), s'.inst = s.inst →
    (s.inst.brightMode = false → lit s x y p = readPix s x y ∧
      (readPix s' x y = readPix s x y → lit s' x y p' = lit s x y p)) ∧
    (s.inst.brightMode = true → (lit s x y p = true ↔ p < ((readBrt s x y).toNat : Int)) ∧
      (readBrt s' x y = readBrt s x y → lit s' x y p = lit s x y p))

/-- The row byte (R107): bit `b` is column `8m + b`, always in range; on the wire column `8m + 7` is the first
data bit and column `8m` the last (R34). -/
def Obligations.RowByteBits : Prop :=
  ∀ (s : State) (y m b : Nat) (p : Int), y < 8 → m < s.inst.modules → b < 8 →
    8 * m + b < 8 * s.inst.modules ∧ (rowByte s y m p).getLsbD b = lit s (8 * m + b) y p ∧
    (rowByte s y m p).toNat = ((List.range 8).map fun c => if lit s (8 * m + c) y p then 2 ^ c else 0).sum ∧
    (frameBits (pairFrame (digitAddr y) (rowByte s y m p)))[8 + b]? = some (lit s (8 * m + (7 - b)) y p) ∧
    (∀ (t : State) (r : Bool), exec (.render p) s = .next t → t.responses ≠ s.responses ++ [⟨.addressError, r⟩])

/-- Raising the phase only turns pixels off, lower levels first (R109). -/
def Obligations.PhaseOnlyDarkens : Prop :=
  ∀ (s : State) (x y x' y' : Nat) (p p' : Int), p ≤ p' →
    (lit s x y p' = true → lit s x y p = true) ∧
    (s.inst.brightMode = true → readBrt s x y ≤ readBrt s x' y' → lit s x y p = true → lit s x' y' p = true) ∧
    (s.inst.brightMode = true → readBrt s x y = 10 →
      (0 ≤ p → p ≤ 9 → lit s x y p = true) ∧ (10 ≤ p → p ≤ 14 → lit s x y p = false))

/-- A pixel of level `L` is lit in `min(L, P)` of the phases `0..P-1`. -/
def Obligations.SoftPwmCount : Prop :=
  ∀ (s : State) (x y phases : Nat), s.inst.brightMode = true →
    ((List.range phases).filter fun p : Nat => lit s x y (p : Int)).length = min (readBrt s x y).toNat phases

/-- Phases outside the usual range (R110): a negative one lights every pixel, one of 15 or more none, and
neither is an error. -/
def Obligations.PhaseOutOfRange : Prop :=
  ∀ (s : State) (p : Int) (d : Byte), s.inst.brightMode = true → s.rdy = true →
    DrawsOk s (8 * s.inst.modules) → (p < 0 ∧ d = 0xFF) ∨ (15 ≤ p ∧ d = 0x00) →
    (∀ x y, lit s x y p = decide (p < 0)) ∧
    ∃ t, exec (.render p) s = .next t ∧
      t.trace = s.trace ++ ((List.range 8).flatMap fun y => broadcastTrace s.inst.modules (BitVec.ofNat 8 (1 + y)) d) ∧
      Answered s t .ok false

/-- The frame of buffers at their reset values (R111): all lit in brightness mode for phases 0..14 whatever
`PIX` holds, all dark in binary mode for every phase. -/
def Obligations.ResetBuffersFrame : Prop :=
  ∀ (s : State) (p : Int) (d : Byte), s.rdy = true → DrawsOk s (8 * s.inst.modules) →
    ((s.inst.brightMode = true ∧ (∀ x y, x < 8 * s.inst.modules → y < 8 → readBrt s x y = 15) ∧
        0 ≤ p ∧ p ≤ 14 ∧ d = 0xFF) ∨
      (s.inst.brightMode = false ∧ (∀ x y, x < 8 * s.inst.modules → y < 8 → readPix s x y = false) ∧ d = 0x00)) →
    ∃ t, exec (.render p) s = .next t ∧
      t.trace = s.trace ++ ((List.range 8).flatMap fun y => broadcastTrace s.inst.modules (BitVec.ofNat 8 (1 + y)) d) ∧
      Answered s t .ok false

/-- Determinism and idempotence of `RENDER` (R113): its events and its answer depend on `N`, `BRIGHT_MODE`, the
buffer its mode reads, the phase and the draws only; and two `RENDER`s with the same phase and every draw `ok`
put the same events on the wire, with the engine's state as found. -/
def Obligations.RenderDeterministicIdempotent : Prop :=
  (∀ (s s' : State) (p : Int), s'.inst = s.inst → s.rdy = true → s'.rdy = true →
    (s.inst.brightMode = true → s'.brt = s.brt) → (s.inst.brightMode = false → s'.pix = s.pix) →
    (∀ i, answer s' (s'.drawn + i) = answer s (s.drawn + i)) →
    ∃ t t' new st, exec (.render p) s = .next t ∧ exec (.render p) s' = .next t' ∧
      t.trace = s.trace ++ new ∧ t'.trace = s'.trace ++ new ∧
      t.responses = s.responses ++ [⟨st, false⟩] ∧ t'.responses = s'.responses ++ [⟨st, false⟩]) ∧
  (∀ (s : State) (p : Int), s.rdy = true → DrawsOk s (2 * (8 * s.inst.modules)) →
    ∃ t u new, exec (.render p) s = .next t ∧ exec (.render p) t = .next u ∧
      t.trace = s.trace ++ new ∧ u.trace = t.trace ++ new ∧ SameEngine s t ∧ SameEngine s u)

/-- `RENDER` is independent of the buffer its mode does not read: whatever that buffer holds, the run is the
same and the buffer stays as it is. -/
def Obligations.RenderIgnoresOtherBuffer : Prop :=
  ∀ (s t : State) (p : Int), exec (.render p) s = .next t →
    (∀ pix, s.inst.brightMode = true → exec (.render p) { s with pix := pix } = .next { t with pix := pix }) ∧
    (∀ brt, s.inst.brightMode = false → exec (.render p) { s with brt := brt } = .next { t with brt := brt })

/-- `SETINT` has no effect on what `RENDER` sends (R18). -/
def Obligations.SetintLeavesRenderAlone : Prop :=
  ∀ (s : State) (level p : Int), s.rdy = true → DrawsOk s (9 * s.inst.modules) →
    ∃ t u v new, exec (.setint level) s = .next t ∧ SameEngine s t ∧ t.inst = s.inst ∧
      exec (.render p) t = .next u ∧ exec (.render p) s = .next v ∧
      u.trace = t.trace ++ new ∧ v.trace = s.trace ++ new

/-! ## Reset (10_state.md, 70_reset_and_hazards.md) -/

/-- The state right after the first reset: the values R24 gives, and an `N` that is legal for an engine driven by
command words (R3, R4). -/
def Obligations.ResetState : Prop :=
  State.reset.rdy = false ∧ BuffersReset State.reset ∧ State.reset.busy = false ∧ State.reset.pos = .idle ∧
    State.reset.sck = false ∧ State.reset.sdo = false ∧ State.reset.cs = .deasserted ∧
    State.reset.trace = [] ∧ 1 ≤ State.reset.inst.modules ∧ State.reset.inst.modules ≤ 512

/-- A reset at any moment: every piece of state it writes, the `D` of a bracket it cuts (R24), no response
(R141), and what it leaves alone. That the list of responses outlives it is log entry 12, that it is an input
which the step consumes log entry 2. -/
def Obligations.ResetStep : Prop :=
  ∀ (s : State) (rest : List Input), s.inputs = .reset :: rest →
    ∃ t, step s = .next t ∧ t.rdy = false ∧ BuffersReset t ∧ t.busy = false ∧ t.pos = .idle ∧
      t.sck = false ∧ t.sdo = false ∧ t.cs = .deasserted ∧
      t.trace = s.trace ++ (if s.cs = .asserted then [Event.d] else []) ∧
      t.inst = s.inst ∧ t.responses = s.responses ∧ t.oracle = s.oracle ∧ t.drawn = s.drawn ∧ t.inputs = rest

/-! ## Invariants and rules of the whole machine -/

/-- `N` and `BRIGHT_MODE` never change. -/
def Obligations.StaticParametersNeverChange : Prop :=
  ∀ s t : State, step s = .next t → t.inst = s.inst

/-- What went out on the wire and what was answered is never undone: the histories only grow, the responses by
one at most (R38, R60). The spec says of `TRACE` only that a reset does not clear it; of the bit-level trace and
the responses it is the model's choice (log entry 12). -/
def Obligations.HistoriesOnlyGrow : Prop :=
  ∀ s t : State, step s = .next t →
    (∃ new, t.trace = s.trace ++ new) ∧ (∃ new, t.wire = s.wire ++ new) ∧
      (t.responses = s.responses ∨ ∃ r, t.responses = s.responses ++ [r])

/-- Every step keeps both buffers in canonical form and inside their 8 x 8N cells. -/
def Obligations.StepKeepsBuffersOk : Prop :=
  ∀ s t : State, BuffersOk s → step s = .next t → BuffersOk t

/-- Every step keeps the idle invariant (R22): whenever `BUSY = 0`, `CS` is deasserted, `SCK` is 0 and `POS`
idle. -/
def Obligations.StepKeepsIdleInvariant : Prop :=
  ∀ s t : State, IdleInvariant s → step s = .next t → IdleInvariant t

/-- Every step keeps the trace well formed and in agreement with `CS`, `POS` and the pending pairs (R74, R16). A
step that takes a reset appends the `D` of the bracket it cuts; every other step goes on from where the trace
stands with well-formed events only, no bracket cut short without an `F`. Where `POS` stands between the last
pair and the `D` is log entry 9. -/
def Obligations.StepKeepsTraceTracks : Prop :=
  ∀ s t : State, IdleInvariant s → TraceTracks s → step s = .next t →
    TraceTracks t ∧ ∃ new, t.trace = s.trace ++ new ∧
      (s.inputs.head? ≠ some .reset →
        scanEvents false s.inst.modules (scanPoint s) new = some (scanPoint t)) ∧
      (s.inputs.head? = some .reset → new = if s.cs = .asserted then [Event.d] else [])

/-- Every step keeps the set of emitted frames closed (R55). -/
def Obligations.StepKeepsFramesAllowed : Prop :=
  ∀ s t : State, FramesAllowed s → step s = .next t → FramesAllowed t

/-- The five invariants hold right after reset. -/
def Obligations.ResetMeetsInvariants : Prop :=
  BuffersOk State.reset ∧ IdleInvariant State.reset ∧ TraceTracks State.reset ∧ FramesAllowed State.reset ∧
    PairInProgress State.reset

/-- A host operation from an engine with chip-select released puts whole brackets on the wire, each of `N`
pairs or of fewer and one failure, and leaves chip-select released. -/
def Obligations.OperationsSendWholeBrackets : Prop :=
  ∀ (i : Instr) (s : State), i.isHost = true → s.cs = .deasserted →
    ∃ t new, exec i s = .next t ∧ t.trace = s.trace ++ new ∧ WholeBrackets s.inst.modules new ∧
      t.cs = .deasserted

/-! ## What the trace says of the chips -/

/-- After a successful `RENDER` the trace gives, for every module and row, the digit register the row byte, and
says nothing new of the other registers. The reading of the trace is the model's (log entry 13). -/
def Obligations.ChipRegistersAfterRender : Prop :=
  ∀ (s t : State) (p : Int), s.rdy = true → DrawsOk s (8 * s.inst.modules) → exec (.render p) s = .next t →
    ∀ m < s.inst.modules,
      (∀ y < 8, chipRegister s.inst.modules m (BitVec.ofNat 8 (1 + y)) t.trace = some (rowByte s y m p)) ∧
      (∀ a : Byte, a = 0 ∨ 8 < a.toNat →
        chipRegister s.inst.modules m a t.trace = chipRegister s.inst.modules m a s.trace)

/-- After a successful `INIT` the trace gives the four control registers of every module, and `INIT` leaves the
Intensity register and the digit registers alone. The reading of the trace is the model's (log entry 13). -/
def Obligations.ChipRegistersAfterInit : Prop :=
  ∀ (s t : State), s.rdy = false → DrawsOk s (5 * s.inst.modules) → exec .init s = .next t →
    ∀ m < s.inst.modules,
      chipRegister s.inst.modules m 0x0C t.trace = some 0x01 ∧
      chipRegister s.inst.modules m 0x0F t.trace = some 0x00 ∧
      chipRegister s.inst.modules m 0x0B t.trace = some 0x07 ∧
      chipRegister s.inst.modules m 0x09 t.trace = some 0x00 ∧
      (∀ a : Byte, a.toNat ≤ 8 ∨ a = 0x0A →
        chipRegister s.inst.modules m a t.trace = chipRegister s.inst.modules m a s.trace)

/-- After a failed `RENDER`, `SETINT` or `INIT` the trace gives, for every module (R105, R150, U3): the rows before
the failed one the new row byte, the rows after it and all other registers what they held, the failed row
nothing; after `SETINT` Intensity nothing, after `INIT` the four control registers nothing, and the others what
they held. The reading of the trace is the model's (log entry 13). -/
def Obligations.ChipRegistersAfterFailure : Prop :=
  ∀ (s t : State) (i : Instr) (k : Nat), FirstFailure s k → exec i s = .next t →
    let n := s.inst.modules
    let before (m : Nat) (a : Byte) := chipRegister n m a s.trace
    let after (m : Nat) (a : Byte) := chipRegister n m a t.trace
    (∀ p, i = .render p → s.rdy = true → k < 8 * n → ∀ m < n,
      (∀ y < 8, after m (BitVec.ofNat 8 (1 + y)) =
        if y < k / n then some (rowByte s y m p)
        else if y = k / n then none
        else before m (BitVec.ofNat 8 (1 + y))) ∧
      (∀ a : Byte, a = 0 ∨ 8 < a.toNat → after m a = before m a)) ∧
    (∀ level, i = .setint level → 0 ≤ level → level ≤ 15 → s.rdy = true → k < n → ∀ m < n,
      after m 0x0A = none ∧ ∀ a, a ≠ 0x0A → after m a = before m a) ∧
    (i = .init → s.rdy = false → k < 5 * n → ∀ m < n,
      (∀ a ∈ [(0x0C : Byte), 0x0F, 0x0B, 0x09], after m a = none) ∧
      ∀ a ∉ [(0x0C : Byte), 0x0F, 0x0B, 0x09], after m a = before m a)

/-! ## The serialiser (10_state.md R17, 20_memory.md R33) -/

/-- While a pair is being shifted, `SR` holds its frame, `SDO` the last bit sent, and the bit-level trace ends
with the bits sent so far; every step keeps it. The single clock pulse is the model's input (log entry 2). -/
def Obligations.StepKeepsPairInProgress : Prop :=
  ∀ s t : State, PairInProgress s → step s = .next t → PairInProgress t
end

