-- ==== Sys2Proof/Laws/Cells.lean ====
section
/-! SUPPORT. The buffers' cells: a read after a write, and the canonical form that every operation keeps. -/

namespace Sys2Proof.Machine

variable {α : Type} [DecidableEq α] {dflt v : α} {k n : Nat} {m : Memory α}

theorem Memory.wf_cons {c : Nat × α} {m : Memory α} :
    Memory.wf dflt (c :: m) = true ↔
      c.2 ≠ dflt ∧ (∀ c' ∈ m.head?, c.1 < c'.1) ∧ Memory.wf dflt m = true := by
  obtain ⟨k, v⟩ := c
  cases m with
  | nil => simp [Memory.wf]
  | cons c' rest => obtain ⟨k', v'⟩ := c'; simp [Memory.wf, and_assoc]

/-- In canonical form the first key is below all the others. -/
theorem Memory.wf_head_lt {c : Nat × α} {m : Memory α} (h : Memory.wf dflt (c :: m) = true) :
    ∀ c' ∈ m, c.1 < c'.1 := by
  induction m generalizing c with
  | nil => simp
  | cons d rest ih =>
    obtain ⟨_, hd, hw⟩ := Memory.wf_cons.1 h
    have hcd : c.1 < d.1 := hd d (by simp)
    intro c' hc'
    rcases List.mem_cons.1 hc' with rfl | hc'
    · exact hcd
    · exact hcd.trans (ih hw c' hc')

omit [DecidableEq α] in
theorem Memory.read_of_forall_ne (h : ∀ c ∈ m, c.1 ≠ k) : Memory.read dflt m k = dflt := by
  induction m with
  | nil => rfl
  | cons c rest ih =>
    obtain ⟨k', v'⟩ := c
    have : ¬ k = k' := fun e => h (k', v') (by simp) e.symm
    simp only [Memory.read, this, if_false]
    exact ih fun c hc => h c (by simp [hc])

/-- A cell reads as it was written. -/
theorem Memory.read_write_same (h : Memory.wf dflt m = true) :
    Memory.read dflt (Memory.write dflt m k v) k = v := by
  induction m with
  | nil => unfold Memory.write; split <;> simp_all [Memory.read]
  | cons c rest ih =>
    obtain ⟨k', v'⟩ := c
    have hlt := Memory.wf_head_lt h
    have hrest := (Memory.wf_cons.1 h).2.2
    unfold Memory.write
    split
    · rename_i hk
      split
      · rename_i hv
        rw [Memory.read_of_forall_ne, hv]
        intro c hc
        rcases List.mem_cons.1 hc with rfl | hc
        · exact (Nat.ne_of_lt hk).symm
        · exact (Nat.ne_of_lt (hk.trans (hlt c hc))).symm
      · simp [Memory.read]
    · split
      · rename_i hk
        split
        · rename_i hv
          rw [Memory.read_of_forall_ne, hv]
          intro c hc
          subst hk
          exact (Nat.ne_of_lt (hlt c hc)).symm
        · simp [Memory.read]
      · rename_i hk
        simp only [Memory.read, hk, if_false]
        exact ih hrest

/-- A write leaves every other cell as it was. -/
theorem Memory.read_write_other {k' : Nat} (hne : k' ≠ k) :
    Memory.read dflt (Memory.write dflt m k v) k' = Memory.read dflt m k' := by
  induction m with
  | nil => unfold Memory.write; split <;> simp [Memory.read, hne]
  | cons c rest ih =>
    obtain ⟨k'', v''⟩ := c
    unfold Memory.write
    split
    · split <;> simp [Memory.read, hne]
    · split
      · rename_i hk
        subst hk
        split <;> simp [Memory.read, hne]
      · simp only [Memory.read, ih]

theorem Memory.mem_write {c : Nat × α} (h : c ∈ Memory.write dflt m k v) : c = (k, v) ∨ c ∈ m := by
  induction m with
  | nil => unfold Memory.write at h; split at h <;> simp_all
  | cons d rest ih =>
    obtain ⟨k', v'⟩ := d
    unfold Memory.write at h
    split at h
    · split at h <;> simp_all
    · split at h
      · split at h
        · right; simp [h]
        · rcases List.mem_cons.1 h with h | h <;> simp [h]
      · rcases List.mem_cons.1 h with h | h
        · simp [h]
        · rcases ih h with h | h <;> simp [h]

theorem Memory.wf_cons_of_lt {c : Nat × α} (hv : c.2 ≠ dflt) (hlt : ∀ c' ∈ m, c.1 < c'.1)
    (h : Memory.wf dflt m = true) : Memory.wf dflt (c :: m) = true :=
  Memory.wf_cons.2 ⟨hv, fun c' hc' => hlt c' (List.mem_of_mem_head? hc'), h⟩

/-- A write keeps the canonical form. -/
theorem Memory.wf_write (h : Memory.wf dflt m = true) :
    Memory.wf dflt (Memory.write dflt m k v) = true := by
  induction m with
  | nil => unfold Memory.write; split <;> simp_all [Memory.wf]
  | cons c rest ih =>
    obtain ⟨k', v'⟩ := c
    have hlt := Memory.wf_head_lt h
    obtain ⟨hv', _, hrest⟩ := Memory.wf_cons.1 h
    unfold Memory.write
    split
    · rename_i hk
      split
      · exact h
      · rename_i hv
        refine Memory.wf_cons_of_lt hv (fun c' hc' => ?_) h
        rcases List.mem_cons.1 hc' with rfl | hc'
        · exact hk
        · exact hk.trans (hlt c' hc')
    · split
      · rename_i hk
        subst hk
        split
        · exact hrest
        · rename_i hv
          exact Memory.wf_cons_of_lt hv hlt hrest
      · rename_i hk₁ hk₂
        refine Memory.wf_cons_of_lt hv' (fun c' hc' => ?_) (ih hrest)
        rcases Memory.mem_write hc' with rfl | hc'
        · exact Nat.lt_of_le_of_ne (Nat.le_of_not_lt hk₁) (Ne.symm hk₂)
        · exact hlt c' hc'

/-- A write below `n` keeps every key below `n`. -/
theorem Memory.below_write (hk : k < n) (h : Memory.below n m = true) :
    Memory.below n (Memory.write dflt m k v) = true := by
  rw [Memory.below, List.all_eq_true] at h ⊢
  intro c hc
  rcases Memory.mem_write hc with rfl | hc
  · simpa using hk
  · exact h c hc

theorem Memory.wf_of_pairwise (hv : ∀ c ∈ m, c.2 ≠ dflt) (hp : m.Pairwise fun c c' => c.1 < c'.1) :
    Memory.wf dflt m = true := by
  induction m with
  | nil => rfl
  | cons c rest ih =>
    rw [List.pairwise_cons] at hp
    exact Memory.wf_cons_of_lt (hv c (by simp)) hp.1 (ih (fun c hc => hv c (by simp [hc])) hp.2)

/-- A fill is in canonical form. -/
theorem Memory.wf_fill : Memory.wf dflt (Memory.fill dflt n v) = true := by
  unfold Memory.fill
  split
  · rfl
  · rename_i hv
    refine Memory.wf_of_pairwise (by simp [hv]) ?_
    rw [List.pairwise_map]
    exact List.pairwise_lt_range

theorem Memory.below_fill : Memory.below n (Memory.fill dflt n v) = true := by
  unfold Memory.fill Memory.below
  split <;> simp

omit [DecidableEq α] in
theorem Memory.read_of_mem (hp : m.Pairwise fun c c' => c.1 < c'.1) (h : (k, v) ∈ m) :
    Memory.read dflt m k = v := by
  induction m with
  | nil => simp at h
  | cons c rest ih =>
    obtain ⟨k', v'⟩ := c
    rw [List.pairwise_cons] at hp
    rcases List.mem_cons.1 h with h | h
    · obtain ⟨rfl, rfl⟩ := Prod.mk.inj h
      simp [Memory.read]
    · have : k ≠ k' := fun e => Nat.lt_irrefl _ (e ▸ hp.1 _ h)
      simp only [Memory.read, this, if_false]
      exact ih hp.2 h

/-- After a fill every cell below `n` reads as filled. -/
theorem Memory.read_fill (hk : k < n) : Memory.read dflt (Memory.fill dflt n v) k = v := by
  unfold Memory.fill
  split
  · rename_i hv; simp [Memory.read, hv]
  · refine Memory.read_of_mem ?_ (by simpa using hk)
    rw [List.pairwise_map]
    exact List.pairwise_lt_range

/-- Cells of rows 0 to 7 have different keys. -/
theorem cellKey_inj {x y x' y' : Nat} (hy : y < 8) (hy' : y' < 8) (h : cellKey x y = cellKey x' y') :
    x = x' ∧ y = y' := by
  unfold cellKey at h; omega

theorem cellKey_lt {s : State} {x y : Nat} (h : inRange s x y = true) : cellKey x y < cellCount s := by
  obtain ⟨hx, hy⟩ := Bool.and_eq_true_iff.1 h
  have hx : x < 8 * s.inst.modules := of_decide_eq_true hx
  have hy : y < 8 := of_decide_eq_true hy
  unfold cellKey cellCount; omega

end Sys2Proof.Machine
end

