-- ==== Sys2Proof/Laws/Decode.lean ====
section
/-! SUPPORT. The encodings as arithmetic, and what the decoder can answer. -/

namespace Sys2Proof

theorem pairFrame_toNat (a d : Byte) : (pairFrame a d).toNat = a.toNat * 256 + d.toNat := by
  have h : (pairFrame a d).toNat = a.toNat <<< 8 ||| d.toNat := BitVec.toNat_append a d
  rw [h, ← Nat.shiftLeft_add_eq_or_of_lt d.isLt, Nat.shiftLeft_eq]

theorem frameAddr_toNat (w : Frame) : (frameAddr w).toNat = w.toNat / 256 := by
  have := w.isLt
  simp [frameAddr, BitVec.extractLsb'_toNat, Nat.shiftRight_eq_div_pow]; omega

theorem frameData_toNat (w : Frame) : (frameData w).toNat = w.toNat % 256 := by
  simp [frameData, BitVec.extractLsb'_toNat]

/-- A frame is the pair of its two bytes (R32). -/
@[simp] theorem pairFrame_split (w : Frame) : pairFrame (frameAddr w) (frameData w) = w := by
  apply BitVec.eq_of_toNat_eq
  rw [pairFrame_toNat, frameAddr_toNat, frameData_toNat]; omega

@[simp] theorem frameAddr_pairFrame (a d : Byte) : frameAddr (pairFrame a d) = a := by
  apply BitVec.eq_of_toNat_eq
  have := d.isLt
  rw [frameAddr_toNat, pairFrame_toNat]; omega

@[simp] theorem frameData_pairFrame (a d : Byte) : frameData (pairFrame a d) = d := by
  apply BitVec.eq_of_toNat_eq
  have := d.isLt
  rw [frameData_toNat, pairFrame_toNat]; omega

/-- An HC word as a number (R56). -/
theorem hcWord_toNat (op : BitVec 4) (x : BitVec 12) (y v : BitVec 8) :
    (hcWord op x y v).toNat = op.toNat * 2 ^ 28 + x.toNat * 2 ^ 16 + y.toNat * 2 ^ 8 + v.toNat := by
  have h1 : (op ++ x).toNat = op.toNat * 2 ^ 12 + x.toNat := by
    rw [BitVec.toNat_append, ← Nat.shiftLeft_add_eq_or_of_lt x.isLt, Nat.shiftLeft_eq]
  have h2 : (op ++ x ++ y).toNat = (op ++ x).toNat * 2 ^ 8 + y.toNat := by
    rw [BitVec.toNat_append, ← Nat.shiftLeft_add_eq_or_of_lt y.isLt, Nat.shiftLeft_eq]
  have h3 : (op ++ x ++ y ++ v).toNat = (op ++ x ++ y).toNat * 2 ^ 8 + v.toNat := by
    rw [BitVec.toNat_append, ← Nat.shiftLeft_add_eq_or_of_lt v.isLt, Nat.shiftLeft_eq]
  show (op ++ x ++ y ++ v).toNat = _
  rw [h3, h2, h1]
  ring

theorem hcOp_toNat (w : HostWord) : (hcOp w).toNat = w.toNat / 2 ^ 28 := by
  have := w.isLt
  simp [hcOp, BitVec.extractLsb'_toNat, Nat.shiftRight_eq_div_pow]; omega

theorem hcX_eq (w : HostWord) : hcX w = w.toNat / 2 ^ 16 % 2 ^ 12 := by
  simp [hcX, BitVec.extractLsb'_toNat, Nat.shiftRight_eq_div_pow]

theorem hcY_eq (w : HostWord) : hcY w = w.toNat / 2 ^ 8 % 2 ^ 8 := by
  simp [hcY, BitVec.extractLsb'_toNat, Nat.shiftRight_eq_div_pow]

theorem hcSigned_eq (w : HostWord) :
    hcSigned w = if w.toNat % 2 ^ 8 < 2 ^ 7 then ((w.toNat % 2 ^ 8 : Nat) : Int) else (w.toNat % 2 ^ 8 : Nat) - 2 ^ 8 := by
  have h : (w.extractLsb' 0 8).toNat = w.toNat % 2 ^ 8 := by simp [BitVec.extractLsb'_toNat]
  rw [hcSigned, BitVec.toInt_eq_toNat_cond, h]
  split <;> split <;> first | rfl | omega

theorem hcBit_eq (w : HostWord) : hcBit w = decide (w.toNat % 2 = 1) := by
  show w.toNat.testBit 0 = _
  rw [Nat.testBit_zero]

theorem byte_eq_iff (a : Byte) {n : Nat} (hn : n < 256) : a.toNat = n ↔ a = BitVec.ofNat 8 n := by
  constructor
  · intro h; apply BitVec.eq_of_toNat_eq; rw [h, BitVec.toNat_ofNat]; omega
  · rintro rfl; rw [BitVec.toNat_ofNat]; omega

/-- A decoded frame is a wire frame whose pair is the frame's two bytes. -/
theorem framePair_of_decodeFrame {w : Frame} {i : Instr} (h : decodeFrame w = .ok i) :
    Machine.framePair i = some (frameAddr w, frameData w) := by
  unfold decodeFrame at h
  simp only at h
  split at h <;> rename_i ha <;> (try rw [byte_eq_iff _ (by omega)] at ha)
  all_goals first
    | (cases h; simp [Machine.framePair, ha])
    | cases h
    | (split at h
       · rename_i hd; cases h; simp [Machine.framePair, ha, hd]
       · first
         | cases h
         | (split at h
            · rename_i hd; cases h; simp [Machine.framePair, ha, hd]
            · cases h))
    | (split at h
       · rename_i hd; cases h
         simp only [Machine.framePair, ha, Option.some.injEq, Prod.mk.injEq]
         refine ⟨rfl, BitVec.eq_of_toNat_eq ?_⟩
         simp [BitVec.extractLsb'_toNat]; omega
       · cases h)

/-- The host decoder answers host commands only (R75). -/
theorem decodeHost_isHost (w : HostWord) : (decodeHost w).isHost = true := by
  unfold decodeHost; split <;> rfl

end Sys2Proof
end

