-- ==== Sys2Proof/Laws/State.lean ====
section
/-! SUPPORT. What each shared operation does to each field of the state, one lemma per field, so that no proof
unfolds a record update. -/

namespace Sys2Proof.Machine

theorem raise_eq (e : Status) (s : State) : raise e s = respond e false s := rfl

theorem respondOk_eq (s : State) : respondOk s = respond .ok false s := rfl

@[simp] theorem openBracket_inst (s : State) : (openBracket s).inst = s.inst := rfl
@[simp] theorem openBracket_rdy (s : State) : (openBracket s).rdy = s.rdy := rfl
@[simp] theorem openBracket_pix (s : State) : (openBracket s).pix = s.pix := rfl
@[simp] theorem openBracket_brt (s : State) : (openBracket s).brt = s.brt := rfl
@[simp] theorem openBracket_cs (s : State) : (openBracket s).cs = .asserted := rfl
@[simp] theorem openBracket_sck (s : State) : (openBracket s).sck = s.sck := rfl
@[simp] theorem openBracket_sdo (s : State) : (openBracket s).sdo = s.sdo := rfl
@[simp] theorem openBracket_pos (s : State) : (openBracket s).pos = s.pos := rfl
@[simp] theorem openBracket_sr (s : State) : (openBracket s).sr = s.sr := rfl
@[simp] theorem openBracket_busy (s : State) : (openBracket s).busy = s.busy := rfl
@[simp] theorem openBracket_trace (s : State) : (openBracket s).trace = s.trace ++ [.a] := rfl
@[simp] theorem openBracket_wire (s : State) : (openBracket s).wire = s.wire ++ [.cs .asserted] := rfl
@[simp] theorem openBracket_responses (s : State) : (openBracket s).responses = s.responses := rfl
@[simp] theorem openBracket_frames (s : State) : (openBracket s).frames = s.frames := rfl
@[simp] theorem openBracket_inputs (s : State) : (openBracket s).inputs = s.inputs := rfl
@[simp] theorem openBracket_oracle (s : State) : (openBracket s).oracle = s.oracle := rfl
@[simp] theorem openBracket_drawn (s : State) : (openBracket s).drawn = s.drawn := rfl
@[simp] theorem openBracket_free (s : State) : (openBracket s).free = s.free := rfl

@[simp] theorem closeBracket_inst (s : State) : (closeBracket s).inst = s.inst := rfl
@[simp] theorem closeBracket_rdy (s : State) : (closeBracket s).rdy = s.rdy := rfl
@[simp] theorem closeBracket_pix (s : State) : (closeBracket s).pix = s.pix := rfl
@[simp] theorem closeBracket_brt (s : State) : (closeBracket s).brt = s.brt := rfl
@[simp] theorem closeBracket_cs (s : State) : (closeBracket s).cs = .deasserted := rfl
@[simp] theorem closeBracket_sck (s : State) : (closeBracket s).sck = s.sck := rfl
@[simp] theorem closeBracket_sdo (s : State) : (closeBracket s).sdo = s.sdo := rfl
@[simp] theorem closeBracket_pos (s : State) : (closeBracket s).pos = s.pos := rfl
@[simp] theorem closeBracket_sr (s : State) : (closeBracket s).sr = s.sr := rfl
@[simp] theorem closeBracket_busy (s : State) : (closeBracket s).busy = s.busy := rfl
@[simp] theorem closeBracket_trace (s : State) : (closeBracket s).trace = s.trace ++ [.d] := rfl
@[simp] theorem closeBracket_wire (s : State) : (closeBracket s).wire = s.wire ++ [.cs .deasserted] := rfl
@[simp] theorem closeBracket_responses (s : State) : (closeBracket s).responses = s.responses := rfl
@[simp] theorem closeBracket_frames (s : State) : (closeBracket s).frames = s.frames := rfl
@[simp] theorem closeBracket_inputs (s : State) : (closeBracket s).inputs = s.inputs := rfl
@[simp] theorem closeBracket_oracle (s : State) : (closeBracket s).oracle = s.oracle := rfl
@[simp] theorem closeBracket_drawn (s : State) : (closeBracket s).drawn = s.drawn := rfl
@[simp] theorem closeBracket_free (s : State) : (closeBracket s).free = s.free := rfl

@[simp] theorem shiftBit_inst (b : Bool) (s : State) : (shiftBit b s).inst = s.inst := rfl
@[simp] theorem shiftBit_rdy (b : Bool) (s : State) : (shiftBit b s).rdy = s.rdy := rfl
@[simp] theorem shiftBit_pix (b : Bool) (s : State) : (shiftBit b s).pix = s.pix := rfl
@[simp] theorem shiftBit_brt (b : Bool) (s : State) : (shiftBit b s).brt = s.brt := rfl
@[simp] theorem shiftBit_cs (b : Bool) (s : State) : (shiftBit b s).cs = s.cs := rfl
@[simp] theorem shiftBit_sck (b : Bool) (s : State) : (shiftBit b s).sck = false := rfl
@[simp] theorem shiftBit_sdo (b : Bool) (s : State) : (shiftBit b s).sdo = b := rfl
@[simp] theorem shiftBit_pos (b : Bool) (s : State) : (shiftBit b s).pos = s.pos := rfl
@[simp] theorem shiftBit_sr (b : Bool) (s : State) : (shiftBit b s).sr = s.sr := rfl
@[simp] theorem shiftBit_busy (b : Bool) (s : State) : (shiftBit b s).busy = s.busy := rfl
@[simp] theorem shiftBit_trace (b : Bool) (s : State) : (shiftBit b s).trace = s.trace := rfl
@[simp] theorem shiftBit_wire (b : Bool) (s : State) : (shiftBit b s).wire = s.wire ++ [.bit b] := rfl
@[simp] theorem shiftBit_responses (b : Bool) (s : State) : (shiftBit b s).responses = s.responses := rfl
@[simp] theorem shiftBit_frames (b : Bool) (s : State) : (shiftBit b s).frames = s.frames := rfl
@[simp] theorem shiftBit_inputs (b : Bool) (s : State) : (shiftBit b s).inputs = s.inputs := rfl
@[simp] theorem shiftBit_oracle (b : Bool) (s : State) : (shiftBit b s).oracle = s.oracle := rfl
@[simp] theorem shiftBit_drawn (b : Bool) (s : State) : (shiftBit b s).drawn = s.drawn := rfl
@[simp] theorem shiftBit_free (b : Bool) (s : State) : (shiftBit b s).free = s.free := rfl

@[simp] theorem loadPair_inst (a d : Byte) (s : State) : (loadPair a d s).inst = s.inst := rfl
@[simp] theorem loadPair_rdy (a d : Byte) (s : State) : (loadPair a d s).rdy = s.rdy := rfl
@[simp] theorem loadPair_pix (a d : Byte) (s : State) : (loadPair a d s).pix = s.pix := rfl
@[simp] theorem loadPair_brt (a d : Byte) (s : State) : (loadPair a d s).brt = s.brt := rfl
@[simp] theorem loadPair_cs (a d : Byte) (s : State) : (loadPair a d s).cs = s.cs := rfl
@[simp] theorem loadPair_sck (a d : Byte) (s : State) : (loadPair a d s).sck = s.sck := rfl
@[simp] theorem loadPair_sdo (a d : Byte) (s : State) : (loadPair a d s).sdo = s.sdo := rfl
@[simp] theorem loadPair_pos (a d : Byte) (s : State) : (loadPair a d s).pos = s.pos := rfl
@[simp] theorem loadPair_sr (a d : Byte) (s : State) : (loadPair a d s).sr = pairFrame a d := rfl
@[simp] theorem loadPair_busy (a d : Byte) (s : State) : (loadPair a d s).busy = s.busy := rfl
@[simp] theorem loadPair_trace (a d : Byte) (s : State) : (loadPair a d s).trace = s.trace := rfl
@[simp] theorem loadPair_wire (a d : Byte) (s : State) : (loadPair a d s).wire = s.wire := rfl
@[simp] theorem loadPair_responses (a d : Byte) (s : State) : (loadPair a d s).responses = s.responses := rfl
@[simp] theorem loadPair_frames (a d : Byte) (s : State) : (loadPair a d s).frames = s.frames := rfl
@[simp] theorem loadPair_inputs (a d : Byte) (s : State) : (loadPair a d s).inputs = s.inputs := rfl
@[simp] theorem loadPair_oracle (a d : Byte) (s : State) : (loadPair a d s).oracle = s.oracle := rfl
@[simp] theorem loadPair_drawn (a d : Byte) (s : State) : (loadPair a d s).drawn = s.drawn := rfl
@[simp] theorem loadPair_free (a d : Byte) (s : State) : (loadPair a d s).free = s.free := rfl

@[simp] theorem pairSent_inst (a d : Byte) (s : State) : (pairSent a d s).inst = s.inst := rfl
@[simp] theorem pairSent_rdy (a d : Byte) (s : State) : (pairSent a d s).rdy = s.rdy := rfl
@[simp] theorem pairSent_pix (a d : Byte) (s : State) : (pairSent a d s).pix = s.pix := rfl
@[simp] theorem pairSent_brt (a d : Byte) (s : State) : (pairSent a d s).brt = s.brt := rfl
@[simp] theorem pairSent_cs (a d : Byte) (s : State) : (pairSent a d s).cs = s.cs := rfl
@[simp] theorem pairSent_sck (a d : Byte) (s : State) : (pairSent a d s).sck = s.sck := rfl
@[simp] theorem pairSent_sdo (a d : Byte) (s : State) : (pairSent a d s).sdo = s.sdo := rfl
@[simp] theorem pairSent_pos (a d : Byte) (s : State) : (pairSent a d s).pos = s.pos := rfl
@[simp] theorem pairSent_sr (a d : Byte) (s : State) : (pairSent a d s).sr = Config.idleShiftRegister s.free := rfl
@[simp] theorem pairSent_busy (a d : Byte) (s : State) : (pairSent a d s).busy = s.busy := rfl
@[simp] theorem pairSent_trace (a d : Byte) (s : State) : (pairSent a d s).trace = s.trace ++ [.p a d] := rfl
@[simp] theorem pairSent_wire (a d : Byte) (s : State) : (pairSent a d s).wire = s.wire := rfl
@[simp] theorem pairSent_responses (a d : Byte) (s : State) : (pairSent a d s).responses = s.responses := rfl
@[simp] theorem pairSent_frames (a d : Byte) (s : State) : (pairSent a d s).frames = s.frames := rfl
@[simp] theorem pairSent_inputs (a d : Byte) (s : State) : (pairSent a d s).inputs = s.inputs := rfl
@[simp] theorem pairSent_oracle (a d : Byte) (s : State) : (pairSent a d s).oracle = s.oracle := rfl
@[simp] theorem pairSent_drawn (a d : Byte) (s : State) : (pairSent a d s).drawn = s.drawn := rfl
@[simp] theorem pairSent_free (a d : Byte) (s : State) : (pairSent a d s).free = s.free + 1 := rfl

@[simp] theorem pairFailed_inst (a d : Byte) (s : State) : (pairFailed a d s).inst = s.inst := rfl
@[simp] theorem pairFailed_rdy (a d : Byte) (s : State) : (pairFailed a d s).rdy = s.rdy := rfl
@[simp] theorem pairFailed_pix (a d : Byte) (s : State) : (pairFailed a d s).pix = s.pix := rfl
@[simp] theorem pairFailed_brt (a d : Byte) (s : State) : (pairFailed a d s).brt = s.brt := rfl
@[simp] theorem pairFailed_cs (a d : Byte) (s : State) : (pairFailed a d s).cs = s.cs := rfl
@[simp] theorem pairFailed_sck (a d : Byte) (s : State) : (pairFailed a d s).sck = false := rfl
@[simp] theorem pairFailed_sdo (a d : Byte) (s : State) : (pairFailed a d s).sdo = Config.failedSdo s.free := rfl
@[simp] theorem pairFailed_pos (a d : Byte) (s : State) : (pairFailed a d s).pos = s.pos := rfl
@[simp] theorem pairFailed_sr (a d : Byte) (s : State) : (pairFailed a d s).sr = Config.idleShiftRegister s.free := rfl
@[simp] theorem pairFailed_busy (a d : Byte) (s : State) : (pairFailed a d s).busy = s.busy := rfl
@[simp] theorem pairFailed_trace (a d : Byte) (s : State) : (pairFailed a d s).trace = s.trace ++ [.f a d] := rfl
@[simp] theorem pairFailed_wire (a d : Byte) (s : State) : (pairFailed a d s).wire = s.wire ++ ((Config.failedBits s.free).take 16).map .bit := rfl
@[simp] theorem pairFailed_responses (a d : Byte) (s : State) : (pairFailed a d s).responses = s.responses := rfl
@[simp] theorem pairFailed_frames (a d : Byte) (s : State) : (pairFailed a d s).frames = s.frames := rfl
@[simp] theorem pairFailed_inputs (a d : Byte) (s : State) : (pairFailed a d s).inputs = s.inputs := rfl
@[simp] theorem pairFailed_oracle (a d : Byte) (s : State) : (pairFailed a d s).oracle = s.oracle := rfl
@[simp] theorem pairFailed_drawn (a d : Byte) (s : State) : (pairFailed a d s).drawn = s.drawn := rfl
@[simp] theorem pairFailed_free (a d : Byte) (s : State) : (pairFailed a d s).free = s.free + 1 := rfl

@[simp] theorem respond_inst (e : Status) (r : Bool) (s : State) : (respond e r s).inst = s.inst := rfl
@[simp] theorem respond_rdy (e : Status) (r : Bool) (s : State) : (respond e r s).rdy = s.rdy := rfl
@[simp] theorem respond_pix (e : Status) (r : Bool) (s : State) : (respond e r s).pix = s.pix := rfl
@[simp] theorem respond_brt (e : Status) (r : Bool) (s : State) : (respond e r s).brt = s.brt := rfl
@[simp] theorem respond_cs (e : Status) (r : Bool) (s : State) : (respond e r s).cs = s.cs := rfl
@[simp] theorem respond_sck (e : Status) (r : Bool) (s : State) : (respond e r s).sck = s.sck := rfl
@[simp] theorem respond_sdo (e : Status) (r : Bool) (s : State) : (respond e r s).sdo = s.sdo := rfl
@[simp] theorem respond_pos (e : Status) (r : Bool) (s : State) : (respond e r s).pos = .idle := rfl
@[simp] theorem respond_sr (e : Status) (r : Bool) (s : State) : (respond e r s).sr = s.sr := rfl
@[simp] theorem respond_busy (e : Status) (r : Bool) (s : State) : (respond e r s).busy = false := rfl
@[simp] theorem respond_trace (e : Status) (r : Bool) (s : State) : (respond e r s).trace = s.trace := rfl
@[simp] theorem respond_wire (e : Status) (r : Bool) (s : State) : (respond e r s).wire = s.wire := rfl
@[simp] theorem respond_responses (e : Status) (r : Bool) (s : State) : (respond e r s).responses = s.responses ++ [⟨e, r⟩] := rfl
@[simp] theorem respond_frames (e : Status) (r : Bool) (s : State) : (respond e r s).frames = [] := rfl
@[simp] theorem respond_inputs (e : Status) (r : Bool) (s : State) : (respond e r s).inputs = s.inputs := rfl
@[simp] theorem respond_oracle (e : Status) (r : Bool) (s : State) : (respond e r s).oracle = s.oracle := rfl
@[simp] theorem respond_drawn (e : Status) (r : Bool) (s : State) : (respond e r s).drawn = s.drawn := rfl
@[simp] theorem respond_free (e : Status) (r : Bool) (s : State) : (respond e r s).free = s.free := rfl

@[simp] theorem writePix_inst (x y : Nat) (v : Bool) (s : State) : (writePix x y v s).inst = s.inst := rfl
@[simp] theorem writePix_rdy (x y : Nat) (v : Bool) (s : State) : (writePix x y v s).rdy = s.rdy := rfl
@[simp] theorem writePix_pix (x y : Nat) (v : Bool) (s : State) : (writePix x y v s).pix = Memory.write pixReset s.pix (cellKey x y) v := rfl
@[simp] theorem writePix_brt (x y : Nat) (v : Bool) (s : State) : (writePix x y v s).brt = s.brt := rfl
@[simp] theorem writePix_cs (x y : Nat) (v : Bool) (s : State) : (writePix x y v s).cs = s.cs := rfl
@[simp] theorem writePix_sck (x y : Nat) (v : Bool) (s : State) : (writePix x y v s).sck = s.sck := rfl
@[simp] theorem writePix_sdo (x y : Nat) (v : Bool) (s : State) : (writePix x y v s).sdo = s.sdo := rfl
@[simp] theorem writePix_pos (x y : Nat) (v : Bool) (s : State) : (writePix x y v s).pos = s.pos := rfl
@[simp] theorem writePix_sr (x y : Nat) (v : Bool) (s : State) : (writePix x y v s).sr = s.sr := rfl
@[simp] theorem writePix_busy (x y : Nat) (v : Bool) (s : State) : (writePix x y v s).busy = s.busy := rfl
@[simp] theorem writePix_trace (x y : Nat) (v : Bool) (s : State) : (writePix x y v s).trace = s.trace := rfl
@[simp] theorem writePix_wire (x y : Nat) (v : Bool) (s : State) : (writePix x y v s).wire = s.wire := rfl
@[simp] theorem writePix_responses (x y : Nat) (v : Bool) (s : State) : (writePix x y v s).responses = s.responses := rfl
@[simp] theorem writePix_frames (x y : Nat) (v : Bool) (s : State) : (writePix x y v s).frames = s.frames := rfl
@[simp] theorem writePix_inputs (x y : Nat) (v : Bool) (s : State) : (writePix x y v s).inputs = s.inputs := rfl
@[simp] theorem writePix_oracle (x y : Nat) (v : Bool) (s : State) : (writePix x y v s).oracle = s.oracle := rfl
@[simp] theorem writePix_drawn (x y : Nat) (v : Bool) (s : State) : (writePix x y v s).drawn = s.drawn := rfl
@[simp] theorem writePix_free (x y : Nat) (v : Bool) (s : State) : (writePix x y v s).free = s.free := rfl

@[simp] theorem fillPix_inst (v : Bool) (s : State) : (fillPix v s).inst = s.inst := rfl
@[simp] theorem fillPix_rdy (v : Bool) (s : State) : (fillPix v s).rdy = s.rdy := rfl
@[simp] theorem fillPix_pix (v : Bool) (s : State) : (fillPix v s).pix = Memory.fill pixReset (cellCount s) v := rfl
@[simp] theorem fillPix_brt (v : Bool) (s : State) : (fillPix v s).brt = s.brt := rfl
@[simp] theorem fillPix_cs (v : Bool) (s : State) : (fillPix v s).cs = s.cs := rfl
@[simp] theorem fillPix_sck (v : Bool) (s : State) : (fillPix v s).sck = s.sck := rfl
@[simp] theorem fillPix_sdo (v : Bool) (s : State) : (fillPix v s).sdo = s.sdo := rfl
@[simp] theorem fillPix_pos (v : Bool) (s : State) : (fillPix v s).pos = s.pos := rfl
@[simp] theorem fillPix_sr (v : Bool) (s : State) : (fillPix v s).sr = s.sr := rfl
@[simp] theorem fillPix_busy (v : Bool) (s : State) : (fillPix v s).busy = s.busy := rfl
@[simp] theorem fillPix_trace (v : Bool) (s : State) : (fillPix v s).trace = s.trace := rfl
@[simp] theorem fillPix_wire (v : Bool) (s : State) : (fillPix v s).wire = s.wire := rfl
@[simp] theorem fillPix_responses (v : Bool) (s : State) : (fillPix v s).responses = s.responses := rfl
@[simp] theorem fillPix_frames (v : Bool) (s : State) : (fillPix v s).frames = s.frames := rfl
@[simp] theorem fillPix_inputs (v : Bool) (s : State) : (fillPix v s).inputs = s.inputs := rfl
@[simp] theorem fillPix_oracle (v : Bool) (s : State) : (fillPix v s).oracle = s.oracle := rfl
@[simp] theorem fillPix_drawn (v : Bool) (s : State) : (fillPix v s).drawn = s.drawn := rfl
@[simp] theorem fillPix_free (v : Bool) (s : State) : (fillPix v s).free = s.free := rfl

@[simp] theorem writeBrt_inst (x y : Nat) (v : Level) (s : State) : (writeBrt x y v s).inst = s.inst := rfl
@[simp] theorem writeBrt_rdy (x y : Nat) (v : Level) (s : State) : (writeBrt x y v s).rdy = s.rdy := rfl
@[simp] theorem writeBrt_pix (x y : Nat) (v : Level) (s : State) : (writeBrt x y v s).pix = s.pix := rfl
@[simp] theorem writeBrt_brt (x y : Nat) (v : Level) (s : State) : (writeBrt x y v s).brt = Memory.write brtReset s.brt (cellKey x y) v := rfl
@[simp] theorem writeBrt_cs (x y : Nat) (v : Level) (s : State) : (writeBrt x y v s).cs = s.cs := rfl
@[simp] theorem writeBrt_sck (x y : Nat) (v : Level) (s : State) : (writeBrt x y v s).sck = s.sck := rfl
@[simp] theorem writeBrt_sdo (x y : Nat) (v : Level) (s : State) : (writeBrt x y v s).sdo = s.sdo := rfl
@[simp] theorem writeBrt_pos (x y : Nat) (v : Level) (s : State) : (writeBrt x y v s).pos = s.pos := rfl
@[simp] theorem writeBrt_sr (x y : Nat) (v : Level) (s : State) : (writeBrt x y v s).sr = s.sr := rfl
@[simp] theorem writeBrt_busy (x y : Nat) (v : Level) (s : State) : (writeBrt x y v s).busy = s.busy := rfl
@[simp] theorem writeBrt_trace (x y : Nat) (v : Level) (s : State) : (writeBrt x y v s).trace = s.trace := rfl
@[simp] theorem writeBrt_wire (x y : Nat) (v : Level) (s : State) : (writeBrt x y v s).wire = s.wire := rfl
@[simp] theorem writeBrt_responses (x y : Nat) (v : Level) (s : State) : (writeBrt x y v s).responses = s.responses := rfl
@[simp] theorem writeBrt_frames (x y : Nat) (v : Level) (s : State) : (writeBrt x y v s).frames = s.frames := rfl
@[simp] theorem writeBrt_inputs (x y : Nat) (v : Level) (s : State) : (writeBrt x y v s).inputs = s.inputs := rfl
@[simp] theorem writeBrt_oracle (x y : Nat) (v : Level) (s : State) : (writeBrt x y v s).oracle = s.oracle := rfl
@[simp] theorem writeBrt_drawn (x y : Nat) (v : Level) (s : State) : (writeBrt x y v s).drawn = s.drawn := rfl
@[simp] theorem writeBrt_free (x y : Nat) (v : Level) (s : State) : (writeBrt x y v s).free = s.free := rfl

@[simp] theorem setReady_inst (s : State) : (setReady s).inst = s.inst := rfl
@[simp] theorem setReady_rdy (s : State) : (setReady s).rdy = true := rfl
@[simp] theorem setReady_pix (s : State) : (setReady s).pix = s.pix := rfl
@[simp] theorem setReady_brt (s : State) : (setReady s).brt = s.brt := rfl
@[simp] theorem setReady_cs (s : State) : (setReady s).cs = s.cs := rfl
@[simp] theorem setReady_sck (s : State) : (setReady s).sck = s.sck := rfl
@[simp] theorem setReady_sdo (s : State) : (setReady s).sdo = s.sdo := rfl
@[simp] theorem setReady_pos (s : State) : (setReady s).pos = s.pos := rfl
@[simp] theorem setReady_sr (s : State) : (setReady s).sr = s.sr := rfl
@[simp] theorem setReady_busy (s : State) : (setReady s).busy = s.busy := rfl
@[simp] theorem setReady_trace (s : State) : (setReady s).trace = s.trace := rfl
@[simp] theorem setReady_wire (s : State) : (setReady s).wire = s.wire := rfl
@[simp] theorem setReady_responses (s : State) : (setReady s).responses = s.responses := rfl
@[simp] theorem setReady_frames (s : State) : (setReady s).frames = s.frames := rfl
@[simp] theorem setReady_inputs (s : State) : (setReady s).inputs = s.inputs := rfl
@[simp] theorem setReady_oracle (s : State) : (setReady s).oracle = s.oracle := rfl
@[simp] theorem setReady_drawn (s : State) : (setReady s).drawn = s.drawn := rfl
@[simp] theorem setReady_free (s : State) : (setReady s).free = s.free := rfl

@[simp] theorem begin_inst (op : Op) (s : State) : (begin op s).inst = s.inst := rfl
@[simp] theorem begin_rdy (op : Op) (s : State) : (begin op s).rdy = s.rdy := rfl
@[simp] theorem begin_pix (op : Op) (s : State) : (begin op s).pix = s.pix := rfl
@[simp] theorem begin_brt (op : Op) (s : State) : (begin op s).brt = s.brt := rfl
@[simp] theorem begin_cs (op : Op) (s : State) : (begin op s).cs = s.cs := rfl
@[simp] theorem begin_sck (op : Op) (s : State) : (begin op s).sck = s.sck := rfl
@[simp] theorem begin_sdo (op : Op) (s : State) : (begin op s).sdo = s.sdo := rfl
@[simp] theorem begin_pos (op : Op) (s : State) : (begin op s).pos = .active op 0 0 0 15 := rfl
@[simp] theorem begin_sr (op : Op) (s : State) : (begin op s).sr = s.sr := rfl
@[simp] theorem begin_busy (op : Op) (s : State) : (begin op s).busy = true := rfl
@[simp] theorem begin_trace (op : Op) (s : State) : (begin op s).trace = s.trace := rfl
@[simp] theorem begin_wire (op : Op) (s : State) : (begin op s).wire = s.wire := rfl
@[simp] theorem begin_responses (op : Op) (s : State) : (begin op s).responses = s.responses := rfl
@[simp] theorem begin_frames (op : Op) (s : State) : (begin op s).frames = s.frames := rfl
@[simp] theorem begin_inputs (op : Op) (s : State) : (begin op s).inputs = s.inputs := rfl
@[simp] theorem begin_oracle (op : Op) (s : State) : (begin op s).oracle = s.oracle := rfl
@[simp] theorem begin_drawn (op : Op) (s : State) : (begin op s).drawn = s.drawn := rfl
@[simp] theorem begin_free (op : Op) (s : State) : (begin op s).free = s.free := rfl

@[simp] theorem popInput_inst (s : State) : (popInput s).inst = s.inst := rfl
@[simp] theorem popInput_rdy (s : State) : (popInput s).rdy = s.rdy := rfl
@[simp] theorem popInput_pix (s : State) : (popInput s).pix = s.pix := rfl
@[simp] theorem popInput_brt (s : State) : (popInput s).brt = s.brt := rfl
@[simp] theorem popInput_cs (s : State) : (popInput s).cs = s.cs := rfl
@[simp] theorem popInput_sck (s : State) : (popInput s).sck = s.sck := rfl
@[simp] theorem popInput_sdo (s : State) : (popInput s).sdo = s.sdo := rfl
@[simp] theorem popInput_pos (s : State) : (popInput s).pos = s.pos := rfl
@[simp] theorem popInput_sr (s : State) : (popInput s).sr = s.sr := rfl
@[simp] theorem popInput_busy (s : State) : (popInput s).busy = s.busy := rfl
@[simp] theorem popInput_trace (s : State) : (popInput s).trace = s.trace := rfl
@[simp] theorem popInput_wire (s : State) : (popInput s).wire = s.wire := rfl
@[simp] theorem popInput_responses (s : State) : (popInput s).responses = s.responses := rfl
@[simp] theorem popInput_frames (s : State) : (popInput s).frames = s.frames := rfl
@[simp] theorem popInput_inputs (s : State) : (popInput s).inputs = s.inputs.tail := rfl
@[simp] theorem popInput_oracle (s : State) : (popInput s).oracle = s.oracle := rfl
@[simp] theorem popInput_drawn (s : State) : (popInput s).drawn = s.drawn := rfl
@[simp] theorem popInput_free (s : State) : (popInput s).free = s.free := rfl

@[simp] theorem nextPair_idle (pending : List Frame) : nextPair pending .idle = .idle := rfl
@[simp] theorem nextPair_nil (op : Op) (n : Fin 5) (y : Fin 8) (m : Nat) (k : Fin 16) :
    nextPair [] (.active op n y m k) = .active op n y m 0 := rfl
@[simp] theorem nextPair_cons (w : Frame) (rest : List Frame) (op : Op) (n : Fin 5) (y : Fin 8) (m : Nat)
    (k : Fin 16) : nextPair (w :: rest) (.active op n y m k) = .active op n y (m + 1) 15 := rfl

@[simp] theorem advancePair_inst (s : State) : (advancePair s).inst = s.inst := rfl
@[simp] theorem advancePair_rdy (s : State) : (advancePair s).rdy = s.rdy := rfl
@[simp] theorem advancePair_pix (s : State) : (advancePair s).pix = s.pix := rfl
@[simp] theorem advancePair_brt (s : State) : (advancePair s).brt = s.brt := rfl
@[simp] theorem advancePair_cs (s : State) : (advancePair s).cs = s.cs := rfl
@[simp] theorem advancePair_sck (s : State) : (advancePair s).sck = s.sck := rfl
@[simp] theorem advancePair_sdo (s : State) : (advancePair s).sdo = s.sdo := rfl
@[simp] theorem advancePair_pos (s : State) : (advancePair s).pos = nextPair s.frames.tail s.pos := rfl
@[simp] theorem advancePair_sr (s : State) : (advancePair s).sr = s.sr := rfl
@[simp] theorem advancePair_busy (s : State) : (advancePair s).busy = s.busy := rfl
@[simp] theorem advancePair_trace (s : State) : (advancePair s).trace = s.trace := rfl
@[simp] theorem advancePair_wire (s : State) : (advancePair s).wire = s.wire := rfl
@[simp] theorem advancePair_responses (s : State) : (advancePair s).responses = s.responses := rfl
@[simp] theorem advancePair_frames (s : State) : (advancePair s).frames = s.frames.tail := rfl
@[simp] theorem advancePair_inputs (s : State) : (advancePair s).inputs = s.inputs := rfl
@[simp] theorem advancePair_oracle (s : State) : (advancePair s).oracle = s.oracle := rfl
@[simp] theorem advancePair_drawn (s : State) : (advancePair s).drawn = s.drawn := rfl
@[simp] theorem advancePair_free (s : State) : (advancePair s).free = s.free := rfl

@[simp] theorem draw_inst (s : State) : (draw s).1.inst = s.inst := rfl
@[simp] theorem draw_rdy (s : State) : (draw s).1.rdy = s.rdy := rfl
@[simp] theorem draw_pix (s : State) : (draw s).1.pix = s.pix := rfl
@[simp] theorem draw_brt (s : State) : (draw s).1.brt = s.brt := rfl
@[simp] theorem draw_cs (s : State) : (draw s).1.cs = s.cs := rfl
@[simp] theorem draw_sck (s : State) : (draw s).1.sck = s.sck := rfl
@[simp] theorem draw_sdo (s : State) : (draw s).1.sdo = s.sdo := rfl
@[simp] theorem draw_pos (s : State) : (draw s).1.pos = s.pos := rfl
@[simp] theorem draw_sr (s : State) : (draw s).1.sr = s.sr := rfl
@[simp] theorem draw_busy (s : State) : (draw s).1.busy = s.busy := rfl
@[simp] theorem draw_trace (s : State) : (draw s).1.trace = s.trace := rfl
@[simp] theorem draw_wire (s : State) : (draw s).1.wire = s.wire := rfl
@[simp] theorem draw_responses (s : State) : (draw s).1.responses = s.responses := rfl
@[simp] theorem draw_frames (s : State) : (draw s).1.frames = s.frames := rfl
@[simp] theorem draw_inputs (s : State) : (draw s).1.inputs = s.inputs := rfl
@[simp] theorem draw_oracle (s : State) : (draw s).1.oracle = s.oracle := rfl
@[simp] theorem draw_drawn (s : State) : (draw s).1.drawn = s.drawn + 1 := rfl
@[simp] theorem draw_free (s : State) : (draw s).1.free = s.free := rfl

@[simp] theorem draw_answer (s : State) : (draw s).2 = answer s s.drawn := rfl

@[simp] theorem releaseBracket_cs (s : State) : (releaseBracket s).cs = .deasserted := by
  unfold releaseBracket; split <;> simp_all

theorem releaseBracket_trace (s : State) :
    (releaseBracket s).trace = s.trace ++ (if s.cs = .asserted then [.d] else []) := by
  unfold releaseBracket; split <;> simp_all

theorem releaseBracket_wire (s : State) :
    (releaseBracket s).wire = s.wire ++ (if s.cs = .asserted then [.cs .deasserted] else []) := by
  unfold releaseBracket; split <;> simp_all

@[simp] theorem releaseBracket_inst (s : State) : (releaseBracket s).inst = s.inst := by
  unfold releaseBracket; split <;> rfl

@[simp] theorem releaseBracket_rdy (s : State) : (releaseBracket s).rdy = s.rdy := by
  unfold releaseBracket; split <;> rfl

@[simp] theorem releaseBracket_pix (s : State) : (releaseBracket s).pix = s.pix := by
  unfold releaseBracket; split <;> rfl

@[simp] theorem releaseBracket_brt (s : State) : (releaseBracket s).brt = s.brt := by
  unfold releaseBracket; split <;> rfl

@[simp] theorem releaseBracket_sck (s : State) : (releaseBracket s).sck = s.sck := by
  unfold releaseBracket; split <;> rfl

@[simp] theorem releaseBracket_sdo (s : State) : (releaseBracket s).sdo = s.sdo := by
  unfold releaseBracket; split <;> rfl

@[simp] theorem releaseBracket_pos (s : State) : (releaseBracket s).pos = s.pos := by
  unfold releaseBracket; split <;> rfl

@[simp] theorem releaseBracket_sr (s : State) : (releaseBracket s).sr = s.sr := by
  unfold releaseBracket; split <;> rfl

@[simp] theorem releaseBracket_busy (s : State) : (releaseBracket s).busy = s.busy := by
  unfold releaseBracket; split <;> rfl

@[simp] theorem releaseBracket_responses (s : State) : (releaseBracket s).responses = s.responses := by
  unfold releaseBracket; split <;> rfl

@[simp] theorem releaseBracket_frames (s : State) : (releaseBracket s).frames = s.frames := by
  unfold releaseBracket; split <;> rfl

@[simp] theorem releaseBracket_inputs (s : State) : (releaseBracket s).inputs = s.inputs := by
  unfold releaseBracket; split <;> rfl

@[simp] theorem releaseBracket_oracle (s : State) : (releaseBracket s).oracle = s.oracle := by
  unfold releaseBracket; split <;> rfl

@[simp] theorem releaseBracket_drawn (s : State) : (releaseBracket s).drawn = s.drawn := by
  unfold releaseBracket; split <;> rfl

@[simp] theorem releaseBracket_free (s : State) : (releaseBracket s).free = s.free := by
  unfold releaseBracket; split <;> rfl

@[simp] theorem resetEngine_inst (s : State) : (resetEngine s).inst = s.inst := releaseBracket_inst s
@[simp] theorem resetEngine_rdy (s : State) : (resetEngine s).rdy = false := rfl
@[simp] theorem resetEngine_pix (s : State) : (resetEngine s).pix = [] := rfl
@[simp] theorem resetEngine_brt (s : State) : (resetEngine s).brt = [] := rfl
@[simp] theorem resetEngine_cs (s : State) : (resetEngine s).cs = .deasserted := releaseBracket_cs s
@[simp] theorem resetEngine_sck (s : State) : (resetEngine s).sck = false := rfl
@[simp] theorem resetEngine_sdo (s : State) : (resetEngine s).sdo = false := rfl
@[simp] theorem resetEngine_pos (s : State) : (resetEngine s).pos = .idle := rfl
@[simp] theorem resetEngine_sr (s : State) : (resetEngine s).sr = Config.idleShiftRegister s.free := rfl
@[simp] theorem resetEngine_busy (s : State) : (resetEngine s).busy = false := rfl
theorem resetEngine_trace (s : State) : (resetEngine s).trace = (releaseBracket s).trace := rfl
theorem resetEngine_wire (s : State) : (resetEngine s).wire = (releaseBracket s).wire := rfl
@[simp] theorem resetEngine_responses (s : State) : (resetEngine s).responses = s.responses := releaseBracket_responses s
@[simp] theorem resetEngine_frames (s : State) : (resetEngine s).frames = [] := rfl
@[simp] theorem resetEngine_inputs (s : State) : (resetEngine s).inputs = s.inputs := releaseBracket_inputs s
@[simp] theorem resetEngine_oracle (s : State) : (resetEngine s).oracle = s.oracle := releaseBracket_oracle s
@[simp] theorem resetEngine_drawn (s : State) : (resetEngine s).drawn = s.drawn := releaseBracket_drawn s
@[simp] theorem resetEngine_free (s : State) : (resetEngine s).free = s.free + 1 := rfl

end Sys2Proof.Machine
end

