-- ==== Sys2Proof/Laws/Ops.lean ====
section
/-! SUPPORT. One lemma for each shared operation that says what it can do. The provers cite these instead of
unfolding the operations. -/

namespace Sys2Proof.Machine

/-! ## What the transport leaves alone -/

/-- Everything but the wire, `CS`, `SR` and the counters is as before. -/
structure Untouched (s t : State) : Prop where
  inst : t.inst = s.inst
  rdy : t.rdy = s.rdy
  pix : t.pix = s.pix
  brt : t.brt = s.brt
  pos : t.pos = s.pos
  busy : t.busy = s.busy
  responses : t.responses = s.responses
  frames : t.frames = s.frames
  inputs : t.inputs = s.inputs
  oracle : t.oracle = s.oracle

theorem Untouched.refl (s : State) : Untouched s s := ⟨rfl, rfl, rfl, rfl, rfl, rfl, rfl, rfl, rfl, rfl⟩

theorem Untouched.trans {s t u : State} (h : Untouched s t) (h' : Untouched t u) : Untouched s u :=
  ⟨h'.inst.trans h.inst, h'.rdy.trans h.rdy, h'.pix.trans h.pix, h'.brt.trans h.brt, h'.pos.trans h.pos,
    h'.busy.trans h.busy, h'.responses.trans h.responses, h'.frames.trans h.frames, h'.inputs.trans h.inputs,
    h'.oracle.trans h.oracle⟩

theorem shiftBit_untouched (b : Bool) (s : State) : Untouched s (shiftBit b s) :=
  ⟨rfl, rfl, rfl, rfl, rfl, rfl, rfl, rfl, rfl, rfl⟩

theorem shiftOut_untouched (w : BitVec 16) (n : Nat) (s : State) : Untouched s (shiftOut w n s) := by
  induction n generalizing s with
  | zero => exact .refl s
  | succ n ih => exact (shiftBit_untouched _ s).trans (ih _)

/-! ## Shifting out (R33) -/

/-- The bits `n-1` down to 0 of a frame. -/
def lowBits (w : BitVec 16) : Nat → List Bool
  | 0 => []
  | n + 1 => w.getLsbD n :: lowBits w n

theorem lowBits_sixteen (w : BitVec 16) : lowBits w 16 = frameBits w := rfl

/-- What shifting out does: the bits go on the wire in order, and the other traces and counters stay. -/
theorem shiftOut_spec (w : BitVec 16) (n : Nat) (s : State) :
    (shiftOut w n s).wire = s.wire ++ (lowBits w n).map .bit ∧ (shiftOut w n s).trace = s.trace ∧
      (shiftOut w n s).cs = s.cs ∧ (shiftOut w n s).sr = s.sr ∧ (shiftOut w n s).drawn = s.drawn ∧
      (shiftOut w n s).free = s.free := by
  induction n generalizing s with
  | zero => simp [shiftOut, lowBits]
  | succ n ih => simpa [shiftOut, lowBits] using ih (shiftBit (w.getLsbD n) s)

/-- After the last bit `SCK` is low and `SDO` holds bit 0. -/
theorem shiftOut_lines (w : BitVec 16) (n : Nat) (s : State) :
    (shiftOut w (n + 1) s).sck = false ∧ (shiftOut w (n + 1) s).sdo = w.getLsbD 0 := by
  induction n generalizing s with
  | zero => simp [shiftOut]
  | succ n ih => exact ih (shiftBit (w.getLsbD (n + 1)) s)

/-! ## T.PAIR (R70) -/

/-- What a pair write leaves for its caller. -/
structure PairSpec (a d : Byte) (s t : State) (r : Draw) : Prop where
  untouched : Untouched s t
  answer : r = answer s s.drawn
  drawn : t.drawn = s.drawn + 1
  free : t.free = s.free + 1
  cs : t.cs = s.cs
  sck : t.sck = false
  traceOk : r = .ok → t.trace = s.trace ++ [.p a d]
  wireOk : r = .ok → t.wire = s.wire ++ (frameBits (pairFrame a d)).map .bit
  traceFail : r = .fail → t.trace = s.trace ++ [.f a d]

theorem pair_of_ok {a d : Byte} {s : State} (h : answer s s.drawn = .ok) :
    pair a d s = (pairSent a d (shiftOut (pairFrame a d) 16 (loadPair a d (draw s).1)), .ok) := by
  simp [pair, draw, h]

theorem pair_of_fail {a d : Byte} {s : State} (h : answer s s.drawn = .fail) :
    pair a d s = (pairFailed a d (draw s).1, .fail) := by
  simp [pair, draw, h]

theorem pair_spec (a d : Byte) (s : State) : PairSpec a d s (pair a d s).1 (pair a d s).2 := by
  cases h : answer s s.drawn with
  | ok =>
    rw [pair_of_ok h]
    have hu := shiftOut_untouched (pairFrame a d) 16 (loadPair a d (draw s).1)
    obtain ⟨hw, ht, hc, -, hd, hf⟩ := shiftOut_spec (pairFrame a d) 16 (loadPair a d (draw s).1)
    obtain ⟨hk, -⟩ := shiftOut_lines (pairFrame a d) 15 (loadPair a d (draw s).1)
    exact
      { untouched := ⟨hu.inst, hu.rdy, hu.pix, hu.brt, hu.pos, hu.busy, hu.responses, hu.frames, hu.inputs, hu.oracle⟩
        answer := h.symm
        drawn := hd
        free := by simp [hf]
        cs := hc
        sck := hk
        traceOk := fun _ => by simp [ht]
        wireOk := fun _ => by simp [hw, lowBits_sixteen]
        traceFail := nofun }
  | fail =>
    rw [pair_of_fail h]
    exact
      { untouched := ⟨rfl, rfl, rfl, rfl, rfl, rfl, rfl, rfl, rfl, rfl⟩
        answer := h.symm
        drawn := rfl
        free := rfl
        cs := rfl
        sck := rfl
        traceOk := nofun
        wireOk := nofun
        traceFail := fun _ => rfl }

theorem answer_of_untouched {s t : State} (h : Untouched s t) (n : Nat) : answer t n = answer s n := by
  simp [answer, h.oracle]

/-! ## The oracle's next answers -/

theorem drawsOk_zero (s : State) : DrawsOk s 0 := fun _ h => absurd h (Nat.not_lt_zero _)

theorem DrawsOk.mono {s : State} {j k : Nat} (h : DrawsOk s k) (hj : j ≤ k) : DrawsOk s j :=
  fun i hi => h i (Nat.lt_of_lt_of_le hi hj)

/-- Either the next `k` draws are all `ok`, or one of them is the first to fail. -/
theorem drawsOk_or_failure (s : State) (k : Nat) : DrawsOk s k ∨ ∃ j < k, FirstFailure s j := by
  induction k with
  | zero => exact .inl (drawsOk_zero s)
  | succ k ih =>
    rcases ih with h | ⟨j, hj, h⟩
    · cases ha : answer s (s.drawn + k) with
      | fail => exact .inr ⟨k, k.lt_succ_self, h, ha⟩
      | ok =>
        refine .inl fun i hi => ?_
        rcases Nat.lt_succ_iff_lt_or_eq.1 hi with hi | rfl
        · exact h i hi
        · exact ha
    · exact .inr ⟨j, Nat.lt_succ_of_lt hj, h⟩

/-- After `m` draws the answers are those `m` further on. -/
theorem DrawsOk.shift {s t : State} {m k : Nat} (hu : Untouched s t) (hd : t.drawn = s.drawn + m)
    (h : DrawsOk s (m + k)) : DrawsOk t k := fun i hi => by
  rw [answer_of_untouched hu, hd, Nat.add_assoc]
  exact h (m + i) (Nat.add_lt_add_left hi m)

theorem FirstFailure.shift {s t : State} {m k : Nat} (hu : Untouched s t) (hd : t.drawn = s.drawn + m)
    (h : FirstFailure s (m + k)) : FirstFailure t k :=
  ⟨DrawsOk.shift hu hd h.1, by rw [answer_of_untouched hu, hd, Nat.add_assoc]; exact h.2⟩

/-! ## The pairs of a bracket (R71, R72) -/

theorem sendPairs_cons (a d : Byte) (dv : List Byte) (s : State) :
    sendPairs a (d :: dv) s =
      if (pair a d s).2 = .ok then sendPairs a dv (pair a d s).1 else ((pair a d s).1, .fail) := by
  rw [sendPairs]
  rcases h : pair a d s with ⟨t, r⟩
  cases r <;> simp

theorem sendPairs_untouched (a : Byte) (dv : List Byte) (s : State) :
    Untouched s (sendPairs a dv s).1 ∧ (sendPairs a dv s).1.cs = s.cs ∧
      (s.sck = false → (sendPairs a dv s).1.sck = false) := by
  induction dv generalizing s with
  | nil => exact ⟨.refl s, rfl, id⟩
  | cons d dv ih =>
    have hp := pair_spec a d s
    rw [sendPairs_cons]
    split
    · obtain ⟨hu, hc, hk⟩ := ih (pair a d s).1
      exact ⟨hp.untouched.trans hu, hc.trans hp.cs, fun _ => hk hp.sck⟩
    · exact ⟨hp.untouched, hp.cs, fun _ => hp.sck⟩

/-- All draws `ok`: every pair is written, in order. -/
theorem sendPairs_ok {a : Byte} {dv : List Byte} {s : State} (h : DrawsOk s dv.length) :
    (sendPairs a dv s).2 = .ok ∧ (sendPairs a dv s).1.trace = s.trace ++ dv.map (.p a) ∧
      (sendPairs a dv s).1.wire = s.wire ++ (dv.map (.p a)).flatMap eventBits ∧
      (sendPairs a dv s).1.drawn = s.drawn + dv.length := by
  induction dv generalizing s with
  | nil => simp [sendPairs]
  | cons d dv ih =>
    have hp := pair_spec a d s
    have hr : (pair a d s).2 = .ok := hp.answer.trans (by simpa using h 0 (by simp))
    obtain ⟨h1, h2, h3, h4⟩ :=
      ih (s := (pair a d s).1) (DrawsOk.shift hp.untouched hp.drawn (by rwa [Nat.add_comm]))
    rw [sendPairs_cons, if_pos hr]
    refine ⟨h1, ?_, ?_, ?_⟩
    · rw [h2, hp.traceOk hr]; simp
    · rw [h3, hp.wireOk hr]; simp [eventBits]
    · rw [h4, hp.drawn, List.length_cons]; omega

/-- The first draw that fails ends the pairs; those after it are not attempted. -/
theorem sendPairs_fail {a : Byte} {dv : List Byte} {s : State} {j : Nat} (hj : j < dv.length)
    (h : FirstFailure s j) :
    (sendPairs a dv s).2 = .fail ∧
      (sendPairs a dv s).1.trace = s.trace ++ (dv.take j).map (.p a) ++ [.f a dv[j]] ∧
      (sendPairs a dv s).1.drawn = s.drawn + (j + 1) := by
  induction dv generalizing s j with
  | nil => simp at hj
  | cons d dv ih =>
    have hp := pair_spec a d s
    rw [sendPairs_cons]
    cases j with
    | zero =>
      have hr : (pair a d s).2 = .fail := hp.answer.trans h.2
      simp [hr, hp.traceFail hr, hp.drawn]
    | succ j =>
      have hr : (pair a d s).2 = .ok := hp.answer.trans (by simpa using h.1 0 (by simp))
      obtain ⟨h1, h2, h3⟩ := ih (s := (pair a d s).1) (j := j) (by simpa using hj)
        (FirstFailure.shift hp.untouched hp.drawn (by rwa [Nat.add_comm]))
      rw [if_pos hr]
      refine ⟨h1, ?_, ?_⟩
      · rw [h2, hp.traceOk hr]; simp
      · rw [h3, hp.drawn]; omega

/-! ## T.BRACKET (R71, R72) -/

theorem openBracket_untouched (s : State) : Untouched s (openBracket s) :=
  ⟨rfl, rfl, rfl, rfl, rfl, rfl, rfl, rfl, rfl, rfl⟩

theorem closeBracket_untouched (s : State) : Untouched s (closeBracket s) :=
  ⟨rfl, rfl, rfl, rfl, rfl, rfl, rfl, rfl, rfl, rfl⟩

theorem bracket_eq (b : Bracket) (s : State) :
    bracket b s = (closeBracket (sendPairs b.addr b.data (openBracket s)).1,
      (sendPairs b.addr b.data (openBracket s)).2) := rfl

/-- A bracket releases chip-select on every path, and touches only the wire. -/
theorem bracket_untouched (b : Bracket) (s : State) :
    Untouched s (bracket b s).1 ∧ (bracket b s).1.cs = .deasserted ∧
      (s.sck = false → (bracket b s).1.sck = false) := by
  obtain ⟨hu, -, hk⟩ := sendPairs_untouched b.addr b.data (openBracket s)
  exact ⟨((openBracket_untouched s).trans hu).trans (closeBracket_untouched _), rfl, hk⟩

theorem bracket_ok {b : Bracket} {s : State} (h : DrawsOk s b.data.length) :
    (bracket b s).2 = .ok ∧ (bracket b s).1.trace = s.trace ++ bracketTrace b ∧
      (bracket b s).1.wire = s.wire ++ (bracketTrace b).flatMap eventBits ∧
      (bracket b s).1.drawn = s.drawn + b.data.length := by
  obtain ⟨h1, h2, h3, h4⟩ := sendPairs_ok (a := b.addr) (s := openBracket s) h
  refine ⟨h1, ?_, ?_, h4⟩
  · simp [bracket_eq, h2, bracketTrace]
  · simp [bracket_eq, h3, bracketTrace, eventBits]

theorem bracket_fail {b : Bracket} {s : State} {j : Nat} (hj : j < b.data.length) (h : FirstFailure s j) :
    (bracket b s).2 = .fail ∧ (bracket b s).1.trace = s.trace ++ failedTrace b j ∧
      (bracket b s).1.drawn = s.drawn + (j + 1) := by
  obtain ⟨h1, h2, h3⟩ := sendPairs_fail (a := b.addr) (s := openBracket s) hj h
  exact ⟨h1, by simp [bracket_eq, h2, failedTrace, List.getElem?_eq_getElem hj], h3⟩

/-! ## Brackets in a row (R85, R105, R117) -/

theorem sendBrackets_cons (b : Bracket) (bs : List Bracket) (s : State) :
    sendBrackets (b :: bs) s =
      if (bracket b s).2 = .ok then sendBrackets bs (bracket b s).1 else ((bracket b s).1, .fail) := by
  rw [sendBrackets]
  rcases h : bracket b s with ⟨t, r⟩
  cases r <;> simp

theorem sendBrackets_untouched (bs : List Bracket) (s : State) :
    Untouched s (sendBrackets bs s).1 ∧ (s.cs = .deasserted → (sendBrackets bs s).1.cs = .deasserted) ∧
      (s.sck = false → (sendBrackets bs s).1.sck = false) := by
  induction bs generalizing s with
  | nil => exact ⟨.refl s, id, id⟩
  | cons b bs ih =>
    obtain ⟨hu, hc, hk⟩ := bracket_untouched b s
    rw [sendBrackets_cons]
    split
    · obtain ⟨hu', hc', hk'⟩ := ih (bracket b s).1
      exact ⟨hu.trans hu', fun _ => hc' hc, fun h => hk' (hk h)⟩
    · exact ⟨hu, fun _ => hc, hk⟩

/-- All draws `ok`: the brackets go out whole, one after another. -/
theorem sendBrackets_ok {n : Nat} {bs : List Bracket} {s : State} (hn : ∀ b ∈ bs, b.data.length = n)
    (h : DrawsOk s (bs.length * n)) :
    (sendBrackets bs s).2 = .ok ∧ (sendBrackets bs s).1.trace = s.trace ++ bs.flatMap bracketTrace ∧
      (sendBrackets bs s).1.wire = s.wire ++ (bs.flatMap bracketTrace).flatMap eventBits ∧
      (sendBrackets bs s).1.drawn = s.drawn + bs.length * n := by
  induction bs generalizing s with
  | nil => simp [sendBrackets]
  | cons b bs ih =>
    have hb : b.data.length = n := hn b (by simp)
    have hlen : (b :: bs).length * n = n + bs.length * n := by rw [List.length_cons]; ring
    rw [hlen] at h
    obtain ⟨h1, h2, h3, h4⟩ := bracket_ok (b := b) (s := s) (h.mono (by omega))
    obtain ⟨k1, k2, k3, k4⟩ := ih (s := (bracket b s).1) (fun b' hb' => hn b' (by simp [hb']))
      (DrawsOk.shift (bracket_untouched b s).1 (h4.trans (by rw [hb])) h)
    rw [sendBrackets_cons, if_pos h1]
    refine ⟨k1, ?_, ?_, ?_⟩
    · rw [k2, h2]; simp
    · rw [k3, h3]; simp
    · rw [k4, h4, hb, hlen]; omega

/-- The first draw that fails ends the brackets; those after it are not opened. -/
theorem sendBrackets_fail {n : Nat} {bs : List Bracket} {s : State} {k : Nat}
    (hn : ∀ b ∈ bs, b.data.length = n) (hk : k < bs.length * n) (h : FirstFailure s k) :
    (sendBrackets bs s).2 = .fail ∧ (sendBrackets bs s).1.trace = s.trace ++ cutTrace n bs k ∧
      (sendBrackets bs s).1.drawn = s.drawn + (k + 1) := by
  induction bs generalizing s k with
  | nil => simp at hk
  | cons b bs ih =>
    have hb : b.data.length = n := hn b (by simp)
    have hn0 : 0 < n := Nat.pos_of_ne_zero fun e => by simp [e] at hk
    have hlen : (b :: bs).length * n = n + bs.length * n := by rw [List.length_cons]; ring
    rw [hlen] at hk
    rw [sendBrackets_cons]
    rcases Nat.lt_or_ge k n with hkn | hkn
    · obtain ⟨h1, h2, h3⟩ := bracket_fail (b := b) (s := s) (hb ▸ hkn) h
      simp [h1, h2, h3, cutTrace, Nat.div_eq_of_lt hkn, Nat.mod_eq_of_lt hkn]
    · obtain ⟨j, rfl⟩ := Nat.exists_eq_add_of_le hkn
      obtain ⟨h1, h2, -, h4⟩ := bracket_ok (b := b) (s := s) (h.1.mono (by omega))
      obtain ⟨k1, k2, k3⟩ := ih (s := (bracket b s).1) (k := j) (fun b' hb' => hn b' (by simp [hb']))
        (by omega) (FirstFailure.shift (bracket_untouched b s).1 (h4.trans (by rw [hb])) h)
      rw [if_pos h1]
      refine ⟨k1, ?_, ?_⟩
      · rw [k2, h2]
        simp [cutTrace, Nat.add_div_left _ hn0]
      · rw [k3, h4, hb]; omega

/-! ## Checks and endings (R123, R117) -/

theorem guarded_error {checks : List (Option Status)} {e : Status} {body : State → State} {s : State}
    (h : firstError checks = some e) : guarded checks body s = respond e false s := by
  simp [guarded, h, raise_eq]

theorem guarded_pass {checks : List (Option Status)} {body : State → State} {s : State}
    (h : firstError checks = none) : guarded checks body s = body s := by
  simp [guarded, h]

/-- A guarded operation either only answers with the first error or runs its body. -/
theorem guarded_cases (checks : List (Option Status)) (body : State → State) (s : State) :
    (∃ e, firstError checks = some e ∧ guarded checks body s = respond e false s) ∨
      (firstError checks = none ∧ guarded checks body s = body s) := by
  cases h : firstError checks with
  | some e => exact .inl ⟨e, rfl, guarded_error h⟩
  | none => exact .inr ⟨rfl, guarded_pass h⟩

theorem finish_ok {onOk : State → State} {r : State × Draw} (h : r.2 = .ok) :
    finish onOk r = respond .ok false (onOk r.1) := by
  obtain ⟨s, d⟩ := r; subst h; rfl

theorem finish_fail {onOk : State → State} {r : State × Draw} (h : r.2 = .fail) :
    finish onOk r = respond .transmissionError false r.1 := by
  obtain ⟨s, d⟩ := r; subst h; rfl

/-- An operation that drove the wire ends with `OK` and its state change, or with `TransmissionError`. -/
theorem finish_cases (onOk : State → State) (r : State × Draw) :
    (r.2 = .ok ∧ finish onOk r = respond .ok false (onOk r.1)) ∨
      (r.2 = .fail ∧ finish onOk r = respond .transmissionError false r.1) := by
  rcases h : r.2 with _ | _
  · exact .inl ⟨rfl, finish_ok h⟩
  · exact .inr ⟨rfl, finish_fail h⟩

/-- An error response changes nothing but the response (R125). -/
theorem onlyAnswered_respond (e : Status) (r : Bool) (s : State) : OnlyAnswered s (respond e r s) e r := by
  simp [OnlyAnswered, Answered, SameOutside, SameWire, SameEngine]

theorem firstError_ready (s : State) : firstError [readyCheck s] = if s.rdy then none else some .preconditionError := by
  cases h : s.rdy <;> simp [firstError, readyCheck, h]

theorem firstError_init (s : State) : firstError (initChecks s) = if s.rdy then some .preconditionError else none := by
  cases h : s.rdy <;> simp [firstError, initChecks, uninitializedCheck, h]

theorem firstError_setint (level : Int) (s : State) :
    firstError (setintChecks level s) =
      if levelInRange level then (if s.rdy then none else some .preconditionError) else some .configurationError := by
  cases hl : levelInRange level <;> cases h : s.rdy <;>
    simp [firstError, setintChecks, levelCheck, readyCheck, h, hl]

theorem firstError_cell (x y : Nat) (s : State) :
    firstError (cellChecks x y s) =
      if inRange s x y then (if s.rdy then none else some .preconditionError) else some .addressError := by
  cases hl : inRange s x y <;> cases h : s.rdy <;>
    simp [firstError, cellChecks, addressCheck, readyCheck, h, hl]

theorem levelInRange_iff (level : Int) : levelInRange level = true ↔ 0 ≤ level ∧ level ≤ 15 :=
  Bool.and_eq_true_iff.trans (and_congr decide_eq_true_iff decide_eq_true_iff)

theorem inRange_iff (s : State) (x y : Nat) : inRange s x y = true ↔ x < 8 * s.inst.modules ∧ y < 8 :=
  Bool.and_eq_true_iff.trans (and_congr decide_eq_true_iff decide_eq_true_iff)

/-! ## The brackets of the three operations -/

theorem initBrackets_length (n : Nat) : (initBrackets n).length = 5 := rfl

theorem initBrackets_data (n : Nat) : ∀ b ∈ initBrackets n, b.data.length = n := by
  simp [initBrackets, initSequence, broadcast]

theorem setintBracket_data (n : Nat) (level : Int) : ∀ b ∈ [setintBracket n level], b.data.length = n := by
  simp [setintBracket, broadcast]

theorem rowBrackets_length (s : State) (p : Int) : (rowBrackets s p).length = 8 := by simp [rowBrackets, rows]

theorem rowBrackets_data (s : State) (p : Int) : ∀ b ∈ rowBrackets s p, b.data.length = s.inst.modules := by
  simp [rowBrackets, rowBracket, rowData]

theorem bracketAt_length (s : State) (op : Op) (i : Fin 5) (y : Fin 8) :
    (bracketFrames (bracketAt s op i y)).length = s.inst.modules := by
  cases op <;> simp [bracketFrames, bracketAt, broadcast, setintBracket, rowBracket, rowData]

end Sys2Proof.Machine
end

