-- ==== Sys2Proof/Laws/PerInstr.lean ====
section
/-! SUPPORT. A fact of every instruction of the table: its word has the fixed bits of its row. -/

namespace Sys2Proof.Laws.FixedBits

/-- The word of an instruction has the width of its opcode-table row and the row's fixed bits, whatever its
operands are. -/
def Statement (i : Instr) : Prop := (opcodeRow i).matchesCode (encode i) = true

/-- An HC word has the fixed bits of the row its `op` names. -/
theorem hc (s : String) (op : BitVec 4) (x : BitVec 12) (y v : BitVec 8) :
    (OpcodeRow.mk s 32 (op.toNat * 2 ^ 28) 0xF0000000).matchesCode (.hc (hcWord op x y v)) = true := by
  have h : (hcWord op x y v &&& 0xF0000000#32).toNat = op.toNat * 2 ^ 28 := by
    have e : hcWord op x y v &&& 0xF0000000#32 = hcWord op 0 0 0 := by
      apply BitVec.eq_of_getLsbD_eq
      intro i hi
      simp only [hcWord, BitVec.getLsbD_and, BitVec.getLsbD_append]
      interval_cases i <;> simp
    rw [e, hcWord_toNat]
    simp
  simpa [OpcodeRow.matchesCode, Code.nbits, Code.toNat] using h

/-- A WF word with any data byte has its address as fixed bits. -/
theorem wf (s : String) (a d : Byte) :
    (OpcodeRow.mk s 16 (a.toNat * 2 ^ 8) 0xFF00).matchesCode (.wf (pairFrame a d)) = true := by
  have h : (pairFrame a d &&& 0xFF00#16).toNat = a.toNat * 2 ^ 8 := by
    have e : pairFrame a d &&& 0xFF00#16 = pairFrame a 0 := by
      apply BitVec.eq_of_getLsbD_eq
      intro i hi
      simp only [pairFrame, BitVec.getLsbD_and, BitVec.getLsbD_append]
      interval_cases i <;> simp
    rw [e, pairFrame_toNat]
    simp
  simpa [OpcodeRow.matchesCode, Code.nbits, Code.toNat] using h

theorem init : Statement (.init) := hc _ 0x1 _ _ _

theorem setint (level : Int) : Statement (.setint level) := hc _ 0x2 _ _ _

theorem setbrt (x y : Nat) (level : Int) : Statement (.setbrt x y level) := hc _ 0x3 _ _ _

theorem render (pwmPhase : Int) : Statement (.render pwmPhase) := hc _ 0x4 _ _ _

theorem pixwr (x y : Nat) (v : Bool) : Statement (.pixwr x y v) := hc _ 0x5 _ _ _

theorem pixrd (x y : Nat) : Statement (.pixrd x y) := hc _ 0x6 _ _ _

theorem fill (v : Bool) : Statement (.fill v) := hc _ 0x7 _ _ _

theorem reserved0 : Statement (.reserved0) := hc _ 0x0 _ _ _

theorem reserved8 : Statement (.reserved8) := hc _ 0x8 _ _ _

theorem reserved9 : Statement (.reserved9) := hc _ 0x9 _ _ _

theorem reservedA : Statement (.reservedA) := hc _ 0xa _ _ _

theorem reservedB : Statement (.reservedB) := hc _ 0xb _ _ _

theorem reservedC : Statement (.reservedC) := hc _ 0xc _ _ _

theorem reservedD : Statement (.reservedD) := hc _ 0xd _ _ _

theorem reservedE : Statement (.reservedE) := hc _ 0xe _ _ _

theorem reservedF : Statement (.reservedF) := hc _ 0xf _ _ _

theorem wDigit0 (data : Byte) : Statement (.wDigit0 data) := wf _ 0x01 data

theorem wDigit1 (data : Byte) : Statement (.wDigit1 data) := wf _ 0x02 data

theorem wDigit2 (data : Byte) : Statement (.wDigit2 data) := wf _ 0x03 data

theorem wDigit3 (data : Byte) : Statement (.wDigit3 data) := wf _ 0x04 data

theorem wDigit4 (data : Byte) : Statement (.wDigit4 data) := wf _ 0x05 data

theorem wDigit5 (data : Byte) : Statement (.wDigit5 data) := wf _ 0x06 data

theorem wDigit6 (data : Byte) : Statement (.wDigit6 data) := wf _ 0x07 data

theorem wDigit7 (data : Byte) : Statement (.wDigit7 data) := wf _ 0x08 data

theorem wDecode : Statement (.wDecode) := by unfold Statement; decide

theorem wIntensity (level : Level) : Statement (.wIntensity level) := by
  revert level
  unfold Statement
  decide

theorem wScanlimit : Statement (.wScanlimit) := by unfold Statement; decide

theorem wShutdown0 : Statement (.wShutdown0) := by unfold Statement; decide

theorem wShutdown1 : Statement (.wShutdown1) := by unfold Statement; decide

theorem wDisptest : Statement (.wDisptest) := by unfold Statement; decide

end Sys2Proof.Laws.FixedBits
end

