-- ==== Sys2Proof/Laws/Step.lean ====
section
/-! SUPPORT. Everything one step can do, said once: the invariants follow from these cases. -/

namespace Sys2Proof.Machine

/-- The wire frames are pairs of the bracket in progress. -/
theorem exec_of_framePair {i : Instr} {a d : Byte} (h : framePair i = some (a, d)) (s : State) :
    exec i s = execPair a d s := by
  cases i <;> cases h
  case wIntensity level => simp [exec, execWIntensity]
  all_goals rfl

/-- A host command either only answers, or runs its body: the cell operations and `FILL` change a buffer, the
three wire operations send their brackets. -/
theorem exec_host_cases {i : Instr} {s t : State} (hi : i.isHost = true) (h : exec i s = .next t) :
    (∃ e r, t = respond e r s) ∨
    (∃ x y v, i = .pixwr x y v ∧ inRange s x y = true ∧ s.rdy = true ∧ t = respond .ok false (writePix x y v s)) ∨
    (∃ x y level, i = .setbrt x y level ∧ inRange s x y = true ∧ s.rdy = true ∧
      t = respond .ok false (writeBrt x y (clamp15 level) s)) ∨
    (∃ v, i = .fill v ∧ s.rdy = true ∧ t = respond .ok false (fillPix v s)) ∨
    (i = .init ∧ s.rdy = false ∧ t = finish setReady (sendBrackets (initBrackets s.inst.modules) s)) ∨
    (∃ level, i = .setint level ∧ levelInRange level = true ∧ s.rdy = true ∧
      t = finish id (sendBrackets [setintBracket s.inst.modules level] s)) ∨
    (∃ p, i = .render p ∧ s.rdy = true ∧ t = finish id (sendBrackets (rowBrackets s p) s)) := by
  have hcell : ∀ {x y}, firstError (cellChecks x y s) = none → inRange s x y = true ∧ s.rdy = true := by
    intro x y hp; rw [firstError_cell] at hp
    split at hp
    · split at hp <;> simp_all
    · cases hp
  have hready : firstError [readyCheck s] = none → s.rdy = true := by
    intro hp; rw [firstError_ready] at hp; split at hp <;> simp_all
  cases i <;> first | (cases hi; done) | skip
  case init =>
    obtain rfl := (Host.Outcome.next.inj h).symm
    rcases guarded_cases (initChecks s) (fun s => finish setReady (sendBrackets (initBrackets s.inst.modules) s)) s with
      ⟨e, -, he⟩ | ⟨hp, he⟩
    · exact .inl ⟨e, false, he⟩
    · refine .inr (.inr (.inr (.inr (.inl ⟨rfl, ?_, he⟩))))
      rw [firstError_init] at hp; split at hp <;> simp_all
  case setint level =>
    obtain rfl := (Host.Outcome.next.inj h).symm
    rcases guarded_cases (setintChecks level s)
      (fun s => finish id (sendBrackets [setintBracket s.inst.modules level] s)) s with ⟨e, -, he⟩ | ⟨hp, he⟩
    · exact .inl ⟨e, false, he⟩
    · refine .inr (.inr (.inr (.inr (.inr (.inl ⟨level, rfl, ?_, ?_, he⟩)))))
      all_goals
        rw [firstError_setint] at hp
        split at hp
        · split at hp <;> simp_all
        · cases hp
  case setbrt x y level =>
    obtain rfl := (Host.Outcome.next.inj h).symm
    rcases guarded_cases (cellChecks x y s) (fun s => respondOk (writeBrt x y (clamp15 level) s)) s with
      ⟨e, -, he⟩ | ⟨hp, he⟩
    · exact .inl ⟨e, false, he⟩
    · exact .inr (.inr (.inl ⟨x, y, level, rfl, (hcell hp).1, (hcell hp).2, he⟩))
  case render p =>
    obtain rfl := (Host.Outcome.next.inj h).symm
    rcases guarded_cases [readyCheck s] (fun s => finish id (sendBrackets (rowBrackets s p) s)) s with
      ⟨e, -, he⟩ | ⟨hp, he⟩
    · exact .inl ⟨e, false, he⟩
    · exact .inr (.inr (.inr (.inr (.inr (.inr ⟨p, rfl, hready hp, he⟩)))))
  case pixwr x y v =>
    obtain rfl := (Host.Outcome.next.inj h).symm
    rcases guarded_cases (cellChecks x y s) (fun s => respondOk (writePix x y v s)) s with ⟨e, -, he⟩ | ⟨hp, he⟩
    · exact .inl ⟨e, false, he⟩
    · exact .inr (.inl ⟨x, y, v, rfl, (hcell hp).1, (hcell hp).2, he⟩)
  case pixrd x y =>
    obtain rfl := (Host.Outcome.next.inj h).symm
    rcases guarded_cases (cellChecks x y s) (fun s => respond .ok (readPix s x y) s) s with ⟨e, -, he⟩ | ⟨hp, he⟩
    · exact .inl ⟨e, false, he⟩
    · exact .inl ⟨.ok, readPix s x y, he⟩
  case fill v =>
    obtain rfl := (Host.Outcome.next.inj h).symm
    rcases guarded_cases [readyCheck s] (fun s => respondOk (fillPix v s)) s with ⟨e, -, he⟩ | ⟨hp, he⟩
    · exact .inl ⟨e, false, he⟩
    · exact .inr (.inr (.inr (.inl ⟨v, rfl, hready hp, he⟩)))
  all_goals exact .inl ⟨.illegalCommand, false, (Host.Outcome.next.inj h).symm⟩

/-- Acceptance in small steps either begins an operation that drives the wire, having passed its checks, or does
what the whole command does. -/
theorem accept_cases {i : Instr} (hi : i.isHost = true) (s : State) :
    (∃ t, exec i s = .next t ∧ accept i s = t ∧ t.cs = s.cs ∧ t.sck = s.sck ∧ t.trace = s.trace ∧ t.wire = s.wire) ∨
    (i = .init ∧ s.rdy = false ∧ accept i s = begin .init s) ∨
    (∃ level, i = .setint level ∧ levelInRange level = true ∧ s.rdy = true ∧ accept i s = begin (.setint level) s) ∨
    (∃ p, i = .render p ∧ s.rdy = true ∧ accept i s = begin (.render p) s) := by
  have hcell : ∀ {x y body}, (∀ s, (body s : State).cs = s.cs ∧ (body s).sck = s.sck ∧ (body s).trace = s.trace ∧
      (body s).wire = s.wire) → (guarded (cellChecks x y s) body s).cs = s.cs ∧
      (guarded (cellChecks x y s) body s).sck = s.sck ∧ (guarded (cellChecks x y s) body s).trace = s.trace ∧
      (guarded (cellChecks x y s) body s).wire = s.wire := by
    intro x y body hb
    rcases guarded_cases (cellChecks x y s) body s with ⟨e, -, he⟩ | ⟨-, he⟩ <;> rw [he]
    · exact ⟨rfl, rfl, rfl, rfl⟩
    · exact hb s
  cases i <;> first | (cases hi; done) | skip
  case init =>
    cases h : s.rdy with
    | true =>
      have hf : firstError (initChecks s) = some .preconditionError := by rw [firstError_init, h]; rfl
      exact .inl ⟨_, rfl, by simp [accept, initialise, guarded_error hf], by simp [initialise, guarded_error hf],
        by simp [initialise, guarded_error hf], by simp [initialise, guarded_error hf],
        by simp [initialise, guarded_error hf]⟩
    | false =>
      exact .inr (.inl ⟨rfl, rfl, guarded_pass (by rw [firstError_init, h]; rfl)⟩)
  case setint level =>
    rcases hf : firstError (setintChecks level s) with _ | e
    · refine .inr (.inr (.inl ⟨level, rfl, ?_, ?_, guarded_pass hf⟩))
      all_goals
        rw [firstError_setint] at hf
        split at hf
        · split at hf <;> simp_all
        · cases hf
    · exact .inl ⟨_, rfl, by simp [accept, setIntensity, guarded_error hf], by simp [setIntensity, guarded_error hf],
        by simp [setIntensity, guarded_error hf], by simp [setIntensity, guarded_error hf],
        by simp [setIntensity, guarded_error hf]⟩
  case render p =>
    cases h : s.rdy with
    | false =>
      have hf : firstError [readyCheck s] = some .preconditionError := by rw [firstError_ready, h]; rfl
      exact .inl ⟨_, rfl, by simp [accept, renderFrame, guarded_error hf], by simp [renderFrame, guarded_error hf],
        by simp [renderFrame, guarded_error hf], by simp [renderFrame, guarded_error hf],
        by simp [renderFrame, guarded_error hf]⟩
    | true =>
      exact .inr (.inr (.inr ⟨p, rfl, rfl, guarded_pass (by rw [firstError_ready, h]; rfl)⟩))
  case setbrt x y level => exact .inl ⟨_, rfl, rfl, hcell fun s => ⟨rfl, rfl, rfl, rfl⟩⟩
  case pixwr x y v => exact .inl ⟨_, rfl, rfl, hcell fun s => ⟨rfl, rfl, rfl, rfl⟩⟩
  case pixrd x y => exact .inl ⟨_, rfl, rfl, hcell fun s => ⟨rfl, rfl, rfl, rfl⟩⟩
  case fill v =>
    refine .inl ⟨_, rfl, rfl, ?_⟩
    show (fillPixels v s).cs = _ ∧ _
    rcases guarded_cases [readyCheck s] (fun s => respondOk (fillPix v s)) s with ⟨e, -, he⟩ | ⟨-, he⟩ <;>
      · unfold fillPixels; rw [he]; exact ⟨rfl, rfl, rfl, rfl⟩
  all_goals exact .inl ⟨_, rfl, rfl, rfl, rfl, rfl, rfl⟩

/-- How an operation in progress goes on by one small step. -/
inductive OperationCase (s t : State) : Prop where
  | open (hc : s.cs = .deasserted) (h : t = openNext s)
  | close (hc : s.cs = .asserted) (hf : s.frames = []) (h : t = closeNext s)
  | lost (hc : s.cs = .asserted) (hp : s.pos = .idle) (h : t = s)
  | pair (w : Frame) (rest : List Frame) (op : Op) (n : Fin 5) (y : Fin 8) (m : Nat) (hc : s.cs = .asserted)
      (hf : s.frames = w :: rest) (hp : s.pos = .active op n y m 15)
      (h : t = sendPair (frameAddr w) (frameData w) s)
  | finish (w : Frame) (rest : List Frame) (op : Op) (n : Fin 5) (y : Fin 8) (m : Nat) (k : Fin 16)
      (hc : s.cs = .asserted) (hf : s.frames = w :: rest) (hp : s.pos = .active op n y m k) (hk : k.val ≠ 15)
      (h : t = finishPair w k s)

/-- What one step of a state can be. A busy engine goes on with its operation as if no input came, whether the
queue is empty, holds a command it does not accept, or gives it a `wait`, which is consumed. -/
inductive StepCase (s t : State) : Prop where
  | idle (hb : s.busy = false) (hi : s.inputs = []) (h : t = s)
  | command (w : HostWord) (rest : List Input) (hb : s.busy = false) (hi : s.inputs = .command w :: rest)
      (h : exec (decodeHost w) (popInput s) = .next t)
  | start (w : HostWord) (rest : List Input) (hb : s.busy = false) (hi : s.inputs = .start w :: rest)
      (h : t = accept (decodeHost w) (popInput s))
  | idleInput (rest : List Input) (hb : s.busy = false) (hi : s.inputs = .pulse :: rest ∨ s.inputs = .wait :: rest)
      (h : t = popInput s)
  | reset (rest : List Input) (hi : s.inputs = .reset :: rest) (h : t = resetEngine (popInput s))
  | busyPulse (rest : List Input) (hb : s.busy = true) (hi : s.inputs = .pulse :: rest) (h : t = pulse (popInput s))
  | operation (i : List Input) (hb : s.busy = true)
      (hi : (i = s.inputs ∧ s.inputs.head? ≠ some .reset) ∨ s.inputs = .wait :: i)
      (h : OperationCase { s with inputs := i } t)

theorem fin16_eq {k : Fin 16} (h : k.val = 15) : k = 15 := Fin.ext h

/-- The cases of an operation that goes on. -/
theorem fetchOperation_cases {s t : State}
    (h : (match fetchOperation s with
      | .run i s' => exec i s'
      | .go s' => Host.Outcome.next s') = .next t) : OperationCase s t := by
  unfold fetchOperation at h
  cases hc : s.cs with
  | deasserted => simp only [hc] at h; exact .open hc (Host.Outcome.next.inj h).symm
  | asserted =>
    rcases hf : s.frames with _ | ⟨w, rest⟩ <;> simp only [hc, hf, fetchPair] at h
    · exact .close hc hf (Host.Outcome.next.inj h).symm
    · rcases hp : s.pos with _ | ⟨op, n, y, m, k⟩ <;> simp only [hp] at h
      · exact .lost hc hp (Host.Outcome.next.inj h).symm
      · by_cases hk : k.val = 15
        · obtain rfl := fin16_eq hk
          rcases hd : decodeFrame w with _ | i <;> simp only [hk, if_true, hd] at h
          · exact .pair w rest op n y m hc hf hp (Host.Outcome.next.inj h).symm
          · rw [exec_of_framePair (framePair_of_decodeFrame hd)] at h
            simp only [execPair, hc] at h
            exact .pair w rest op n y m hc hf hp (Host.Outcome.next.inj h).symm
        · simp only [hk, if_false] at h
          exact .finish w rest op n y m k hc hf hp hk (Host.Outcome.next.inj h).symm

/-- The cases of a step that answers `t`. -/
theorem step_cases {s t : State} (h : step s = .next t) : StepCase s t := by
  unfold step fetch at h
  cases hb : s.busy with
  | false =>
    simp only [hb, Bool.false_eq_true, if_false, fetchIdle] at h
    rcases hi : s.inputs with _ | ⟨_ | _ | _ | _ | _, rest⟩ <;> simp only [hi] at h
    · exact .idle hb hi (Host.Outcome.next.inj h).symm
    · exact .command _ rest hb hi h
    · exact .start _ rest hb hi (Host.Outcome.next.inj h).symm
    · exact .idleInput rest hb (.inr hi) (Host.Outcome.next.inj h).symm
    · exact .idleInput rest hb (.inl hi) (Host.Outcome.next.inj h).symm
    · exact .reset rest hi (Host.Outcome.next.inj h).symm
  | true =>
    simp only [hb, if_true, fetchBusy] at h
    rcases hi : s.inputs with _ | ⟨_ | _ | _ | _ | _, rest⟩ <;> simp only [hi] at h
    · exact .operation s.inputs hb (.inl ⟨rfl, by simp [hi]⟩) (fetchOperation_cases h)
    · exact .operation s.inputs hb (.inl ⟨rfl, by simp [hi]⟩) (fetchOperation_cases h)
    · exact .operation s.inputs hb (.inl ⟨rfl, by simp [hi]⟩) (fetchOperation_cases h)
    · refine .operation rest hb (.inr hi) (fetchOperation_cases ?_)
      rw [popInput, hi] at h
      exact h
    · exact .busyPulse rest hb hi (Host.Outcome.next.inj h).symm
    · exact .reset rest hi (Host.Outcome.next.inj h).symm

end Sys2Proof.Machine
end

