-- ==== Sys2Proof/Laws/SmallStep.lean ====
section
/-! SUPPORT. What each small step can do, and what a whole host operation leaves for the invariants. -/

namespace Sys2Proof.Machine

/-! ## Fields of the small steps -/

/-- A change of the bit index of `POS` changes nothing else. -/
theorem setBit_of_active {s : State} {op : Op} {n : Fin 5} {y : Fin 8} {m : Nat} {k : Fin 16} (k' : Fin 16)
    (h : s.pos = .active op n y m k) : setBit k' s = { s with pos := .active op n y m k' } := by
  simp only [setBit, h]

/-- What the bits `k` down to 0 of a pair leave, with the end of the pair. -/
structure FinishSpec (w : Frame) (k : Fin 16) (s t : State) : Prop where
  inst : t.inst = s.inst
  rdy : t.rdy = s.rdy
  pix : t.pix = s.pix
  brt : t.brt = s.brt
  cs : t.cs = s.cs
  sck : t.sck = false
  pos : t.pos = nextPair s.frames.tail s.pos
  busy : t.busy = s.busy
  trace : t.trace = s.trace ++ [.p (frameAddr w) (frameData w)]
  wire : t.wire = s.wire ++ (lowBits s.sr (k.val + 1)).map .bit
  responses : t.responses = s.responses
  frames : t.frames = s.frames.tail
  inputs : t.inputs = s.inputs

theorem finishPair_spec (w : Frame) (k : Fin 16) (s : State) : FinishSpec w k s (finishPair w k s) := by
  unfold finishPair
  have hu := shiftOut_untouched s.sr (k.val + 1) s
  obtain ⟨hw, ht, hc, -, -, -⟩ := shiftOut_spec s.sr (k.val + 1) s
  obtain ⟨hk, -⟩ := shiftOut_lines s.sr k.val s
  generalize shiftOut s.sr (k.val + 1) s = u at *
  constructor <;>
    simp [hu.inst, hu.rdy, hu.pix, hu.brt, hu.pos, hu.busy, hu.responses, hu.frames, hu.inputs, hw, ht, hc, hk]

/-- Opening the bracket at `POS`: nothing happens off an active position. -/
theorem openNext_cases (s : State) :
    (s.pos = .idle ∧ openNext s = s) ∨
    ∃ op i y m k, s.pos = .active op i y m k ∧ openNext s =
      openBracket { s with pos := .active op i y 0 15, frames := bracketFrames (bracketAt s op i y) } := by
  unfold openNext
  rcases hp : s.pos with _ | ⟨op, i, y, m, k⟩
  · exact .inl ⟨rfl, rfl⟩
  · exact .inr ⟨op, i, y, m, k, rfl, rfl⟩

/-- Closing a bracket: the next bracket follows, or the operation ends with `OK`. -/
theorem closeNext_cases (s : State) :
    (s.pos = .idle ∧ closeNext s = s) ∨
    (∃ op i y m k p, s.pos = .active op i y m k ∧ nextBracket op i y = some p ∧
      closeNext s = closeBracket { s with pos := p }) ∨
    (∃ op i y m k, s.pos = .active op i y m k ∧ nextBracket op i y = none ∧
      closeNext s = respond .ok false (onSuccess op (closeBracket s))) := by
  unfold closeNext
  rcases hp : s.pos with _ | ⟨op, i, y, m, k⟩
  · exact .inl ⟨rfl, rfl⟩
  · rcases hn : nextBracket op i y with _ | p
    · exact .inr (.inr ⟨op, i, y, m, k, rfl, hn, by simp only [hn]; rfl⟩)
    · exact .inr (.inl ⟨op, i, y, m, k, p, rfl, hn, by simp only [hn]⟩)

/-- The end of an operation changes `RDY` at most. -/
theorem onSuccess_eq (op : Op) (s : State) :
    (op = .init ∧ onSuccess op s = setReady s) ∨ (op ≠ .init ∧ onSuccess op s = s) := by
  cases op with
  | init => exact .inl ⟨rfl, rfl⟩
  | setint level => exact .inr ⟨nofun, rfl⟩
  | render p => exact .inr ⟨nofun, rfl⟩

/-- A pair as a step: written and passed, or failed with its operation. -/
theorem sendPair_cases (a d : Byte) (s : State) :
    (answer s s.drawn = .ok ∧ (pair a d s).2 = .ok ∧ sendPair a d s = advancePair (pair a d s).1) ∨
    (answer s s.drawn = .fail ∧ (pair a d s).2 = .fail ∧
      sendPair a d s = respond .transmissionError false (closeBracket (pair a d s).1)) := by
  cases h : answer s s.drawn with
  | ok => left; unfold sendPair; rw [pair_of_ok h]; exact ⟨rfl, rfl, rfl⟩
  | fail => right; unfold sendPair; rw [pair_of_fail h]; exact ⟨rfl, rfl, rfl⟩

/-- The first clock pulse of a pair whose draw is `ok`: bit 15. -/
theorem firstPulse_ok {w : Frame} {s : State} {op : Op} {n : Fin 5} {y : Fin 8} {m : Nat} {k : Fin 16}
    (hp : s.pos = .active op n y m k) (ha : answer s s.drawn = .ok) :
    firstPulse w s = { shiftBit (w.getLsbD 15) (loadPair (frameAddr w) (frameData w) (draw s).1) with
      pos := .active op n y m 14 } := by
  have h : firstPulse w s = pulseBit w 15 (loadPair (frameAddr w) (frameData w) (draw s).1) := by
    simp [firstPulse, draw, ha]
  have hsr : (loadPair (frameAddr w) (frameData w) (draw s).1).sr = w := by simp
  have hb : ∀ u : State, pulseBit w 15 u = setBit 14 (shiftBit (u.sr.getLsbD 15) u) := fun _ => rfl
  rw [h, hb, hsr]
  exact setBit_of_active (s := shiftBit _ (loadPair _ _ (draw s).1)) 14 hp

/-- What one clock pulse can do. -/
inductive PulseCase (s t : State) : Prop where
  | none (hn : ¬(s.cs = .asserted ∧ s.frames ≠ [] ∧ s.pos ≠ .idle)) (h : t = s)
  | failed (w : Frame) (rest : List Frame) (op : Op) (n : Fin 5) (y : Fin 8) (m : Nat) (hc : s.cs = .asserted)
      (hf : s.frames = w :: rest) (hp : s.pos = .active op n y m 15) (ha : answer s s.drawn = .fail)
      (h : t = respond .transmissionError false
        (closeBracket (pairFailed (frameAddr w) (frameData w) (draw s).1)))
  | first (w : Frame) (rest : List Frame) (op : Op) (n : Fin 5) (y : Fin 8) (m : Nat) (hc : s.cs = .asserted)
      (hf : s.frames = w :: rest) (hp : s.pos = .active op n y m 15) (ha : answer s s.drawn = .ok)
      (h : t = { shiftBit (w.getLsbD 15) (loadPair (frameAddr w) (frameData w) (draw s).1) with
        pos := .active op n y m 14 })
  | next (w : Frame) (rest : List Frame) (op : Op) (n : Fin 5) (y : Fin 8) (m : Nat) (k : Fin 16)
      (hc : s.cs = .asserted) (hf : s.frames = w :: rest) (hp : s.pos = .active op n y m k) (h0 : k.val ≠ 0)
      (hk : k.val ≠ 15) (h : t = { shiftBit (s.sr.getLsbD k.val) s with pos := .active op n y m (k - 1) })
  | last (w : Frame) (rest : List Frame) (op : Op) (n : Fin 5) (y : Fin 8) (m : Nat) (hc : s.cs = .asserted)
      (hf : s.frames = w :: rest) (hp : s.pos = .active op n y m 0) (h : t = finishPair w 0 s)

theorem pulse_cases (s : State) : PulseCase s (pulse s) := by
  unfold pulse
  cases hc : s.cs with
  | deasserted => exact .none (by simp [hc]) rfl
  | asserted =>
    rcases hf : s.frames with _ | ⟨w, rest⟩
    · exact .none (by simp [hf]) rfl
    rcases hp : s.pos with _ | ⟨op, n, y, m, k⟩
    · exact .none (by simp [hp]) rfl
    simp only
    by_cases hk : k.val = 15
    · obtain rfl := fin16_eq hk
      cases ha : answer s s.drawn with
      | ok =>
        exact .first w rest op n y m hc hf hp ha (firstPulse_ok hp ha)
      | fail =>
        refine .failed w rest op n y m hc hf hp ha ?_
        simp only [firstPulse, draw, ha]
        rfl
    · rw [if_neg hk]
      unfold pulseBit
      by_cases h0 : k.val = 0
      · obtain rfl : k = 0 := Fin.ext h0
        exact .last w rest op n y m hc hf hp rfl
      · rw [if_neg h0]
        exact .next w rest op n y m k hc hf hp h0 hk (setBit_of_active (s := shiftBit _ s) _ hp)

/-! ## Runs -/

/-- One step of a run. -/
theorem run_succ (k : Nat) (s : State) :
    run (k + 1) s = match step s with
      | .next t => run k t
      | .fault r => .fault r
      | .refused r => .refused r := by
  have h := Host.Core.run.eq_2 core s k
  have he : core.step s = step s := rfl
  rw [he] at h
  show core.run (k + 1) s = _
  rw [h]
  cases step s <;> rfl

/-- A run takes its first step and goes on. -/
theorem run_of_next {k : Nat} {s t : State} (h : step s = .next t) : run (k + 1) s = run k t := by
  rw [run_succ, h]

/-- Two runs, one after the other. -/
theorem run_append {j k : Nat} {s t : State} (h : run j s = .next t) : run (j + k) s = run k t := by
  induction j generalizing s with
  | zero => cases h; rw [Nat.zero_add]
  | succ j ih =>
    rw [Nat.succ_add, run_succ]
    rw [run_succ] at h
    rcases hs : step s with u | r | r <;> rw [hs] at h
    · exact ih h
    · cases h
    · cases h

/-- A busy engine with nothing from the outside goes on with its operation. -/
theorem step_of_busy {s : State} (hb : s.busy = true) (hi : s.inputs = []) :
    step s = match fetchOperation s with
      | .run i s' => exec i s'
      | .go s' => .next s' := by
  unfold step fetch
  simp only [hb, if_true, fetchBusy, hi]
  all_goals rfl

/-- A pair not yet begun is sent, whether or not its frame is a row of the table. -/
theorem step_pair {s : State} {w : Frame} {rest : List Frame} {op : Op} {n : Fin 5} {y : Fin 8} {m : Nat}
    (hb : s.busy = true) (hi : s.inputs = []) (hc : s.cs = .asserted) (hf : s.frames = w :: rest)
    (hp : s.pos = .active op n y m 15) : step s = .next (sendPair (frameAddr w) (frameData w) s) := by
  rw [step_of_busy hb hi]
  simp only [fetchOperation, fetchPair, hc, hf, hp]
  rcases hd : decodeFrame w with _ | i
  · rfl
  · show exec i s = _
    rw [exec_of_framePair (framePair_of_decodeFrame hd)]
    simp only [execPair, hc]

/-! ## Histories -/

/-- Both histories of the wire only grew. -/
structure Grows (s t : State) : Prop where
  trace : ∃ new, t.trace = s.trace ++ new
  wire : ∃ new, t.wire = s.wire ++ new

theorem Grows.refl (s : State) : Grows s s := ⟨⟨[], by simp⟩, ⟨[], by simp⟩⟩

theorem Grows.trans {s t u : State} (h : Grows s t) (h' : Grows t u) : Grows s u := by
  obtain ⟨⟨a, ha⟩, b, hb⟩ := h
  obtain ⟨⟨a', ha'⟩, b', hb'⟩ := h'
  exact ⟨⟨a ++ a', by rw [ha', ha, List.append_assoc]⟩, b ++ b', by rw [hb', hb, List.append_assoc]⟩

theorem pair_grows (a d : Byte) (s : State) : Grows s (pair a d s).1 := by
  have h := pair_spec a d s
  cases hr : answer s s.drawn with
  | ok => exact ⟨⟨_, h.traceOk (h.answer.trans hr)⟩, _, h.wireOk (h.answer.trans hr)⟩
  | fail => rw [pair_of_fail hr]; exact ⟨⟨_, rfl⟩, _, rfl⟩

theorem sendPairs_grows (a : Byte) (dv : List Byte) (s : State) : Grows s (sendPairs a dv s).1 := by
  induction dv generalizing s with
  | nil => exact .refl s
  | cons d dv ih =>
    rw [sendPairs_cons]
    split
    · exact (pair_grows a d s).trans (ih _)
    · exact pair_grows a d s

theorem bracket_grows (b : Bracket) (s : State) : Grows s (bracket b s).1 := by
  have h : Grows s (openBracket s) := ⟨⟨_, rfl⟩, _, rfl⟩
  exact (h.trans (sendPairs_grows b.addr b.data _)).trans ⟨⟨_, rfl⟩, _, rfl⟩

theorem sendBrackets_grows (bs : List Bracket) (s : State) : Grows s (sendBrackets bs s).1 := by
  induction bs generalizing s with
  | nil => exact .refl s
  | cons b bs ih =>
    rw [sendBrackets_cons]
    split
    · exact (bracket_grows b s).trans (ih _)
    · exact bracket_grows b s

/-! ## Whole operations -/

/-- What every host operation leaves, whatever it answers. -/
structure HostEffect (s t : State) : Prop where
  inst : t.inst = s.inst
  inputs : t.inputs = s.inputs
  oracle : t.oracle = s.oracle
  busy : t.busy = false
  pos : t.pos = .idle
  frames : t.frames = []
  cs : s.cs = .deasserted → t.cs = .deasserted
  sck : s.sck = false → t.sck = false
  grows : Grows s t
  responses : ∃ r, t.responses = s.responses ++ [r]

theorem respond_effect (e : Status) (r : Bool) (s : State) : HostEffect s (respond e r s) :=
  ⟨rfl, rfl, rfl, rfl, rfl, rfl, id, id, ⟨⟨[], by simp⟩, ⟨[], by simp⟩⟩, ⟨_, rfl⟩⟩

theorem finish_effect {f : State → State} (hf : f = setReady ∨ f = id) (bs : List Bracket) (s : State) :
    HostEffect s (finish f (sendBrackets bs s)) := by
  obtain ⟨hu, hc, hk⟩ := sendBrackets_untouched bs s
  obtain ⟨ht, hw⟩ := sendBrackets_grows bs s
  have hr := hu.responses
  rcases finish_cases f (sendBrackets bs s) with ⟨-, h⟩ | ⟨-, h⟩ <;> rw [h]
  · rcases hf with rfl | rfl <;>
      exact ⟨hu.inst, hu.inputs, hu.oracle, rfl, rfl, rfl, hc, hk, ⟨ht, hw⟩, ⟨_, congrArg (· ++ _) hr⟩⟩
  · exact ⟨hu.inst, hu.inputs, hu.oracle, rfl, rfl, rfl, hc, hk, ⟨ht, hw⟩, ⟨_, congrArg (· ++ _) hr⟩⟩

theorem exec_host_effect {i : Instr} {s t : State} (hi : i.isHost = true) (h : exec i s = .next t) :
    HostEffect s t := by
  rcases exec_host_cases hi h with ⟨e, r, rfl⟩ | ⟨x, y, v, -, -, -, rfl⟩ | ⟨x, y, v, -, -, -, rfl⟩ |
    ⟨v, -, -, rfl⟩ | ⟨-, -, rfl⟩ | ⟨l, -, -, -, rfl⟩ | ⟨p, -, -, rfl⟩
  · exact respond_effect e r s
  · exact ⟨rfl, rfl, rfl, rfl, rfl, rfl, id, id, ⟨⟨[], by simp⟩, ⟨[], by simp⟩⟩, ⟨_, rfl⟩⟩
  · exact ⟨rfl, rfl, rfl, rfl, rfl, rfl, id, id, ⟨⟨[], by simp⟩, ⟨[], by simp⟩⟩, ⟨_, rfl⟩⟩
  · exact ⟨rfl, rfl, rfl, rfl, rfl, rfl, id, id, ⟨⟨[], by simp⟩, ⟨[], by simp⟩⟩, ⟨_, rfl⟩⟩
  · exact finish_effect (.inl rfl) _ s
  · exact finish_effect (.inr rfl) _ s
  · exact finish_effect (.inr rfl) _ s

/-- Acceptance in small steps: the whole operation off the wire, or the begin of one with legal operands. -/
theorem accept_host_cases (w : HostWord) (s : State) :
    (exec (decodeHost w) s = .next (accept (decodeHost w) s) ∧ (accept (decodeHost w) s).trace = s.trace ∧
      (accept (decodeHost w) s).wire = s.wire ∧ (accept (decodeHost w) s).cs = s.cs) ∨
    ∃ op, accept (decodeHost w) s = begin op s ∧ ∀ l, op = .setint l → levelInRange l = true := by
  rcases accept_cases (decodeHost_isHost w) s with ⟨t, h1, h2, h3, -, h5, h6⟩ | ⟨-, -, h⟩ | ⟨l, -, hl, -, h⟩ |
    ⟨p, -, -, h⟩
  · subst h2; exact .inl ⟨h1, h5, h6, h3⟩
  · exact .inr ⟨_, h, nofun⟩
  · exact .inr ⟨_, h, by rintro _ ⟨⟩; exact hl⟩
  · exact .inr ⟨_, h, nofun⟩

/-- Acceptance never changes `RDY`. -/
theorem accept_rdy (i : Instr) (s : State) : (accept i s).rdy = s.rdy := by
  have hg : ∀ c body, (∀ s : State, (body s : State).rdy = s.rdy) → (guarded c body s).rdy = s.rdy := by
    intro c body hb
    rcases guarded_cases c body s with ⟨e, -, h⟩ | ⟨-, h⟩ <;> rw [h]
    · rfl
    · exact hb s
  cases i <;> first | rfl | exact hg _ _ fun _ => rfl

end Sys2Proof.Machine
end

