-- ==== Sys2Proof/Laws/Trace.lean ====
section
/-! SUPPORT. What whole, failed and partial brackets do to the two readers of the trace: the scan of R74 and
the chip registers of Machine/Chips.lean. -/

namespace Sys2Proof.Machine

/-! ## The scan -/

/-- Two pieces of a trace, one after the other. -/
theorem scanEvents_append (cuts : Bool) (n : Nat) (q : Scan) (t u : List Event) :
    scanEvents cuts n q (t ++ u) = (scanEvents cuts n q t).bind fun q' => scanEvents cuts n q' u := by
  induction t generalizing q with
  | nil => rfl
  | cons e t ih =>
    simp only [List.cons_append, scanEvents]
    split
    · exact ih _
    · rfl

/-- Written pairs inside a bracket. -/
theorem scanEvents_pairs {n j : Nat} (cuts : Bool) (a : Byte) (dv : List Byte) (h : j + dv.length ≤ n) :
    scanEvents cuts n (.inside j) (dv.map (.p a)) = some (.inside (j + dv.length)) := by
  induction dv generalizing j with
  | nil => rfl
  | cons d dv ih =>
    rw [List.length_cons] at h ⊢
    simp only [List.map_cons, scanEvents, scanEvent, if_pos (show j < n by omega)]
    rw [ih (by omega), Nat.add_assoc, Nat.add_comm 1]

/-! ## The chip registers -/

/-- Written pairs of one address, as the chips' reader sees them. -/
theorem chipEvent_pairs (n m : Nat) (a b : Byte) (dv : List Byte) (v : ChipView) :
    (dv.map (.p b)).foldl (chipEvent n m a) v = { v with pairs := v.pairs ++ dv.map fun d => (b, d) } := by
  induction dv generalizing v with
  | nil => simp
  | cons d dv ih => rw [List.map_cons, List.foldl_cons, ih]; simp [chipEvent]

/-- A whole bracket writes its register of module `m` and no other (R41). -/
theorem chipRegister_bracket {n m : Nat} (a : Byte) {b : Bracket} (hb : b.data.length = n) (hm : m < n)
    (t : List Event) : chipRegister n m a (t ++ bracketTrace b) =
      if b.addr = a then b.data[m]? else chipRegister n m a t := by
  unfold chipRegister
  rw [List.foldl_append]
  simp only [bracketTrace, List.cons_append, List.foldl_cons, List.foldl_append, chipEvent_pairs]
  simp only [chipEvent, latchBracket, List.foldl_nil, List.nil_append, List.length_map, hb,
    if_true, List.getElem?_map, List.getElem?_eq_getElem (show m < b.data.length by omega)]
  simp [latchPair]

/-- A failed bracket leaves unknown what its operation could have written, and the rest as it was (R150, U3). -/
theorem chipRegister_failed (n m : Nat) (a : Byte) {b : Bracket} {j : Nat} (hj : j < b.data.length)
    (t : List Event) : chipRegister n m a (t ++ failedTrace b j) =
      if a ∈ unknownAfterFailure b.addr then none else chipRegister n m a t := by
  unfold chipRegister
  rw [List.foldl_append]
  simp only [failedTrace, List.cons_append, List.foldl_cons, List.foldl_append, chipEvent_pairs,
    List.getElem?_eq_getElem hj]
  simp [chipEvent, latchBracket]

end Sys2Proof.Machine
end

