-- ==== Sys2Proof/Tests/Slice0.lean ====
section
/-! SUPPORT. The model's own tests. Expected results come from spec/95_test_vectors.md and from words written
out by hand from spec/30_encoding.md; the source of each is in its comment. -/

namespace Sys2Proof.Tests

open Sys2Proof Sys2Proof.Machine

/-! ## Helpers -/

/-- An engine of `n` modules with a given mode, lifecycle state and list of draws. -/
def engine (n : Nat) (bright ready : Bool) (draws : List Draw) : State :=
  { State.resetOf ⟨n, bright⟩ with rdy := ready, oracle := draws }

/-- `k` draws `ok`, then one that fails. -/
def failAt (k : Nat) : List Draw := List.replicate k .ok ++ [Draw.fail]

/-- `k` draws `ok`. -/
def oks (k : Nat) : List Draw := List.replicate k .ok

/-- The trace after a step. -/
def traceOf : Host.Outcome State Fault Refusal → Option (List Event)
  | .next t => some t.trace
  | _ => none

/-- The responses after a step. -/
def responsesOf : Host.Outcome State Fault Refusal → Option (List Response)
  | .next t => some t.responses
  | _ => none

/-- One fact about the state after a step. -/
def holdsAfter (o : Host.Outcome State Fault Refusal) (p : State → Bool) : Bool :=
  match o with
  | .next t => p t
  | _ => false

/-- The events of a bracket of written pairs. -/
def whole (a : Byte) (ds : List Byte) : List Event := .a :: ds.map (.p a) ++ [.d]

/-! ## Decoding: a word for every constructor (R52 to R59) -/

-- R57: op in bits 31:28, x in 27:16, y in 15:8, v in 7:0
theorem test_word_init : decodeTableWord 32 0x10000000 = some .init := by decide
theorem test_word_setint : decodeTableWord 32 0x20000005 = some (.setint 5) := by decide
theorem test_word_setbrt : decodeTableWord 32 0x30090763 = some (.setbrt 9 7 99) := by decide
theorem test_word_render : decodeTableWord 32 0x40000080 = some (.render (-128)) := by decide
theorem test_word_pixwr : decodeTableWord 32 0x50030201 = some (.pixwr 3 2 true) := by decide
theorem test_word_pixrd : decodeTableWord 32 0x60170700 = some (.pixrd 23 7) := by decide
theorem test_word_fill : decodeTableWord 32 0x70000001 = some (.fill true) := by decide
-- R59: op 0x0 and 0x8 to 0xF are reserved
theorem test_word_reserved0 : decodeTableWord 32 0x00000000 = some .reserved0 := by decide
theorem test_word_reserved8 : decodeTableWord 32 0x80000000 = some .reserved8 := by decide
theorem test_word_reserved9 : decodeTableWord 32 0x90000000 = some .reserved9 := by decide
theorem test_word_reservedA : decodeTableWord 32 0xA0000000 = some .reservedA := by decide
theorem test_word_reservedB : decodeTableWord 32 0xB0000000 = some .reservedB := by decide
theorem test_word_reservedC : decodeTableWord 32 0xC0000000 = some .reservedC := by decide
theorem test_word_reservedD : decodeTableWord 32 0xD0000000 = some .reservedD := by decide
theorem test_word_reservedE : decodeTableWord 32 0xE0000000 = some .reservedE := by decide
theorem test_word_reservedF : decodeTableWord 32 0xFFFFFFFF = some .reservedF := by decide
-- R54: addr = 0x01 + y in bits 15:8, data in 7:0
theorem test_word_wDigit0 : decodeTableWord 16 0x01FF = some (.wDigit0 0xFF) := by decide
theorem test_word_wDigit1 : decodeTableWord 16 0x0200 = some (.wDigit1 0x00) := by decide
theorem test_word_wDigit2 : decodeTableWord 16 0x0308 = some (.wDigit2 0x08) := by decide
theorem test_word_wDigit3 : decodeTableWord 16 0x04FE = some (.wDigit3 0xFE) := by decide
theorem test_word_wDigit4 : decodeTableWord 16 0x0501 = some (.wDigit4 0x01) := by decide
theorem test_word_wDigit5 : decodeTableWord 16 0x0610 = some (.wDigit5 0x10) := by decide
theorem test_word_wDigit6 : decodeTableWord 16 0x0742 = some (.wDigit6 0x42) := by decide
theorem test_word_wDigit7 : decodeTableWord 16 0x0880 = some (.wDigit7 0x80) := by decide
-- R52, R53
theorem test_word_wDecode : decodeTableWord 16 0x0900 = some .wDecode := by decide
theorem test_word_wIntensity : decodeTableWord 16 0x0A0F = some (.wIntensity 15) := by decide
theorem test_word_wScanlimit : decodeTableWord 16 0x0B07 = some .wScanlimit := by decide
theorem test_word_wShutdown0 : decodeTableWord 16 0x0C00 = some .wShutdown0 := by decide
theorem test_word_wShutdown1 : decodeTableWord 16 0x0C01 = some .wShutdown1 := by decide
theorem test_word_wDisptest : decodeTableWord 16 0x0F00 = some .wDisptest := by decide

-- R59, V-IN6, V-D5, V-B6, V-B7: ignored fields
theorem test_word_ignored_init : decodeTableWord 32 0x1ABCDEF0 = some .init := by decide
theorem test_word_ignored_render : decodeTableWord 32 0x4FFFFF05 = some (.render 5) := by decide
theorem test_word_ignored_pixwr : decodeTableWord 32 0x500302FE = some (.pixwr 3 2 false) := by decide

-- R55: frames the engine never emits
theorem test_reserved_frames :
    [0x0012, 0x0901, 0x0A10, 0x0B06, 0x0C02, 0x0D00, 0x0E00, 0x0F01, 0x1000, 0xFFFF].map
      (fun w => decodeFrame (BitVec.ofNat 16 w)) = List.replicate 10 (.error .reservedFrame) := by decide

-- R50: there are no other lengths
theorem test_no_other_length : [0, 8, 15, 17, 24, 31, 33, 64].map (fun n => decodeBits n 0) =
    List.replicate 8 (.error .noSuchFormat) := by decide

-- R60, V-D8
theorem test_response_words :
    [Response.mk .ok false, ⟨.ok, true⟩, ⟨.configurationError, false⟩, ⟨.transmissionError, false⟩,
      ⟨.preconditionError, false⟩, ⟨.addressError, false⟩, ⟨.illegalCommand, false⟩].map encodeResponse =
      [0x00, 0x10, 0x01, 0x02, 0x03, 0x04, 0x05] := by decide

-- R61: written forms
theorem test_line_setbrt : assemblyLine (.setbrt 9 7 (-1)) = some "SETBRT 9, 7, -1" := by decide
theorem test_line_frame : assemblyLine (.wDigit2 0x08) = some "P(03,08)" := by decide
theorem test_event_text : [Event.a, .p 0x01 0x00, .f 0x0A 0x0F, .d].map eventText =
    ["A", "P(01,00)", "F(0A,0F)", "D"] := by decide

-- R62
theorem test_pseudo_setpix : Pseudo.expand (.setpix 3 2) = [.pixwr 3 2 true] := by decide
theorem test_pseudo_pwmcycle : Pseudo.expand (.pwmcycle 3) = [.render 0, .render 1, .render 2] := by decide

/-! ## Well-formedness: an ill-formed term for each check -/

theorem test_wf_setint : Instr.wf (.setint 127) = true ∧ Instr.wf (.setint 128) = false ∧
    Instr.wf (.setint (-129)) = false := by decide
theorem test_wf_setbrt_x : Instr.wf (.setbrt 4095 255 (-128)) = true ∧ Instr.wf (.setbrt 4096 0 0) = false := by decide
theorem test_wf_setbrt_y : Instr.wf (.setbrt 0 256 0) = false := by decide
theorem test_wf_setbrt_level : Instr.wf (.setbrt 0 0 128) = false ∧ Instr.wf (.setbrt 0 0 (-129)) = false := by decide
theorem test_wf_render : Instr.wf (.render (-129)) = false ∧ Instr.wf (.render 128) = false := by decide
theorem test_wf_pixwr : Instr.wf (.pixwr 4096 0 true) = false ∧ Instr.wf (.pixwr 0 256 true) = false := by decide
theorem test_wf_pixrd : Instr.wf (.pixrd 4096 0) = false ∧ Instr.wf (.pixrd 0 256) = false := by decide

/-! ## One step of each instruction -/

-- V-IN1, V-IN4
theorem test_init : traceOf (exec .init (engine 1 false false (oks 5))) =
    some (whole 0x0C [0x00] ++ whole 0x0F [0x00] ++ whole 0x0B [0x07] ++ whole 0x09 [0x00] ++ whole 0x0C [0x01]) := by
  decide
theorem test_init_fails : holdsAfter (exec .init (engine 1 false false (failAt 4))) (fun t =>
    decide (t.trace = whole 0x0C [0x00] ++ whole 0x0F [0x00] ++ whole 0x0B [0x07] ++ whole 0x09 [0x00] ++
      [.a, .f 0x0C 0x01, .d]) && !t.rdy) = true := by decide

-- V-SI1, V-SI5
theorem test_setint : traceOf (exec (.setint 5) (engine 2 false true (oks 2))) = some (whole 0x0A [0x05, 0x05]) := by
  decide
theorem test_setint_range_first : responsesOf (exec (.setint 16) (engine 1 false false [])) =
    some [⟨.configurationError, false⟩] := by decide

-- V-B21, V-B22
theorem test_setbrt_sixteen : holdsAfter (exec (.setbrt 9 7 16) (engine 2 false true []))
    (fun t => readBrt t 9 7 == 15) = true := by decide
theorem test_setbrt_stores : holdsAfter (exec (.setbrt 9 7 3) (engine 2 false true []))
    (fun t => readBrt t 9 7 == 3 && readBrt t 7 9 == 15 && readBrt t 8 7 == 15) = true := by decide

-- V-RE6: column 8 is bit 0 of module 1; V-RE12: strict comparison
set_option maxRecDepth 2000 in
theorem test_render_binary :
    holdsAfter (exec (.render 0) { engine 2 false true (oks 16) with pix := [(64, true)] }) (fun t =>
      decide (t.trace.take 8 = whole 0x01 [0x00, 0x01] ++ whole 0x02 [0x00, 0x00]) &&
        decide (t.trace.length = 32)) = true := by decide
theorem test_render_strict :
    rowByte { engine 1 true true [] with
      brt := [(0, 0), (8, 1), (16, 2), (24, 3), (32, 4), (40, 5), (48, 6), (56, 7)] } 0 0 3 = 0xF0 := by decide

-- V-B2, V-B9
theorem test_pixwr : holdsAfter (exec (.pixwr 15 7 true) (engine 2 false true []))
    (fun t => readPix t 15 7 && !readPix t 7 15 && !readPix t 14 7 && !readPix t 15 6) = true := by decide
theorem test_pixwr_address_first : responsesOf (exec (.pixwr 16 0 true) (engine 2 false false [])) =
    some [⟨.addressError, false⟩] := by decide

-- V-B10, V-B13
theorem test_pixrd : responsesOf (exec (.pixrd 3 2) { engine 2 false true [] with pix := [(26, true)] }) =
    some [⟨.ok, true⟩] := by decide
theorem test_pixrd_not_ready : responsesOf (exec (.pixrd 0 0) (engine 2 false false [])) =
    some [⟨.preconditionError, false⟩] := by decide

-- V-B14, V-B16
theorem test_fill : holdsAfter (exec (.fill true) (engine 1 false true []))
    (fun t => readPix t 0 0 && readPix t 7 7 && readPix t 7 0 && readBrt t 0 0 == 15) = true := by decide
theorem test_fill_not_ready : responsesOf (exec (.fill true) (engine 1 false false [])) =
    some [⟨.preconditionError, false⟩] := by decide

-- V-D1, V-D2, V-D4: reserved codes, whatever the lifecycle state
theorem test_reserved : ∀ i ∈ [Instr.reserved0, .reserved8, .reserved9, .reservedA, .reservedB, .reservedC,
    .reservedD, .reservedE, .reservedF],
    responsesOf (exec i (engine 1 false false [])) = some [⟨.illegalCommand, false⟩] := by decide

/-- An engine inside a bracket, before a pair. -/
def inBracket (draws : List Draw) : State :=
  { engine 2 false true draws with
    busy := true, cs := .asserted, pos := .active (.render 0) 0 2 0 15, frames := [0x0308, 0x03F0] }

-- V-T8 to V-T12: the bits of a pair on SDO, in order
theorem test_bits_wDigit7 : holdsAfter (exec (.wDigit7 0x80) (inBracket [.ok])) (fun t =>
    decide (t.wire = [false, false, false, false, true, false, false, false, true, false, false, false, false,
      false, false, false].map BitEvent.bit)) = true := by decide
theorem test_bits_wScanlimit : holdsAfter (exec .wScanlimit (inBracket [.ok])) (fun t =>
    decide (t.wire = [false, false, false, false, true, false, true, true, false, false, false, false, false,
      true, true, true].map BitEvent.bit)) = true := by decide

-- R52 to R54, R70: the pair each wire frame writes
theorem test_pairs : [Instr.wDigit0 1, .wDigit1 2, .wDigit2 3, .wDigit3 4, .wDigit4 5, .wDigit5 6, .wDigit6 7,
    .wDigit7 8, .wDecode, .wIntensity 9, .wScanlimit, .wShutdown0, .wShutdown1, .wDisptest].map
      (fun i => traceOf (exec i (inBracket [.ok]))) =
    [Event.p 0x01 1, .p 0x02 2, .p 0x03 3, .p 0x04 4, .p 0x05 5, .p 0x06 6, .p 0x07 7, .p 0x08 8, .p 0x09 0x00,
      .p 0x0A 9, .p 0x0B 0x07, .p 0x0C 0x00, .p 0x0C 0x01, .p 0x0F 0x00].map (fun e => some [e]) := by decide

-- R16, R71: after the last pair of a bracket POS stays at it, chip-select still asserted; a reset then cuts a
-- bracket of N whole pairs (R141)
theorem test_last_pair : holdsAfter (exec (.wDigit2 0xF0)
    { inBracket [.ok] with frames := [0x03F0], pos := .active (.render 0) 0 2 1 15 }) (fun t =>
      decide (t.pos = .active (.render 0) 0 2 1 0) && decide (t.cs = .asserted) && decide (t.frames = [])) = true := by
  decide

-- R4: the largest engine that command words can address, and the least that they cannot
theorem test_legal_for_host : Config.legalForHost ⟨512, true⟩ = true ∧ Config.legalForHost ⟨513, true⟩ = false ∧
    Config.legalForHost ⟨0, true⟩ = false := by decide

-- R105, U3: a RENDER of two modules that failed in row 1 leaves row 1 unknown, row 0 new, Intensity as it was;
-- U4: a bracket that a reset cuts leaves nothing known
theorem test_chip_after_failure :
    let t := whole 0x0A [0x05, 0x05] ++ whole 0x02 [0x77, 0x77] ++ whole 0x01 [0x11, 0x22] ++
      [.a, .p 0x02 0x33, .f 0x02 0x44, .d]
    [chipRegister 2 1 0x01 t, chipRegister 2 1 0x02 t, chipRegister 2 0 0x0A t] = [some 0x22, none, some 0x05] ∧
      chipRegister 2 0 0x0A (t ++ [.a, .p 0x03 0x00, .d]) = none := by decide

-- R72, V-T4: after a failed pair chip-select is released and nothing follows
theorem test_pair_fails : holdsAfter (exec (.wDigit2 0x08) (inBracket [.fail])) (fun t =>
    decide (t.trace = [.f 0x03 0x08, .d]) && decide (t.cs = .deasserted) && !t.busy &&
      decide (t.responses = [⟨.transmissionError, false⟩]) && decide (t.drawn = 1)) = true := by decide

-- V-RS2: a reset in the middle of a bracket
theorem test_reset_busy : holdsAfter (step { inBracket [] with inputs := [.reset], pix := [(26, true)] }) (fun t =>
    decide (t.trace = [.d]) && decide (t.responses = []) && !t.rdy && !t.busy && !readPix t 3 2) = true := by decide

-- R141, log entry 2: a queue fixed while the engine is idle brings a reset into an open bracket, after one whole
-- pair of two, and after one clock pulse of the first
theorem test_queue_reset_after_pair : holdsAfter (Machine.run 4 { engine 2 false true [.ok] with
    inputs := [.start 0x20000005, .wait, .wait, .reset] }) (fun t =>
      decide (t.trace = [.a, .p 0x0A 0x05, .d]) && decide (t.responses = []) && !t.busy) = true := by decide
theorem test_queue_reset_in_pair : holdsAfter (Machine.run 4 { engine 2 false true [.ok] with
    inputs := [.start 0x20000005, .wait, .pulse, .reset] }) (fun t =>
      decide (t.trace = [.a, .d]) && decide (t.wire = [.cs .asserted, .bit false, .cs .deasserted])) = true := by decide

-- V-RS1: a reset while idle puts nothing on the wire
theorem test_reset_idle : holdsAfter (step { engine 1 false true [] with inputs := [.reset], brt := [(0, 3)] })
    (fun t => decide (t.trace = []) && !t.rdy && readBrt t 0 0 == 15) = true := by decide

/-! ## A placed instruction is the next one to run -/

theorem test_place_reserved : holdsAfter (step (State.reset.withFetchWord 32 0x90000000))
    (fun t => decide (t.responses = [⟨.illegalCommand, false⟩])) = true := by decide
theorem test_place_render : holdsAfter (step (State.reset.withFetchWord 32 0x40000000))
    (fun t => decide (t.responses = [⟨.preconditionError, false⟩])) = true := by decide
theorem test_place_frame : fetch (State.reset.withFetchWord 16 0x0308) =
    .run (.wDigit2 0x08) (State.reset.withFetchWord 16 0x0308) := by rfl

/-! ## The opcode table -/

/-- One instruction of each HC row. -/
def hostRows : List Instr :=
  [.init, .setint 0, .setbrt 0 0 0, .render 0, .pixwr 0 0 true, .pixrd 0 0, .fill true, .reserved0, .reserved8,
    .reserved9, .reservedA, .reservedB, .reservedC, .reservedD, .reservedE, .reservedF]

/-- One instruction of each WF row. -/
def frameRows : List Instr :=
  [.wDigit0 0, .wDigit1 0, .wDigit2 0, .wDigit3 0, .wDigit4 0, .wDigit5 0, .wDigit6 0, .wDigit7 0, .wDecode,
    .wIntensity 0, .wScanlimit, .wShutdown0, .wShutdown1, .wDisptest]

/-- Two rows of one width differ in a bit that both fix. -/
def apart (r r' : OpcodeRow) : Bool := r.nbits != r'.nbits || ((r.word ^^^ r'.word) &&& r.mask &&& r'.mask) != 0

theorem test_rows_apart : ((hostRows ++ frameRows).map opcodeRow).Pairwise (fun r r' => apart r r' = true) := by decide

/-! ## Witnesses: a state and operands that meet all hypotheses of each statement of
Certificates/Slice0/Obligations.lean -/

/-- An idle engine in Ready whose next `k` draws are `ok`. -/
def ready (n : Nat) (bright : Bool) (k : Nat) : State := engine n bright true (oks k)

/-- An engine of one module inside the last bracket of `INIT`, its pair sent. -/
def initEnd : State :=
  { engine 1 false false [] with busy := true, cs := .asserted, pos := .active .init 4 0 0 0, trace := [.a, .p 0x0C 0x01] }

/-- The engine of `inBracket` after five clock pulses of its first pair. -/
def midPair : State :=
  { inBracket [] with
    pos := .active (.render 0) 0 2 0 10, sr := 0x0308, trace := [.a]
    wire := [.cs .asserted, .bit false, .bit false, .bit false, .bit false, .bit false] }

theorem witness_DecodeEncodeRoundTrip : Instr.wf (.setbrt 4095 255 (-128)) = true ∧ Instr.wf (.wDigit7 0xFF) = true := by
  decide

theorem witness_FrameDecodeExact : decodeFrame 0x0A0F = .ok (.wIntensity 15) ∧ neverEmitted 0x0A 0x0F = false ∧
    neverEmitted 0x0A 0x10 = true := by decide

-- one word for each op, and both ends of the signed field
theorem witness_HostWordFields : [0x10000000, 0x2000007F, 0x3FFFFF80, 0x40000000, 0x50000001, 0x6FFFFF00,
    0x70000000].map (fun w => (BitVec.ofNat 32 w).toNat / 2 ^ 28) = [1, 2, 3, 4, 5, 6, 7] := by decide

theorem witness_ReservedAndIgnoredFields :
    [0x0FFFFFFF, 0x80000000, 0xFFFFFFFF].map (fun w => (BitVec.ofNat 32 w).toNat / 2 ^ 28) = [0x0, 0x8, 0xF] ∧
    (0x1ABCDEF0 : Nat) / 2 ^ 28 = 0x10000000 / 2 ^ 28 ∧
    (0x2FFFFF05 : Nat) / 2 ^ 28 = 0x2 ∧ (0x2FFFFF05 : Nat) % 2 ^ 8 = 0x20000005 % 2 ^ 8 ∧
    (0x4FFFFF05 : Nat) / 2 ^ 28 = 0x4 ∧ (0x4FFFFF05 : Nat) % 2 ^ 8 = 0x40000005 % 2 ^ 8 ∧
    (0x7FFFFFFF : Nat) / 2 ^ 28 = 0x7 ∧ (0x7FFFFFFF : Nat) % 2 = 0x70000001 % 2 ∧
    (0x60030200 : Nat) / 2 ^ 28 = 0x6 ∧ (0x60030200 : Nat) / 2 ^ 8 = 0x600302FF / 2 ^ 8 ∧
    (0x500302FE : Nat) / 2 ^ 28 = 0x5 ∧ (0x500302FE : Nat) / 2 ^ 8 = 0x50030200 / 2 ^ 8 ∧
    (0x500302FE : Nat) % 2 = 0x50030200 % 2 := by decide

theorem witness_ResponseWord : Instr.isHost (.pixrd 3 2) = true ∧ Instr.isHost .reserved0 = true ∧
    responsesOf (exec (.pixrd 3 2) (ready 1 false 0)) = some [⟨.ok, false⟩] ∧
    responsesOf (exec (.pixrd 8 2) (ready 1 false 0)) = some [⟨.addressError, false⟩] := by decide

/-- An idle engine with one input. -/
def given (x : Input) (s : State) : State := { s with inputs := [x] }

theorem witness_StepRunsHostCommand : (given (.command 0x50030201) (ready 1 false 0)).busy = false ∧
    (given (.command 0x50030201) (ready 1 false 0)).inputs = .command 0x50030201 :: [] := by decide

theorem witness_StepRunsWireFrame : (inBracket []).busy = true ∧ (inBracket []).cs = .asserted ∧
    (inBracket []).frames = 0x0308 :: [0x03F0] ∧ (inBracket []).pos = .active (.render 0) 0 2 0 15 ∧
    (inBracket []).inputs.head? ≠ some .reset ∧ (inBracket []).inputs.head? ≠ some .pulse ∧
    decodeFrame 0x0308 = .ok (.wDigit2 0x08) ∧ (inBracket []).inputs.head? ≠ some .wait ∧
    (given .wait (inBracket [])).inputs.head? = some .wait := by decide

theorem witness_IdleEngineWaits : State.reset.busy = false ∧ State.reset.inputs = [] := by decide

theorem witness_BusyAcceptsNoCommand :
    (given (.command 0) (inBracket [])).busy = true ∧ (given (.command 0) (inBracket [])).inputs = .command 0 :: [] ∧
    (given (.start 0) (inBracket [])).busy = true ∧ (given (.start 0) (inBracket [])).inputs = .start 0 :: [] := by
  decide

theorem witness_InitSucceeds : (engine 2 false false (oks 10)).rdy = false ∧
    DrawsOk (engine 2 false false (oks 10)) (5 * (engine 2 false false (oks 10)).inst.modules) := by
  unfold DrawsOk; decide

theorem witness_SetintSucceeds : (0 : Int) ≤ 0 ∧ (15 : Int) ≤ 15 ∧ (ready 2 false 2).rdy = true ∧
    DrawsOk (ready 2 false 2) (ready 2 false 2).inst.modules := by unfold DrawsOk; decide

theorem witness_ConfigurationErrorOnlyFromSetint : ((-1 : Int) < 0 ∨ (15 : Int) < -1) ∧ ((16 : Int) < 0 ∨ (15 : Int) < 16) ∧
    responsesOf (exec (.setint (-1)) (engine 1 false false [])) = some [⟨.configurationError, false⟩] ∧
    responsesOf (exec (.setint 16) (ready 1 false 1)) = some [⟨.configurationError, false⟩] := by decide

-- levels on both sides of both bounds
theorem witness_LevelArithmetic : 7 < 8 * (ready 1 false 1).inst.modules ∧ 7 < 8 ∧ (ready 1 false 1).rdy = true ∧
    Memory.wf brtReset (ready 1 false 1).brt = true ∧ 1 ≤ (ready 1 false 1).inst.modules ∧
    ¬((0 : Int) ≤ -1 ∧ (-1 : Int) ≤ 15) ∧ ¬((0 : Int) ≤ 16 ∧ (16 : Int) ≤ 15) ∧ (0 : Int) ≤ 0 ∧ (15 : Int) ≤ 15 ∧
    [-1, 0, 15, 16].map (fun l : Int => (clamp15 l).toNat) = [15, 0, 15, 15] := by decide

-- the first draw and the last one that can fail
theorem witness_WireOperationFails :
    ((engine 1 false false [.fail]).rdy = false ∧ 0 < (initBrackets 1).length * 1 ∧
      FirstFailure (engine 1 false false [.fail]) 0) ∧
    ((engine 1 false false (failAt 4)).rdy = false ∧ 4 < (initBrackets 1).length * 1 ∧
      FirstFailure (engine 1 false false (failAt 4)) 4) ∧
    ((engine 2 false true [.ok, .fail]).rdy = true ∧ 1 < [setintBracket 2 15].length * 2 ∧
      FirstFailure (engine 2 false true [.ok, .fail]) 1) ∧
    ((engine 1 false true (failAt 7)).rdy = true ∧
      7 < (rowBrackets (engine 1 false true (failAt 7)) 0).length * 1 ∧
      FirstFailure (engine 1 false true (failAt 7)) 7) := by
  unfold FirstFailure DrawsOk; decide

theorem witness_WireOperationFails_only :
    responsesOf (exec (.setint 0) (engine 1 false true [.fail])) = some [⟨.transmissionError, false⟩] := by decide

theorem witness_WireCounts : responsesOf (exec .init (engine 1 false false (oks 5))) = some [⟨.ok, false⟩] ∧
    responsesOf (exec (.setint 15) (ready 1 false 1)) = some [⟨.ok, false⟩] := by decide

set_option maxRecDepth 2000 in
theorem witness_WireCounts_render : responsesOf (exec (.render 0) (ready 1 false 8)) = some [⟨.ok, false⟩] := by decide

-- the least and the largest address
theorem witness_PixwrWritesOneCell : 0 < 8 * (ready 2 false 0).inst.modules ∧ 15 < 8 * (ready 2 false 0).inst.modules ∧
    7 < 8 ∧ (ready 2 false 0).rdy = true ∧ Memory.wf pixReset (ready 2 false 0).pix = true ∧ (14, 7) ≠ (15, 7) := by
  decide

theorem witness_PixrdAnswersPixel : 15 < 8 * (ready 2 false 0).inst.modules ∧ 7 < 8 ∧ (ready 2 false 0).rdy = true := by
  decide

theorem witness_FillWritesEveryCell : (ready 2 false 0).rdy = true ∧ 15 < 8 * (ready 2 false 0).inst.modules := by decide

theorem witness_SetbrtStoresClampedLevel : 15 < 8 * (ready 2 true 0).inst.modules ∧ 7 < 8 ∧ (ready 2 true 0).rdy = true ∧
    Memory.wf brtReset (ready 2 true 0).brt = true ∧ (15, 6) ≠ (15, 7) := by decide

theorem witness_BufferOperationsOffWire : Instr.isHost (.fill true) = true ∧ Instr.fill true ≠ .init ∧
    (∀ level, Instr.fill true ≠ .setint level) ∧ (∀ p, Instr.fill true ≠ .render p) ∧
    exec (.fill true) (ready 1 false 0) = .next (fillPixels true (ready 1 false 0)) :=
  ⟨rfl, nofun, nofun, nofun, rfl⟩

-- the first column and the first row out of range
theorem witness_AddressErrorOnOutOfRange :
    (8 * (ready 1 false 0).inst.modules ≤ 8 ∨ 8 ≤ 0) ∧ (8 * (ready 1 false 0).inst.modules ≤ 0 ∨ 8 ≤ 8) ∧
    responsesOf (exec (.pixwr 8 0 true) (ready 1 false 0)) = some [⟨.addressError, false⟩] ∧
    responsesOf (exec (.setbrt 0 8 99) (engine 1 false false [])) = some [⟨.addressError, false⟩] := by decide

theorem witness_LifecycleCheck : (ready 1 false 0).rdy = true ∧ (engine 1 false false []).rdy = false ∧
    (0 : Int) ≤ 15 ∧ 7 < 8 * (engine 1 false false []).inst.modules ∧ 7 < 8 ∧
    responsesOf (exec .init (ready 1 false 0)) = some [⟨.preconditionError, false⟩] ∧
    responsesOf (exec (.fill true) (engine 1 false false [])) = some [⟨.preconditionError, false⟩] := by decide

theorem witness_ReservedCodesAnswerIllegalCommand : Instr.reserved8 ∈ [Instr.reserved0, .reserved8, .reserved9,
    .reservedA, .reservedB, .reservedC, .reservedD, .reservedE, .reservedF] := by decide

-- each of the five errors
theorem witness_ErrorsArePrecise :
    [exec (.setint 16) (ready 1 false 0), exec (.pixrd 8 0) (ready 1 false 0), exec .init (ready 1 false 0),
      exec .reserved0 (ready 1 false 0), exec (.setint 0) (engine 1 false true [.fail])].map responsesOf =
    [Status.configurationError, .addressError, .preconditionError, .illegalCommand, .transmissionError].map
      (fun e => some [⟨e, false⟩]) := by decide

theorem witness_NothingWorksBeforeInit : Instr.isHost (.render 0) = true ∧ Instr.render 0 ≠ .init ∧
    (engine 1 false false []).rdy = false := by decide

-- RDY set by a whole INIT and by the end of one in small steps, cleared by reset
theorem witness_ReadyChangesOnlyByInitOrReset :
    holdsAfter (step (given (.command 0x10000000) (engine 1 false false (oks 5)))) (·.rdy) = true ∧
    holdsAfter (step initEnd) (·.rdy) = true ∧ holdsAfter (step (given .reset (ready 1 false 0))) (!·.rdy) = true := by
  decide

theorem witness_WireFrameSendsPair : framePair (.wDigit2 0x08) = some (0x03, 0x08) ∧ (inBracket [.ok]).cs = .asserted ∧
    answer (inBracket [.ok]) (inBracket [.ok]).drawn = .ok := by decide

theorem witness_WireFrameFails : framePair .wShutdown1 = some (0x0C, 0x01) ∧ (inBracket [.fail]).cs = .asserted ∧
    answer (inBracket [.fail]) (inBracket [.fail]).drawn = .fail := by decide

theorem witness_WireFrameNeedsBracket : framePair (.wIntensity 15) = some (0x0A, 0x0F) ∧
    (ready 1 false 0).cs = .deasserted := by decide

theorem witness_SixteenPulsesMakePair : (inBracket [.fail]).busy = true ∧ (inBracket [.fail]).cs = .asserted ∧
    (inBracket [.fail]).frames = 0x0308 :: [0x03F0] ∧ (inBracket [.fail]).pos = .active (.render 0) 0 2 0 15 := by decide

theorem witness_SmallStepsRefineOperation : (ready 1 false 8).busy = false ∧ Quiet (ready 1 false 8) :=
  ⟨rfl, rfl, rfl, rfl, rfl⟩

theorem witness_BitTraceRefinesTrace : Instr.isHost (.setint 0) = true ∧
    traceOf (exec (.setint 0) (ready 1 false 1)) = some (whole 0x0A [0x00]) ∧ NoFailure (whole 0x0A [0x00]) := by
  refine ⟨rfl, by decide, ?_⟩
  intro a d h
  simp [whole] at h

theorem witness_RenderSucceeds : (ready 2 false 16).rdy = true ∧
    DrawsOk (ready 2 false 16) (8 * (ready 2 false 16).inst.modules) := by unfold DrawsOk; decide

theorem witness_LitReadsOneCell : (ready 1 true 0).inst = (engine 1 true false []).inst ∧
    (ready 1 true 0).inst.brightMode = true ∧ (ready 1 false 0).inst = (engine 1 false false []).inst ∧
    (ready 1 false 0).inst.brightMode = false ∧ readPix (ready 1 false 0) 7 7 = readPix (engine 1 false false []) 7 7 ∧
    readBrt (ready 1 true 0) 7 7 = readBrt (engine 1 true false []) 7 7 := by decide

theorem witness_RowByteBits : 7 < 8 ∧ 1 < (ready 2 true 16).inst.modules ∧ 0 < 8 ∧ 8 * 1 + 7 < 8 * 2 := by decide

theorem witness_PhaseOnlyDarkens : (9 : Int) ≤ 10 ∧
    lit { ready 1 true 0 with brt := [(2, 10)] } 0 2 9 = true ∧
    lit { ready 1 true 0 with brt := [(2, 10)] } 0 2 10 = false ∧
    readBrt { ready 1 true 0 with brt := [(2, 10)] } 0 2 = 10 ∧
    readBrt { ready 1 true 0 with brt := [(2, 10)] } 0 2 ≤ readBrt { ready 1 true 0 with brt := [(2, 10)] } 0 0 := by
  decide

theorem witness_SoftPwmCount : (ready 1 true 0).inst.brightMode = true := by decide

-- the first phase below and the first above the usual range
theorem witness_PhaseOutOfRange : (ready 1 true 8).inst.brightMode = true ∧ (ready 1 true 8).rdy = true ∧
    DrawsOk (ready 1 true 8) (8 * (ready 1 true 8).inst.modules) ∧
    (((-1 : Int) < 0 ∧ (0xFF : Byte) = 0xFF) ∨ ((15 : Int) ≤ -1 ∧ (0xFF : Byte) = 0x00)) ∧
    (((15 : Int) < 0 ∧ (0x00 : Byte) = 0xFF) ∨ ((15 : Int) ≤ 15 ∧ (0x00 : Byte) = 0x00)) := by
  unfold DrawsOk; decide

theorem witness_ResetBuffersFrame :
    ((ready 1 true 8).rdy = true ∧ DrawsOk (ready 1 true 8) (8 * (ready 1 true 8).inst.modules) ∧
      (ready 1 true 8).inst.brightMode = true ∧ (∀ x y, readBrt (ready 1 true 8) x y = 15) ∧
      (0 : Int) ≤ 0 ∧ (14 : Int) ≤ 14) ∧
    ((ready 1 false 8).rdy = true ∧ DrawsOk (ready 1 false 8) (8 * (ready 1 false 8).inst.modules) ∧
      (ready 1 false 8).inst.brightMode = false ∧ ∀ x y, readPix (ready 1 false 8) x y = false) := by
  refine ⟨⟨rfl, ?_, rfl, fun _ _ => rfl, by decide, by decide⟩, rfl, ?_, rfl, fun _ _ => rfl⟩ <;>
    · unfold DrawsOk; decide

-- two engines that differ in the buffer their mode does not read
theorem witness_RenderDeterministicIdempotent :
    ({ ready 1 true 16 with pix := [(0, true)] } : State).inst = (ready 1 true 16).inst ∧ (ready 1 true 16).rdy = true ∧
    ({ ready 1 true 16 with pix := [(0, true)] } : State).brt = (ready 1 true 16).brt ∧
    (∀ i, answer { ready 1 true 16 with pix := [(0, true)] } i = answer (ready 1 true 16) i) ∧
    DrawsOk (ready 1 true 16) (2 * (8 * (ready 1 true 16).inst.modules)) := by
  refine ⟨rfl, rfl, rfl, fun _ => rfl, ?_⟩
  unfold DrawsOk; decide

theorem witness_RenderIgnoresOtherBuffer :
    exec (.render 0) (ready 1 true 8) = .next (renderFrame 0 (ready 1 true 8)) ∧ (ready 1 true 8).inst.brightMode = true ∧
    exec (.render 0) (ready 1 false 8) = .next (renderFrame 0 (ready 1 false 8)) ∧
    (ready 1 false 8).inst.brightMode = false := ⟨rfl, rfl, rfl, rfl⟩

theorem witness_SetintLeavesRenderAlone : (ready 1 false 9).rdy = true ∧
    DrawsOk (ready 1 false 9) (9 * (ready 1 false 9).inst.modules) := by unfold DrawsOk; decide

theorem witness_ResetStep : (given .reset (inBracket [])).inputs = .reset :: [] ∧ (given .reset (inBracket [])).cs = .asserted ∧
    (given .reset (ready 1 false 0)).inputs = .reset :: [] ∧ (given .reset (ready 1 false 0)).cs = .deasserted := by decide

/-- A step that writes a pixel, for the statements about every step. -/
theorem witness_steps : step (given (.command 0x50030201) (ready 1 false 0)) =
    .next (pixelWrite 3 2 true { ready 1 false 0 with inputs := [] }) := by rfl

/-- A step inside a bracket, for the statements about every step. -/
theorem witness_steps_busy : step (inBracket [.ok]) = .next (sendPair 0x03 0x08 (inBracket [.ok])) := by rfl

theorem witness_StepKeepsBuffersOk : BuffersOk { ready 1 false 0 with pix := [(26, true)], brt := [(0, 3)] } := by
  unfold BuffersOk; decide

theorem witness_StepKeepsIdleInvariant : IdleInvariant (inBracket []) ∧ IdleInvariant (ready 1 false 0) :=
  ⟨⟨rfl, nofun⟩, rfl, fun _ => ⟨rfl, rfl, rfl, rfl⟩⟩

theorem witness_StepKeepsTraceTracks : TraceTracks { inBracket [] with trace := [.a] } ∧ TraceTracks (ready 1 false 0) :=
  ⟨⟨rfl, fun _ => ⟨by decide, _, _, _, _, _, rfl, rfl⟩⟩, rfl, nofun⟩

-- inside an open bracket, with and without a pending pair, both premises of StepKeepsTraceTracks hold together
theorem witness_StepKeepsTraceTracks_open : IdleInvariant { inBracket [] with trace := [.a] } ∧
    TraceTracks { inBracket [] with trace := [.a] } ∧ IdleInvariant initEnd ∧ TraceTracks initEnd :=
  ⟨⟨rfl, nofun⟩, ⟨rfl, fun _ => ⟨by decide, _, _, _, _, _, rfl, rfl⟩⟩, ⟨rfl, nofun⟩, rfl,
    fun _ => ⟨by decide, _, _, _, _, _, rfl, rfl⟩⟩

theorem witness_StepKeepsTraceTracks_idle : IdleInvariant (ready 1 false 0) ∧ TraceTracks (ready 1 false 0) :=
  ⟨⟨rfl, fun _ => ⟨rfl, rfl, rfl, rfl⟩⟩, rfl, nofun⟩

-- V-T8: five of the sixteen bits of P(03,08) are out
theorem witness_StepKeepsPairInProgress : PairInProgress midPair ∧ midPair.cs = .asserted ∧
    midPair.frames = 0x0308 :: [0x03F0] ∧ midPair.pos = .active (.render 0) 0 2 0 10 := by
  refine ⟨?_, rfl, rfl, rfl⟩
  intro w rest op n y m k _ hf hp _
  cases hf
  cases hp
  exact ⟨rfl, rfl, [.cs .asserted], rfl⟩

theorem witness_StepKeepsFramesAllowed : FramesAllowed (inBracket []) := by
  refine ⟨nofun, ?_, ?_⟩
  · intro w h
    rcases List.mem_cons.1 h with rfl | h
    · decide
    · obtain rfl := List.mem_singleton.1 h
      decide
  · intro level i y m k h
    cases h

theorem witness_OperationsSendWholeBrackets : Instr.isHost (.render 0) = true ∧ (ready 1 false 8).cs = .deasserted := by
  decide

theorem witness_ChipRegistersAfterRender : (ready 2 true 16).rdy = true ∧
    DrawsOk (ready 2 true 16) (8 * (ready 2 true 16).inst.modules) ∧
    exec (.render 0) (ready 2 true 16) = .next (renderFrame 0 (ready 2 true 16)) ∧
    1 < (ready 2 true 16).inst.modules := by
  refine ⟨rfl, ?_, rfl, by decide⟩
  unfold DrawsOk; decide

theorem witness_ChipRegistersAfterInit : (engine 2 false false (oks 10)).rdy = false ∧
    DrawsOk (engine 2 false false (oks 10)) (5 * (engine 2 false false (oks 10)).inst.modules) ∧
    exec .init (engine 2 false false (oks 10)) = .next (initialise (engine 2 false false (oks 10))) ∧
    1 < (engine 2 false false (oks 10)).inst.modules := by
  refine ⟨rfl, ?_, rfl, by decide⟩
  unfold DrawsOk; decide

-- the failed draw in row 2 of eight, in the second pair of a SETINT, and the last that an INIT makes
theorem witness_ChipRegistersAfterFailure :
    (FirstFailure (engine 2 true true (failAt 5)) 5 ∧ (engine 2 true true (failAt 5)).rdy = true ∧ 5 < 8 * 2 ∧
      exec (.render 0) (engine 2 true true (failAt 5)) = .next (renderFrame 0 (engine 2 true true (failAt 5)))) ∧
    (FirstFailure (engine 2 true true (failAt 1)) 1 ∧ (0 : Int) ≤ 15 ∧ 1 < 2 ∧
      exec (.setint 15) (engine 2 true true (failAt 1)) = .next (setIntensity 15 (engine 2 true true (failAt 1)))) ∧
    (FirstFailure (engine 2 true false (failAt 9)) 9 ∧ (engine 2 true false (failAt 9)).rdy = false ∧ 9 < 5 * 2 ∧
      exec .init (engine 2 true false (failAt 9)) = .next (initialise (engine 2 true false (failAt 9)))) := by
  refine ⟨⟨?_, rfl, by decide, rfl⟩, ⟨?_, by decide, by decide, rfl⟩, ?_, rfl, by decide, rfl⟩ <;>
    · unfold FirstFailure DrawsOk; decide

end Sys2Proof.Tests
end

section
/-! PROOFS. The histories of the wire and of the responses over one step (R5, R24, R60; log entry 12): each small
step extends the two traces and answers the host at most once. -/

namespace Sys2Proof.Machine

/-- What one step may do to the three histories: both traces only grow, and at most one response is added. -/
structure HistoryStep (s t : State) : Prop extends Grows s t where
  responses : t.responses = s.responses ∨ ∃ r, t.responses = s.responses ++ [r]

/-! ## Silent steps and answers -/

/-- A step that answers nothing. -/
theorem HistoryStep.silent {s t : State} (hg : Grows s t) (hr : t.responses = s.responses) : HistoryStep s t :=
  ⟨hg, .inl hr⟩

/-- A step that ends its operation: silent up to one response. -/
theorem HistoryStep.answered {s t : State} (hg : Grows s t) (hr : t.responses = s.responses) (e : Status)
    (b : Bool) : HistoryStep s (respond e b t) :=
  ⟨⟨hg.trace, hg.wire⟩, .inr ⟨_, congrArg (· ++ _) hr⟩⟩

theorem HistoryStep.refl (s : State) : HistoryStep s s := .silent (.refl s) rfl

/-- The queue of inputs is no history: what a step from `s` with another queue does to the histories, it does
from `s`. -/
theorem HistoryStep.of_inputs {s t : State} {q : List Input} (h : HistoryStep { s with inputs := q } t) :
    HistoryStep s t :=
  ⟨⟨h.trace, h.wire⟩, h.responses⟩

theorem HistoryStep.of_popInput {s t : State} (h : HistoryStep (popInput s) t) : HistoryStep s t := h.of_inputs

/-- A whole host operation gives exactly one response. -/
theorem HostEffect.historyStep {s t : State} (h : HostEffect s t) : HistoryStep s t := ⟨h.grows, .inr h.responses⟩

/-! ## The wire -/

theorem closeBracket_grows (s : State) : Grows s (closeBracket s) := ⟨⟨_, rfl⟩, _, rfl⟩

theorem shiftBit_grows (b : Bool) (s : State) : Grows s (shiftBit b s) := ⟨⟨[], by simp⟩, _, rfl⟩

theorem releaseBracket_grows (s : State) : Grows s (releaseBracket s) := by
  unfold releaseBracket
  split
  · exact closeBracket_grows s
  · exact .refl s

/-- A reset appends the `D` of an open bracket at most, and answers nothing (R24, R141). -/
theorem resetEngine_historyStep (s : State) : HistoryStep s (resetEngine s) :=
  have hg := releaseBracket_grows s
  .silent ⟨hg.trace, hg.wire⟩ (resetEngine_responses s)

/-! ## Small steps -/

/-- Acceptance begins an operation in silence, or is the whole operation with its response. -/
theorem accept_historyStep (w : HostWord) (s : State) : HistoryStep s (accept (decodeHost w) s) := by
  rcases accept_host_cases w s with ⟨h, -⟩ | ⟨op, h, -⟩
  · exact (exec_host_effect (decodeHost_isHost w) h).historyStep
  · rw [h]
    exact .silent ⟨⟨[], by simp [begin]⟩, [], by simp [begin]⟩ rfl

theorem openNext_historyStep (s : State) : HistoryStep s (openNext s) := by
  rcases openNext_cases s with ⟨-, h⟩ | ⟨_, _, _, _, _, -, h⟩ <;> rw [h]
  · exact .refl s
  · exact .silent ⟨⟨_, rfl⟩, _, rfl⟩ rfl

/-- Closing a bracket answers only after the operation's last one. -/
theorem closeNext_historyStep (s : State) : HistoryStep s (closeNext s) := by
  have hg := closeBracket_grows s
  rcases closeNext_cases s with ⟨-, h⟩ | ⟨_, _, _, _, _, p, -, -, h⟩ | ⟨op, _, _, _, _, -, -, h⟩ <;> rw [h]
  · exact .refl s
  · exact .silent ⟨hg.trace, hg.wire⟩ rfl
  · rcases onSuccess_eq op (closeBracket s) with ⟨-, ho⟩ | ⟨-, ho⟩ <;> rw [ho]
    · exact .answered (t := setReady (closeBracket s)) ⟨hg.trace, hg.wire⟩ rfl .ok false
    · exact .answered hg rfl .ok false

/-- A pair answers only when it fails, after the `D` of its bracket (R72, R117). -/
theorem sendPair_historyStep (a d : Byte) (s : State) : HistoryStep s (sendPair a d s) := by
  have hg := pair_grows a d s
  have hr := (pair_spec a d s).untouched.responses
  rcases sendPair_cases a d s with ⟨-, -, h⟩ | ⟨-, -, h⟩ <;> rw [h]
  · exact .silent ⟨hg.trace, hg.wire⟩ hr
  · exact .answered (hg.trans (closeBracket_grows _)) hr .transmissionError false

theorem finishPair_historyStep (w : Frame) (k : Fin 16) (s : State) : HistoryStep s (finishPair w k s) :=
  have h := finishPair_spec w k s
  .silent ⟨⟨_, h.trace⟩, _, h.wire⟩ h.responses

/-- A clock pulse answers only when its pair's draw fails; it then does what the whole failed pair does. -/
theorem pulse_historyStep (s : State) : HistoryStep s (pulse s) := by
  cases pulse_cases s with
  | none _ h =>
    rw [h]
    exact .refl s
  | failed w _ _ _ _ _ _ _ _ ha h =>
    have hg := pair_grows (frameAddr w) (frameData w) s
    rw [pair_of_fail ha] at hg
    rw [h]
    exact .answered (hg.trans (closeBracket_grows _)) rfl .transmissionError false
  | first w _ _ _ _ _ _ _ _ _ h =>
    have hg := shiftBit_grows (w.getLsbD 15) s
    rw [h]
    exact .silent ⟨hg.trace, hg.wire⟩ rfl
  | next _ _ _ _ _ _ k _ _ _ _ _ h =>
    have hg := shiftBit_grows (s.sr.getLsbD k.val) s
    rw [h]
    exact .silent ⟨hg.trace, hg.wire⟩ rfl
  | last w _ _ _ _ _ _ _ _ h => exact h ▸ finishPair_historyStep w 0 s

theorem OperationCase.historyStep {s t : State} (h : OperationCase s t) : HistoryStep s t := by
  rcases h with ⟨-, h⟩ | ⟨-, -, h⟩ | ⟨-, -, h⟩ | ⟨w, _, _, _, _, _, -, -, -, h⟩ | ⟨w, _, _, _, _, _, k, -, -, -, -, h⟩
  · exact h ▸ openNext_historyStep s
  · exact h ▸ closeNext_historyStep s
  · exact h ▸ .refl s
  · exact h ▸ sendPair_historyStep (frameAddr w) (frameData w) s
  · exact h ▸ finishPair_historyStep w k s

/-! ## The step -/

theorem step_historyStep {s t : State} (h : step s = .next t) : HistoryStep s t := by
  cases step_cases h with
  | idle _ _ h => exact h ▸ .refl s
  | command w _ _ _ h => exact (exec_host_effect (decodeHost_isHost w) h).historyStep.of_popInput
  | start w _ _ _ h => exact h ▸ (accept_historyStep w (popInput s)).of_popInput
  | idleInput _ _ _ h => exact h ▸ (HistoryStep.refl (popInput s)).of_popInput
  | reset _ _ h => exact h ▸ (resetEngine_historyStep (popInput s)).of_popInput
  | busyPulse _ _ _ h => exact h ▸ (pulse_historyStep (popInput s)).of_popInput
  | operation _ _ _ h => exact h.historyStep.of_inputs

/-- Settles O50: every kind of step extends the two traces and adds at most one response. -/
theorem historiesOnlyGrow : Obligations.HistoriesOnlyGrow := by
  unfold Obligations.HistoriesOnlyGrow
  intro s t h
  have hs := step_historyStep h
  exact ⟨hs.trace, hs.wire, hs.responses⟩

end Sys2Proof.Machine
end

section
/-! PROOFS. A pair between two of its clock pulses (R17, R33): only a clock pulse leaves one behind, and every
other step either touches nothing of it or leaves no pair that has begun. -/

namespace Sys2Proof.Machine

/-! ## States with no pair begun -/

theorem PairInProgress.of_deasserted {t : State} (h : t.cs = .deasserted) : PairInProgress t := by
  intro w rest op n y m k hc
  rw [h] at hc
  cases hc

theorem PairInProgress.of_idle {t : State} (h : t.pos = .idle) : PairInProgress t := by
  intro w rest op n y m k _ _ hp
  rw [h] at hp
  cases hp

/-- At its first bit a pair has not begun (R16). -/
theorem PairInProgress.of_firstBit {t : State} {op : Op} {n : Fin 5} {y : Fin 8} {m : Nat}
    (h : t.pos = .active op n y m 15) : PairInProgress t := by
  intro w rest op' n' y' m' k _ _ hp hk
  rw [h] at hp
  cases hp
  exact absurd rfl hk

/-- Once a pair is over, `POS` stands at the first bit of the next, or no pair is pending. -/
theorem PairInProgress.of_nextPair {t : State} {p : Pos} (h : t.pos = nextPair t.frames p) : PairInProgress t := by
  cases p with
  | idle => exact .of_idle h
  | active op n y m k =>
    cases hf : t.frames with
    | nil =>
      intro w rest op' n' y' m' k' _ hf'
      rw [hf] at hf'
      cases hf'
    | cons w rest =>
      rw [hf, nextPair_cons] at h
      exact .of_firstBit h

/-! ## One clock pulse (R33) -/

/-- The bits down to `k` are those above it, then bit `k`. -/
theorem frameBits_take_succ (w : Frame) {k : Nat} (hk : k < 16) :
    (frameBits w).take (15 - k + 1) = (frameBits w).take (15 - k) ++ [w.getLsbD k] := by
  have hlen : 15 - k < (frameBits w).length := by simp [frameBits]; omega
  rw [List.take_succ_eq_append_getElem hlen]
  simp [frameBits, show 15 - (15 - k) = k by omega]

/-- The draw is `ok`: `SR` is loaded and bit 15 is out. -/
theorem PairInProgress.of_firstPulse {s : State} {w : Frame} {rest : List Frame} (hf : s.frames = w :: rest)
    (op : Op) (n : Fin 5) (y : Fin 8) (m : Nat) :
    PairInProgress { shiftBit (w.getLsbD 15) (loadPair (frameAddr w) (frameData w) (draw s).1) with
      pos := .active op n y m 14 } := by
  intro w' rest' op' n' y' m' k _ hf' hp _
  obtain ⟨rfl, rfl⟩ := List.cons.inj (hf.symm.trans hf')
  cases hp
  exact ⟨pairFrame_split w, rfl, s.wire, rfl⟩

/-- Bit `k` follows the bits above it on the wire. -/
theorem PairInProgress.nextPulse {s : State} {w : Frame} {rest : List Frame} {op : Op} {n : Fin 5} {y : Fin 8}
    {m : Nat} {k : Fin 16} (hs : PairInProgress s) (hc : s.cs = .asserted) (hf : s.frames = w :: rest)
    (hp : s.pos = .active op n y m k) (h0 : k.val ≠ 0) (hk : k.val ≠ 15) :
    PairInProgress { shiftBit (s.sr.getLsbD k.val) s with pos := .active op n y m (k - 1) } := by
  obtain ⟨hsr, -, before, hw⟩ := hs w rest op n y m k hc hf hp hk
  have hpred : (k - 1).val + 1 = k.val := by
    rw [Fin.val_sub_one_of_ne_zero fun h => h0 (congrArg Fin.val h)]
    omega
  intro w' rest' op' n' y' m' k' _ hf' hp' _
  obtain ⟨rfl, rfl⟩ := List.cons.inj (hf.symm.trans hf')
  cases hp'
  refine ⟨hsr, by rw [hpred, ← hsr]; rfl, before, ?_⟩
  have hbits : (frameBits w).take (15 - (k - 1).val) = (frameBits w).take (15 - k.val) ++ [w.getLsbD k.val] := by
    rw [← frameBits_take_succ w k.isLt, show 15 - (k - 1).val = 15 - k.val + 1 by omega]
  simp [hbits, hw, hsr]

/-! ## Small steps -/

/-- The rest of a pair, shifted out at once, leaves the pair over. -/
theorem finishPair_pairInProgress (w : Frame) (k : Fin 16) (s : State) : PairInProgress (finishPair w k s) := by
  have h := finishPair_spec w k s
  exact .of_nextPair (h.pos.trans (by rw [h.frames]))

theorem pulse_pairInProgress {s : State} (hs : PairInProgress s) : PairInProgress (pulse s) := by
  cases pulse_cases s with
  | none _ h =>
    rw [h]
    exact hs
  | failed _ _ _ _ _ _ _ _ _ _ h => exact .of_idle (h ▸ rfl)
  | first w rest op n y m _ hf _ _ h => exact h ▸ .of_firstPulse hf op n y m
  | next w rest op n y m k hc hf hp h0 hk h => exact h ▸ hs.nextPulse hc hf hp h0 hk
  | last w _ _ _ _ _ _ _ _ h => exact h ▸ finishPair_pairInProgress w 0 s

/-- Acceptance ends at once with `POS` idle, or begins with `POS` at the first bit. -/
theorem accept_pairInProgress (w : HostWord) (s : State) : PairInProgress (accept (decodeHost w) s) := by
  rcases accept_host_cases w s with ⟨h, -⟩ | ⟨op, h, -⟩
  · exact .of_idle (exec_host_effect (decodeHost_isHost w) h).pos
  · exact .of_firstBit (h ▸ begin_pos op s)

theorem openNext_pairInProgress {s : State} (hs : PairInProgress s) : PairInProgress (openNext s) := by
  rcases openNext_cases s with ⟨-, h⟩ | ⟨_, _, _, _, _, -, h⟩ <;> rw [h]
  · exact hs
  · exact .of_firstBit rfl

theorem closeNext_pairInProgress {s : State} (hs : PairInProgress s) : PairInProgress (closeNext s) := by
  rcases closeNext_cases s with ⟨-, h⟩ | ⟨_, _, _, _, _, _, -, -, h⟩ | ⟨_, _, _, _, _, -, -, h⟩ <;> rw [h]
  · exact hs
  · exact .of_deasserted rfl
  · exact .of_idle rfl

/-- A pair sent whole is over: the next one has not begun, or the operation has failed. -/
theorem sendPair_pairInProgress (a d : Byte) (s : State) : PairInProgress (sendPair a d s) := by
  rcases sendPair_cases a d s with ⟨-, -, h⟩ | ⟨-, -, h⟩ <;> rw [h]
  · exact .of_nextPair rfl
  · exact .of_idle rfl

theorem OperationCase.pairInProgress {s t : State} (h : OperationCase s t) (hs : PairInProgress s) :
    PairInProgress t := by
  rcases h with ⟨-, h⟩ | ⟨-, -, h⟩ | ⟨-, -, h⟩ | ⟨w, _, _, _, _, _, -, -, -, h⟩ | ⟨w, _, _, _, _, _, k, -, -, -, -, h⟩
  · exact h ▸ openNext_pairInProgress hs
  · exact h ▸ closeNext_pairInProgress hs
  · exact h ▸ hs
  · exact h ▸ sendPair_pairInProgress (frameAddr w) (frameData w) s
  · exact h ▸ finishPair_pairInProgress w k s

/-! ## The step -/

/-- The queue of inputs is no part of a pair in progress. -/
theorem popInput_pairInProgress {s : State} (hs : PairInProgress s) : PairInProgress (popInput s) := hs

/-- Settles O60: a clock pulse appends its bit to those already sent; any other step leaves the pair as it was
or no pair begun. -/
theorem stepKeepsPairInProgress : Obligations.StepKeepsPairInProgress := by
  unfold Obligations.StepKeepsPairInProgress
  intro s t hs h
  cases step_cases h with
  | idle _ _ h => exact h ▸ hs
  | command w _ _ _ h => exact .of_idle (exec_host_effect (decodeHost_isHost w) h).pos
  | start w _ _ _ h => exact h ▸ accept_pairInProgress w _
  | idleInput _ _ _ h => exact h ▸ popInput_pairInProgress hs
  | reset _ _ h => exact .of_idle (h ▸ resetEngine_pos _)
  | busyPulse _ _ _ h => exact h ▸ pulse_pairInProgress (popInput_pairInProgress hs)
  | operation _ _ _ h => exact h.pairInProgress hs

end Sys2Proof.Machine
end

section
/-! PROOFS. The step that takes a reset (R24, R140, R141). -/

namespace Sys2Proof.Machine

/-- A reset is taken at any moment, whether the engine is idle or busy. -/
theorem step_of_reset {s : State} {rest : List Input} (hi : s.inputs = .reset :: rest) :
    step s = .next (resetEngine (popInput s)) := by
  cases hb : s.busy with
  | false => simp only [step, fetch, fetchIdle, hb, hi, Bool.false_eq_true, if_false]
  | true => simp only [step, fetch, fetchBusy, hb, hi, if_true]

/-- A reset leaves both buffers without a listed cell, so every cell reads as its reset value (R13, R14). -/
theorem resetEngine_buffersReset (s : State) : BuffersReset (resetEngine s) := fun _ _ => ⟨rfl, rfl⟩

/-- Settles O48: the step is `resetEngine` on the queue's rest, and its fields are those of R24. -/
theorem resetStep : Obligations.ResetStep := by
  unfold Obligations.ResetStep
  intro s rest hi
  have htrace := (resetEngine_trace (popInput s)).trans (releaseBracket_trace (popInput s))
  have hinputs : (resetEngine (popInput s)).inputs = rest := by simp [hi]
  exact ⟨_, step_of_reset hi, rfl, resetEngine_buffersReset _, rfl, rfl, rfl, rfl, resetEngine_cs _, htrace,
    resetEngine_inst _, resetEngine_responses _, resetEngine_oracle _, resetEngine_drawn _, hinputs⟩

end Sys2Proof.Machine
end

section
/-! PROOFS. A frame bit by bit: the address byte, then the data byte (R32, R33). -/

namespace Sys2Proof.Machine

/-- The address byte is the high byte of the frame (R32). -/
theorem pairFrame_getLsbD_addr (a d : Byte) (i : Nat) : (pairFrame a d).getLsbD (8 + i) = a.getLsbD i := by
  rw [pairFrame, BitVec.getLsbD_append, if_neg (by omega), Nat.add_sub_cancel_left]

/-- The data byte is the low byte of the frame (R32). -/
theorem pairFrame_getLsbD_data (a d : Byte) {i : Nat} (hi : i < 8) :
    (pairFrame a d).getLsbD i = d.getLsbD i := by
  rw [pairFrame, BitVec.getLsbD_append, if_pos hi]

/-- The first eight bits to leave are the high byte of the frame, the last eight its low byte (R33). -/
theorem frameBits_eq_append (w : Frame) :
    frameBits w = (List.range 8).map (fun i => w.getLsbD (8 + (7 - i))) ++
      (List.range 8).map (fun i => w.getLsbD (7 - i)) := rfl

/-- Settles O7: the high byte of the frame is the address byte and leaves first, the low byte is the data byte. -/
theorem pairByteOrder : Obligations.PairByteOrder := by
  unfold Obligations.PairByteOrder
  intro a d
  refine ⟨pairFrame_toNat a d, ?_⟩
  have hdata (i : Nat) : (pairFrame a d).getLsbD (7 - i) = d.getLsbD (7 - i) :=
    pairFrame_getLsbD_data a d (by omega)
  simp only [frameBits_eq_append, pairFrame_getLsbD_addr, hdata]

end Sys2Proof.Machine
end

section
/-! PROOFS. The decoder of host commands, one lemma for each code of R57, and what the reserved codes do (R59). -/

namespace Sys2Proof

section
variable {w : HostWord}

/-! ## The codes of R57, with the fields each of them reads -/

theorem decodeHost_init (h : w.toNat / 2 ^ 28 = 0x1) : decodeHost w = .init := by
  simp only [decodeHost, hcOp_toNat, h]

theorem decodeHost_setint (h : w.toNat / 2 ^ 28 = 0x2) : decodeHost w = .setint (hcSigned w) := by
  simp only [decodeHost, hcOp_toNat, h]

theorem decodeHost_setbrt (h : w.toNat / 2 ^ 28 = 0x3) :
    decodeHost w = .setbrt (hcX w) (hcY w) (hcSigned w) := by
  simp only [decodeHost, hcOp_toNat, h]

theorem decodeHost_render (h : w.toNat / 2 ^ 28 = 0x4) : decodeHost w = .render (hcSigned w) := by
  simp only [decodeHost, hcOp_toNat, h]

theorem decodeHost_pixwr (h : w.toNat / 2 ^ 28 = 0x5) : decodeHost w = .pixwr (hcX w) (hcY w) (hcBit w) := by
  simp only [decodeHost, hcOp_toNat, h]

theorem decodeHost_pixrd (h : w.toNat / 2 ^ 28 = 0x6) : decodeHost w = .pixrd (hcX w) (hcY w) := by
  simp only [decodeHost, hcOp_toNat, h]

theorem decodeHost_fill (h : w.toNat / 2 ^ 28 = 0x7) : decodeHost w = .fill (hcBit w) := by
  simp only [decodeHost, hcOp_toNat, h]

/-- The instructions of the reserved codes (R59). -/
def reservedCodes : List Instr :=
  [.reserved0, .reserved8, .reserved9, .reservedA, .reservedB, .reservedC, .reservedD, .reservedE, .reservedF]

/-- Every code that R57 does not list is one of the nine reserved instructions. -/
theorem decodeHost_mem_reservedCodes (h : w.toNat / 2 ^ 28 = 0x0 ∨ 0x8 ≤ w.toNat / 2 ^ 28) :
    decodeHost w ∈ reservedCodes := by
  have hw := w.isLt
  have hop : w.toNat / 2 ^ 28 = 0x0 ∨ w.toNat / 2 ^ 28 = 0x8 ∨ w.toNat / 2 ^ 28 = 0x9 ∨ w.toNat / 2 ^ 28 = 0xA ∨
      w.toNat / 2 ^ 28 = 0xB ∨ w.toNat / 2 ^ 28 = 0xC ∨ w.toNat / 2 ^ 28 = 0xD ∨ w.toNat / 2 ^ 28 = 0xE ∨
      w.toNat / 2 ^ 28 = 0xF := by omega
  rcases hop with h | h | h | h | h | h | h | h | h <;> simp only [decodeHost, hcOp_toNat, h] <;> decide

end

/-! ## Words that agree on a field -/

section
variable {w w' : HostWord}

theorem hcSigned_congr (h : w.toNat % 2 ^ 8 = w'.toNat % 2 ^ 8) : hcSigned w = hcSigned w' := by
  rw [hcSigned_eq, hcSigned_eq, h]

theorem hcBit_congr (h : w.toNat % 2 = w'.toNat % 2) : hcBit w = hcBit w' := by
  rw [hcBit_eq, hcBit_eq, h]

/-- `x` and `y` lie above bit 7. -/
theorem hcX_congr (h : w.toNat / 2 ^ 8 = w'.toNat / 2 ^ 8) : hcX w = hcX w' := by
  rw [hcX_eq, hcX_eq]; omega

theorem hcY_congr (h : w.toNat / 2 ^ 8 = w'.toNat / 2 ^ 8) : hcY w = hcY w' := by
  rw [hcY_eq, hcY_eq, h]

end

end Sys2Proof

namespace Sys2Proof.Machine

/-- Settles O4: each code reads its fields, and each field is a number cut from the word's. -/
theorem hostWordFields : Obligations.HostWordFields := by
  unfold Obligations.HostWordFields
  intro w
  rw [← hcSigned_eq, ← hcBit_eq, ← hcX_eq, ← hcY_eq]
  exact ⟨decodeHost_init, decodeHost_setint, decodeHost_setbrt, decodeHost_render, decodeHost_pixwr,
    decodeHost_pixrd, decodeHost_fill⟩

/-- A reserved code answers `IllegalCommand` and does nothing else (R59, R122). -/
theorem exec_of_mem_reservedCodes {i : Instr} (h : i ∈ reservedCodes) (s : State) :
    exec i s = .next (respond .illegalCommand false s) := by
  simp only [reservedCodes, List.mem_cons, List.not_mem_nil, or_false] at h
  rcases h with rfl | rfl | rfl | rfl | rfl | rfl | rfl | rfl | rfl <;> rfl

/-- Settles O5: a reserved code only answers, and any other code reads no field but those of R57. -/
theorem reservedAndIgnoredFields : Obligations.ReservedAndIgnoredFields := by
  unfold Obligations.ReservedAndIgnoredFields
  refine ⟨fun w h s => ⟨_, exec_of_mem_reservedCodes (decodeHost_mem_reservedCodes h) s,
    onlyAnswered_respond _ _ s⟩, fun w w' hop => ⟨fun h => ?_, fun h hv => ?_, fun h hv => ?_, fun h hxy => ?_,
    fun h hxy hv => ?_⟩⟩
  · rw [decodeHost_init h, decodeHost_init (hop ▸ h)]
  · rcases h with h | h
    · rw [decodeHost_setint h, decodeHost_setint (hop ▸ h), hcSigned_congr hv]
    · rw [decodeHost_render h, decodeHost_render (hop ▸ h), hcSigned_congr hv]
  · rw [decodeHost_fill h, decodeHost_fill (hop ▸ h), hcBit_congr hv]
  · rw [decodeHost_pixrd h, decodeHost_pixrd (hop ▸ h), hcX_congr hxy, hcY_congr hxy]
  · rw [decodeHost_pixwr h, decodeHost_pixwr (hop ▸ h), hcX_congr hxy, hcY_congr hxy, hcBit_congr hv]

end Sys2Proof.Machine
end

section
/-! PROOFS. The response word HR (R60): its three fields, and the one response of every host command. -/

namespace Sys2Proof

/-! ## The fields of HR -/

theorem encodeResponse_toNat (r : Response) :
    (encodeResponse r).toNat = r.rdata.toNat * 2 ^ 4 + (statusCode r.status).toNat := by
  have hb : ((0 : BitVec 3) ++ BitVec.ofBool r.rdata).toNat = r.rdata.toNat := by cases r.rdata <;> rfl
  rw [encodeResponse, BitVec.toNat_append, ← Nat.shiftLeft_add_eq_or_of_lt (statusCode r.status).isLt,
    Nat.shiftLeft_eq, hb]

/-- Bits 7:5 are 0. -/
theorem encodeResponse_spare (r : Response) : (encodeResponse r).extractLsb' 5 3 = 0 := by
  apply BitVec.eq_of_toNat_eq
  have hb := r.rdata.toNat_lt
  have hs := (statusCode r.status).isLt
  rw [BitVec.extractLsb'_toNat, encodeResponse_toNat, Nat.shiftRight_eq_div_pow]
  simp only [BitVec.ofNat_eq_ofNat, BitVec.toNat_ofNat]
  omega

/-- Bit 4 is `rdata`. -/
theorem encodeResponse_rdata (r : Response) : (encodeResponse r).getLsbD 4 = r.rdata := by
  rw [encodeResponse, BitVec.getLsbD_append, if_neg (by decide), BitVec.getLsbD_append, if_pos (by decide)]
  cases r.rdata <;> rfl

/-- Bits 3:0 are the status. -/
theorem encodeResponse_status (r : Response) : (encodeResponse r).extractLsb' 0 4 = statusCode r.status :=
  BitVec.extractLsb'_append_eq_right

theorem decodeResponse_encodeResponse (r : Response) : decodeResponse (encodeResponse r) = some r := by
  obtain ⟨st, b⟩ := r
  simp only [decodeResponse, encodeResponse_spare, encodeResponse_rdata, encodeResponse_status, if_true]
  cases st <;> rfl

end Sys2Proof

namespace Sys2Proof.Machine

/-! ## One response for each host command -/

/-- The host gets one response more, and it carries no data bit. -/
def AnswersWithoutData (s t : State) : Prop := ∃ st, t.responses = s.responses ++ [⟨st, false⟩]

theorem guarded_answersWithoutData {body : State → State} {s : State} (hb : AnswersWithoutData s (body s))
    (checks : List (Option Status)) : AnswersWithoutData s (guarded checks body s) := by
  rcases guarded_cases checks body s with ⟨e, -, h⟩ | ⟨-, h⟩ <;> rw [h]
  · exact ⟨e, rfl⟩
  · exact hb

theorem finish_answersWithoutData {f : State → State} (hf : ∀ u, (f u).responses = u.responses)
    (bs : List Bracket) (s : State) : AnswersWithoutData s (finish f (sendBrackets bs s)) := by
  have hr := (sendBrackets_untouched bs s).1.responses
  rcases finish_cases f (sendBrackets bs s) with ⟨-, h⟩ | ⟨-, h⟩ <;> rw [h]
  · exact ⟨.ok, congrArg (· ++ _) ((hf _).trans hr)⟩
  · exact ⟨.transmissionError, congrArg (· ++ _) hr⟩

/-- Every host command but `PIXRD` answers once, with `rdata` 0. -/
theorem exec_answersWithoutData {i : Instr} (hi : i.isHost = true) (hr : ∀ x y, i ≠ .pixrd x y) (s : State) :
    ∃ t, exec i s = .next t ∧ AnswersWithoutData s t := by
  cases i
  case init => exact ⟨_, rfl, guarded_answersWithoutData (finish_answersWithoutData setReady_responses _ s) _⟩
  case setint | render =>
    exact ⟨_, rfl, guarded_answersWithoutData (finish_answersWithoutData (f := id) (fun _ => rfl) _ s) _⟩
  case setbrt | pixwr | fill => exact ⟨_, rfl, guarded_answersWithoutData ⟨.ok, rfl⟩ _⟩
  case pixrd x y => exact absurd rfl (hr x y)
  case reserved0 | reserved8 | reserved9 | reservedA | reservedB | reservedC | reservedD | reservedE | reservedF =>
    exact ⟨_, rfl, .illegalCommand, rfl⟩
  all_goals cases hi

/-- `PIXRD` answers `OK` with the pixel, or an error (R96). -/
theorem pixelRead_cases (x y : Nat) (s : State) :
    pixelRead x y s = respond .ok (readPix s x y) s ∨ ∃ e, e ≠ .ok ∧ pixelRead x y s = respond e false s := by
  rcases guarded_cases (cellChecks x y s) (fun s => respond .ok (readPix s x y) s) s with ⟨e, he, h⟩ | ⟨-, h⟩
  · have hne : e ≠ .ok := by
      rintro rfl
      rw [firstError_cell] at he
      split_ifs at he <;> cases he
    exact .inr ⟨e, hne, h⟩
  · exact .inl h

/-- Settles O6: the word's fields by arithmetic, and the response by whether the command is `PIXRD`. -/
theorem responseWord : Obligations.ResponseWord := by
  unfold Obligations.ResponseWord
  refine ⟨fun ⟨st, b⟩ => ?_, decodeResponse_encodeResponse, fun i s hi => ?_⟩
  · rw [encodeResponse_toNat]
    cases st <;> rfl
  · by_cases hp : ∃ x y, i = .pixrd x y
    · obtain ⟨x, y, rfl⟩ := hp
      rcases pixelRead_cases x y s with h | ⟨e, hne, h⟩
      · refine ⟨_, .ok, readPix s x y, rfl, by rw [h, respond_responses], ?_, ?_⟩
        · rintro _ _ ⟨⟩ -
          rfl
        · rintro (hno | hno)
          · exact absurd rfl (hno x y)
          · exact absurd rfl hno
      · exact ⟨_, e, false, rfl, by rw [h, respond_responses], fun _ _ _ hok => absurd hok hne, fun _ => rfl⟩
    · have hno : ∀ x y, i ≠ .pixrd x y := fun x y h => hp ⟨x, y, h⟩
      obtain ⟨t, ht, st, hr⟩ := exec_answersWithoutData hi hno s
      exact ⟨t, st, false, ht, hr, fun x y h => absurd h (hno x y), fun _ => rfl⟩

end Sys2Proof.Machine
end

section
/-! PROOFS. What a wire operation that answers `OK` put on the wire, in numbers (R87, R112): its brackets went out
whole, and whole brackets of `N` pairs have so many events and bits. -/

namespace Sys2Proof.Machine

/-! ## Whole brackets in numbers -/

theorem noFailure_brackets (bs : List Bracket) : NoFailure (bs.flatMap bracketTrace) := by
  intro a d
  simp [bracketTrace]

theorem scanEvents_bracketTrace {n : Nat} {b : Bracket} (hb : b.data.length = n) (cuts : Bool) :
    scanEvents cuts n .outside (bracketTrace b) = some .outside := by
  simp only [bracketTrace, List.cons_append, scanEvents, scanEvent]
  rw [scanEvents_append, scanEvents_pairs cuts b.addr b.data (by omega)]
  simp [scanEvents, scanEvent, hb]

theorem wholeBrackets_brackets {n : Nat} {bs : List Bracket} (hn : ∀ b ∈ bs, b.data.length = n) :
    WholeBrackets n (bs.flatMap bracketTrace) := by
  unfold WholeBrackets
  induction bs with
  | nil => rfl
  | cons b bs ih =>
    obtain ⟨hb, hbs⟩ := List.forall_mem_cons.1 hn
    rw [List.flatMap_cons, scanEvents_append, scanEvents_bracketTrace hb]
    exact ih hbs

/-- Each bracket has one `A` and one `D`. -/
theorem count_brackets (bs : List Bracket) :
    (bs.flatMap bracketTrace).count .a = bs.length ∧ (bs.flatMap bracketTrace).count .d = bs.length := by
  have hp (b : Bracket) : (b.data.map (Event.p b.addr)).count .a = 0 ∧ (b.data.map (Event.p b.addr)).count .d = 0 := by
    simp [List.count_eq_zero]
  induction bs with
  | nil => exact ⟨rfl, rfl⟩
  | cons b bs ih => simp [bracketTrace, hp, ih]

/-- The addresses of the pairs of brackets of `n` pairs each, in order. -/
def pairAddrs (n : Nat) (bs : List Bracket) : List Byte := bs.flatMap fun b => List.replicate n b.addr

/-- Each pair of a bracket has the bracket's address. -/
theorem pairAddr_brackets {n : Nat} {bs : List Bracket} (hn : ∀ b ∈ bs, b.data.length = n) :
    (bs.flatMap bracketTrace).filterMap pairAddr = pairAddrs n bs := by
  have hp (b : Bracket) : pairAddr ∘ Event.p b.addr = fun _ => some b.addr := rfl
  rw [List.filterMap_flatMap, pairAddrs]
  refine List.flatMap_congr fun b hb => ?_
  rw [bracketTrace, List.cons_append, List.filterMap_cons_none rfl, List.filterMap_append, List.filterMap_map, hp]
  simp [List.filterMap_cons_none (f := pairAddr) (a := .d) rfl, hn b hb]

theorem countP_eventBits_pair (a d : Byte) : (eventBits (.p a d)).countP isBit = 16 := rfl

/-- Each pair puts the 16 bits of its frame on the wire (R33), and the lines of chip-select carry none. -/
theorem bits_bracketTrace (b : Bracket) :
    ((bracketTrace b).flatMap eventBits).countP isBit = 16 * b.data.length := by
  have hp : List.countP isBit ∘ eventBits ∘ Event.p b.addr = fun _ => 16 :=
    funext fun d => countP_eventBits_pair b.addr d
  simp [bracketTrace, List.countP_flatMap, Function.comp_assoc, hp, eventBits, isBit, Nat.mul_comm]

theorem bits_brackets {n : Nat} {bs : List Bracket} (hn : ∀ b ∈ bs, b.data.length = n) :
    ((bs.flatMap bracketTrace).flatMap eventBits).countP isBit = 16 * (bs.length * n) := by
  induction bs with
  | nil => simp
  | cons b bs ih =>
    obtain ⟨hb, hbs⟩ := List.forall_mem_cons.1 hn
    rw [List.flatMap_cons, List.flatMap_append, List.countP_append, bits_bracketTrace, ih hbs, hb, List.length_cons]
    ring

/-! ## The addresses of the three operations -/

theorem initBrackets_pairAddrs (n : Nat) : pairAddrs n (initBrackets n) =
    List.replicate n 0x0C ++ List.replicate n 0x0F ++ List.replicate n 0x0B ++ List.replicate n 0x09 ++
      List.replicate n 0x0C := by
  simp [pairAddrs, initBrackets, initSequence, broadcast]

theorem setintBracket_pairAddrs (n : Nat) (level : Int) :
    pairAddrs n [setintBracket n level] = List.replicate n 0x0A := by
  simp [pairAddrs, setintBracket, broadcast]

theorem rowBrackets_pairAddrs (n : Nat) (s : State) (p : Int) : pairAddrs n (rowBrackets s p) =
    (List.range 8).flatMap fun y => List.replicate n (BitVec.ofNat 8 (1 + y)) :=
  List.flatMap_map ..

/-! ## The operations that answer `OK` -/

/-- What R87 and R112 say of the wire between two states: only whole brackets of `N` pairs, so many brackets,
pairs and bits, and the pairs' addresses. -/
def PutsOnWire (s t : State) (brackets pairs bits : Nat) (addrs : List Byte) : Prop :=
  ∃ new out, t.trace = s.trace ++ new ∧ t.wire = s.wire ++ out ∧ NoFailure new ∧
    WholeBrackets s.inst.modules new ∧ new.count .a = brackets ∧ new.count .d = brackets ∧
    new.filterMap pairAddr = addrs ∧ addrs.length = pairs ∧ (out.filter isBit).length = bits

/-- Brackets of `N` pairs that went out whole, in numbers. -/
theorem putsOnWire_brackets {bs : List Bracket} {s t : State} (hn : ∀ b ∈ bs, b.data.length = s.inst.modules)
    (ht : t.trace = s.trace ++ bs.flatMap bracketTrace)
    (hw : t.wire = s.wire ++ (bs.flatMap bracketTrace).flatMap eventBits) :
    PutsOnWire s t bs.length (bs.length * s.inst.modules) (16 * (bs.length * s.inst.modules))
      (pairAddrs s.inst.modules bs) :=
  ⟨_, _, ht, hw, noFailure_brackets bs, wholeBrackets_brackets hn, (count_brackets bs).1, (count_brackets bs).2,
    pairAddr_brackets hn, by simp [pairAddrs, List.length_flatMap],
    List.countP_eq_length_filter.symm.trans (bits_brackets hn)⟩

/-- Brackets of which none failed had only `ok` draws. -/
theorem drawsOk_of_sendBrackets_ok {n : Nat} {bs : List Bracket} {s : State} (hn : ∀ b ∈ bs, b.data.length = n)
    (h : (sendBrackets bs s).2 = .ok) : DrawsOk s (bs.length * n) := by
  rcases drawsOk_or_failure s (bs.length * n) with hd | ⟨k, hk, hf⟩
  · exact hd
  · rw [(sendBrackets_fail hn hk hf).1] at h
    cases h

/-- An operation that sends brackets and answers `OK` passed its checks and sent every bracket whole. -/
theorem putsOnWire_of_guarded_ok {checks : List (Option Status)} {body f : State → State} {bs : List Bracket}
    {s : State} (hc : firstError checks ≠ some .ok) (hb : body s = finish f (sendBrackets bs s))
    (hf : ∀ u, (f u).trace = u.trace ∧ (f u).wire = u.wire) (hn : ∀ b ∈ bs, b.data.length = s.inst.modules)
    (hr : (guarded checks body s).responses = s.responses ++ [⟨.ok, false⟩]) :
    PutsOnWire s (guarded checks body s) bs.length (bs.length * s.inst.modules)
      (16 * (bs.length * s.inst.modules)) (pairAddrs s.inst.modules bs) := by
  rcases guarded_cases checks body s with ⟨e, he, h⟩ | ⟨-, h⟩
  · have heo : e = .ok := by simpa [h] using hr
    exact absurd (heo ▸ he) hc
  · rw [h, hb] at hr ⊢
    rcases finish_cases f (sendBrackets bs s) with ⟨hok, h⟩ | ⟨-, h⟩
    · obtain ⟨-, ht, hw, -⟩ := sendBrackets_ok hn (drawsOk_of_sendBrackets_ok hn hok)
      obtain ⟨hft, hfw⟩ := hf (sendBrackets bs s).1
      rw [h]
      exact putsOnWire_brackets hn (hft.trans ht) (hfw.trans hw)
    · rw [h] at hr
      simp [(sendBrackets_untouched bs s).1.responses] at hr

theorem initialise_putsOnWire {s : State} (hr : (initialise s).responses = s.responses ++ [⟨.ok, false⟩]) :
    PutsOnWire s (initialise s) 5 (5 * s.inst.modules) (80 * s.inst.modules)
      (List.replicate s.inst.modules 0x0C ++ List.replicate s.inst.modules 0x0F ++
        List.replicate s.inst.modules 0x0B ++ List.replicate s.inst.modules 0x09 ++
        List.replicate s.inst.modules 0x0C) := by
  have hc : firstError (initChecks s) ≠ some .ok := by rw [firstError_init]; split <;> simp
  have h := putsOnWire_of_guarded_ok (f := setReady) hc rfl (fun _ => ⟨rfl, rfl⟩) (initBrackets_data _) hr
  rwa [initBrackets_length, initBrackets_pairAddrs, ← Nat.mul_assoc] at h

theorem setIntensity_putsOnWire {s : State} {level : Int}
    (hr : (setIntensity level s).responses = s.responses ++ [⟨.ok, false⟩]) :
    PutsOnWire s (setIntensity level s) 1 s.inst.modules (16 * s.inst.modules)
      (List.replicate s.inst.modules 0x0A) := by
  have hc : firstError (setintChecks level s) ≠ some .ok := by rw [firstError_setint]; split_ifs <;> simp
  have h := putsOnWire_of_guarded_ok (f := id) hc rfl (fun _ => ⟨rfl, rfl⟩) (setintBracket_data _ level) hr
  rwa [List.length_singleton, setintBracket_pairAddrs, Nat.one_mul] at h

theorem renderFrame_putsOnWire {s : State} {p : Int}
    (hr : (renderFrame p s).responses = s.responses ++ [⟨.ok, false⟩]) :
    PutsOnWire s (renderFrame p s) 8 (8 * s.inst.modules) (128 * s.inst.modules)
      ((List.range 8).flatMap fun y => List.replicate s.inst.modules (BitVec.ofNat 8 (1 + y))) := by
  have hc : firstError [readyCheck s] ≠ some .ok := by rw [firstError_ready]; split <;> simp
  have h := putsOnWire_of_guarded_ok (f := id) hc rfl (fun _ => ⟨rfl, rfl⟩) (rowBrackets_data s p) hr
  rwa [rowBrackets_length, rowBrackets_pairAddrs, ← Nat.mul_assoc] at h

/-- Settles O19: an `OK` means that the operation's brackets all went out whole, and their numbers and addresses
are those of the bracket lists, which depend on `N` alone. -/
theorem wireCounts : Obligations.WireCounts := by
  unfold Obligations.WireCounts
  intro i s t h hr sent n
  refine ⟨?_, ?_, ?_⟩
  · rintro rfl
    cases h
    exact initialise_putsOnWire hr
  · rintro level rfl
    cases h
    exact setIntensity_putsOnWire hr
  · rintro p rfl
    cases h
    exact renderFrame_putsOnWire hr

end Sys2Proof.Machine
end

section
/-! PROOFS. The arithmetic of level arguments (R99): what `SETBRT` stores, and what `SETINT` sends or refuses. -/

namespace Sys2Proof.Machine

/-! ## A level as a number -/

/-- Four bits hold a level in range exactly; any other level becomes 15. -/
theorem clamp15_toNat (level : Int) :
    ((clamp15 level).toNat : Int) = if 0 ≤ level ∧ level ≤ 15 then level else 15 := by
  simp only [clamp15, levelInRange_iff]
  split_ifs with h
  · rw [BitVec.toNat_ofInt]; omega
  · rfl

/-- Eight bits hold a level in range exactly (R53). -/
theorem intensityByte_toNat {level : Int} (h0 : 0 ≤ level) (h15 : level ≤ 15) :
    ((intensityByte level).toNat : Int) = level := by
  rw [intensityByte, BitVec.toNat_ofInt]; omega

/-! ## SETBRT (R98) -/

theorem readBrt_writeBrt_same {s : State} (hb : Memory.wf brtReset s.brt = true) (x y : Nat) (v : Level) :
    readBrt (writeBrt x y v s) x y = v := Memory.read_write_same hb

theorem setBrightness_of_ready {s : State} {x y : Nat} (hx : x < 8 * s.inst.modules) (hy : y < 8)
    (hr : s.rdy = true) (level : Int) :
    setBrightness x y level s = respond .ok false (writeBrt x y (clamp15 level) s) :=
  guarded_pass (by rw [firstError_cell, if_pos ((inRange_iff s x y).2 ⟨hx, hy⟩), if_pos hr])

/-! ## The trace of a pair and of a bracket, whichever of its writes fail (R70 to R72) -/

/-- The write of the pair `(a, d)`: it was done, or it failed. -/
def IsPairOf (a d : Byte) (e : Event) : Prop := e = .p a d ∨ e = .f a d

theorem pair_trace (a d : Byte) (s : State) : ∃ e, IsPairOf a d e ∧ (pair a d s).1.trace = s.trace ++ [e] := by
  have h := pair_spec a d s
  cases hr : (pair a d s).2 with
  | ok => exact ⟨.p a d, .inl rfl, h.traceOk hr⟩
  | fail => exact ⟨.f a d, .inr rfl, h.traceFail hr⟩

/-- Writes of these pairs only, and of one at least when there is one: the first is always attempted. -/
theorem sendPairs_trace (a : Byte) (dv : List Byte) (s : State) :
    ∃ es, (∀ e ∈ es, ∃ d ∈ dv, IsPairOf a d e) ∧ (es = [] → dv = []) ∧
      (sendPairs a dv s).1.trace = s.trace ++ es := by
  induction dv generalizing s with
  | nil => exact ⟨[], by simp, fun _ => rfl, by simp [sendPairs]⟩
  | cons d dv ih =>
    obtain ⟨e, he, ht⟩ := pair_trace a d s
    rw [sendPairs_cons]
    split
    · obtain ⟨es, hes, -, ht'⟩ := ih (pair a d s).1
      have hes' : ∀ e ∈ es, ∃ d' ∈ d :: dv, IsPairOf a d' e := fun e' h' =>
        (hes e' h').imp fun _ => And.imp_left (List.mem_cons_of_mem d)
      exact ⟨e :: es, List.forall_mem_cons.2 ⟨⟨d, List.mem_cons_self, he⟩, hes'⟩, nofun, by simp [ht', ht]⟩
    · exact ⟨[e], List.forall_mem_singleton.2 ⟨d, List.mem_cons_self, he⟩, nofun, ht⟩

/-- A broadcast to at least one module: `A`, the first write, only more such writes, and `D`. -/
theorem bracket_broadcast_trace {n : Nat} (hn : 1 ≤ n) (a d : Byte) (s : State) :
    ∃ first more, IsPairOf a d first ∧ (∀ e ∈ more, IsPairOf a d e) ∧
      (bracket (broadcast n a d) s).1.trace = s.trace ++ .a :: first :: (more ++ [.d]) := by
  obtain ⟨es, hes, hne, ht⟩ := sendPairs_trace a (List.replicate n d) (openBracket s)
  have hpair : ∀ e ∈ es, IsPairOf a d e := fun e he => by
    obtain ⟨d', hd, h⟩ := hes e he
    exact List.eq_of_mem_replicate hd ▸ h
  cases es with
  | nil => exact absurd (List.replicate_eq_nil_iff d |>.1 (hne rfl)) (by omega)
  | cons first more =>
    obtain ⟨hfirst, hmore⟩ := List.forall_mem_cons.1 hpair
    refine ⟨first, more, hfirst, hmore, ?_⟩
    simp [bracket_eq, broadcast, ht]

/-! ## SETINT (R86, R116) -/

theorem sendBrackets_singleton (b : Bracket) (s : State) : sendBrackets [b] s = bracket b s := by
  rw [sendBrackets_cons]
  cases h : (bracket b s).2 with
  | ok => exact Prod.ext rfl h.symm
  | fail => exact Prod.ext rfl h.symm

theorem setIntensity_of_illegal {level : Int} (h : ¬(0 ≤ level ∧ level ≤ 15)) (s : State) :
    setIntensity level s = respond .configurationError false s :=
  guarded_error (by rw [firstError_setint, if_neg (mt (levelInRange_iff level).1 h)])

theorem setIntensity_of_ready {level : Int} (h0 : 0 ≤ level) (h15 : level ≤ 15) {s : State} (hr : s.rdy = true) :
    setIntensity level s = finish id (bracket (setintBracket s.inst.modules level) s) := by
  rw [← sendBrackets_singleton]
  exact guarded_pass (by rw [firstError_setint, if_pos ((levelInRange_iff level).2 ⟨h0, h15⟩), if_pos hr])

/-- A bracket that ends its operation leaves its own trace, and the host's response says whether it failed. -/
theorem finish_bracket (b : Bracket) (s : State) :
    ∃ st, (st = .ok ∨ st = .transmissionError) ∧ (finish id (bracket b s)).trace = (bracket b s).1.trace ∧
      (finish id (bracket b s)).responses = s.responses ++ [⟨st, false⟩] := by
  have hr := (bracket_untouched b s).1.responses
  rcases finish_cases id (bracket b s) with ⟨-, h⟩ | ⟨-, h⟩ <;> rw [h]
  · exact ⟨.ok, .inl rfl, rfl, congrArg (· ++ _) hr⟩
  · exact ⟨.transmissionError, .inr rfl, rfl, congrArg (· ++ _) hr⟩

/-- Settles O17: a level in range fits the cell's four bits and the frame's data byte, and any other is stored
as 15 or refused before the wire is touched. -/
theorem levelArithmetic : Obligations.LevelArithmetic := by
  unfold Obligations.LevelArithmetic
  intro level
  refine ⟨clamp15_toNat level, fun s x y hx hy hr hb => ?_, fun s hr => ⟨fun hl => ?_, fun h0 h15 hn => ?_⟩⟩
  · have hread : readBrt (setBrightness x y level s) x y = clamp15 level := by
      rw [setBrightness_of_ready hx hy hr]
      exact readBrt_writeBrt_same hb x y _
    exact ⟨_, rfl, hread ▸ clamp15_toNat level⟩
  · exact ⟨_, rfl, setIntensity_of_illegal hl s ▸ onlyAnswered_respond ..⟩
  · obtain ⟨st, hst, htrace, hresp⟩ := finish_bracket (setintBracket s.inst.modules level) s
    obtain ⟨first, more, hfirst, hmore, ht⟩ := bracket_broadcast_trace hn 0x0A (intensityByte level) s
    rw [← setIntensity_of_ready h0 h15 hr] at htrace hresp
    have hrest : ∀ e ∈ more ++ [.d], e = .p 0x0A (intensityByte level) ∨ e = .f 0x0A (intensityByte level) ∨ e = .d :=
      fun e he => (List.mem_append.1 he).elim (fun h => (hmore e h).imp_right .inl)
        fun h => .inr (.inr (List.mem_singleton.1 h))
    exact ⟨_, st, _, first, _, rfl, intensityByte_toNat h0 h15, htrace.trans ht, hfirst, hrest, hresp, hst⟩

end Sys2Proof.Machine
end

section
/-! PROOFS. The lit function (R106): the one cell it reads in each mode, and its order in the phase (R109). -/

namespace Sys2Proof.Machine

theorem lit_of_binary {s : State} (h : s.inst.brightMode = false) (x y : Nat) (p : Int) :
    lit s x y p = readPix s x y := by
  simp [lit, h]

theorem lit_of_bright {s : State} (h : s.inst.brightMode = true) (x y : Nat) (p : Int) :
    lit s x y p = decide (p < ((readBrt s x y).toNat : Int)) := by
  simp [lit, h]

/-- A pixel is lit alike in two states of the same mode that agree on the cell this mode reads. -/
theorem lit_congr {s s' : State} {x y : Nat} (hi : s'.inst = s.inst)
    (hb : s.inst.brightMode = true → readBrt s' x y = readBrt s x y)
    (hp : s.inst.brightMode = false → readPix s' x y = readPix s x y) (p : Int) :
    lit s' x y p = lit s x y p := by
  cases hm : s.inst.brightMode with
  | true => rw [lit_of_bright hm, lit_of_bright (hi ▸ hm), hb hm]
  | false => rw [lit_of_binary hm, lit_of_binary (hi ▸ hm), hp hm]

/-- Settles O38: in each mode `lit` is the value R106 gives it, and that value names one cell. -/
theorem litReadsOneCell : Obligations.LitReadsOneCell := by
  unfold Obligations.LitReadsOneCell
  intro s s' x y p p' hi
  refine ⟨fun hm => ⟨lit_of_binary hm x y p, fun hc => ?_⟩, fun hm => ⟨?_, fun hc => ?_⟩⟩
  · rw [lit_of_binary hm, lit_of_binary (hi ▸ hm), hc]
  · rw [lit_of_bright hm, decide_eq_true_iff]
  · rw [lit_of_bright hm, lit_of_bright (hi ▸ hm), hc]

/-- Raising the phase turns no pixel on (R109). -/
theorem lit_of_le_phase {s : State} {x y : Nat} {p p' : Int} (hle : p ≤ p') (h : lit s x y p' = true) :
    lit s x y p = true := by
  cases hm : s.inst.brightMode with
  | true =>
    rw [lit_of_bright hm, decide_eq_true_iff] at h ⊢
    exact hle.trans_lt h
  | false => rwa [lit_of_binary hm] at h ⊢

/-- At one phase a pixel of a level not below that of a lit pixel is lit (R109). -/
theorem lit_of_level_le {s : State} (hm : s.inst.brightMode = true) {x y x' y' : Nat} {p : Int}
    (hle : readBrt s x y ≤ readBrt s x' y') (h : lit s x y p = true) : lit s x' y' p = true := by
  rw [lit_of_bright hm, decide_eq_true_iff] at h ⊢
  exact h.trans_le (Int.ofNat_le.2 (BitVec.le_def.1 hle))

/-- Settles O40: the comparison of R106 is monotone on both sides, and a level of 10 is the integer 10. -/
theorem phaseOnlyDarkens : Obligations.PhaseOnlyDarkens := by
  unfold Obligations.PhaseOnlyDarkens
  intro s x y x' y' p p' hle
  refine ⟨lit_of_le_phase hle, fun hm => lit_of_level_le hm, fun hm h10 => ?_⟩
  have hlit : lit s x y p = decide (p < 10) := by rw [lit_of_bright hm, h10]; rfl
  rw [hlit, decide_eq_true_iff, decide_eq_false_iff_not]
  omega

end Sys2Proof.Machine
end

section
/-! PROOFS. What `RENDER` does, said once for each way it can end (R105, R117, R118). -/

namespace Sys2Proof.Machine

theorem renderFrame_of_not_ready {s : State} (hr : s.rdy = false) (p : Int) :
    renderFrame p s = respond .preconditionError false s :=
  guarded_error (by simp [firstError_ready, hr])

theorem renderFrame_of_ready {s : State} (hr : s.rdy = true) (p : Int) :
    renderFrame p s = finish id (sendBrackets (rowBrackets s p) s) :=
  guarded_pass (by simp [firstError_ready, hr])

/-- What an ended `RENDER` left: these events on the wire, this answer, and the engine as found. -/
structure Rendered (s t : State) (new : List Event) (st : Status) : Prop where
  trace : t.trace = s.trace ++ new
  answered : Answered s t st false
  engine : SameEngine s t
  outside : SameOutside s t

theorem Rendered.responses {s t : State} {new : List Event} {st : Status} (h : Rendered s t new st) :
    t.responses = s.responses ++ [⟨st, false⟩] := by
  obtain ⟨-, -, -, hresp⟩ := h.answered
  exact hresp

/-- Both ends of `RENDER` are a response to the state after its brackets, which touched the wire only. -/
theorem rendered_respond {bs : List Bracket} {s : State} {new : List Event}
    (ht : (sendBrackets bs s).1.trace = s.trace ++ new) (st : Status) :
    Rendered s (respond st false (sendBrackets bs s).1) new st := by
  obtain ⟨hu, -, -⟩ := sendBrackets_untouched bs s
  exact ⟨ht, ⟨rfl, rfl, rfl, congrArg (· ++ _) hu.responses⟩, ⟨hu.rdy, hu.pix, hu.brt⟩,
    ⟨hu.inst, hu.inputs, hu.oracle⟩⟩

/-- All draws `ok`: the eight row brackets go out whole. -/
theorem renderFrame_ok {s : State} (hr : s.rdy = true) (p : Int) (hd : DrawsOk s (8 * s.inst.modules)) :
    Rendered s (renderFrame p s) ((rowBrackets s p).flatMap bracketTrace) .ok ∧
      (renderFrame p s).drawn = s.drawn + 8 * s.inst.modules := by
  obtain ⟨hok, ht, -, hn⟩ := sendBrackets_ok (rowBrackets_data s p) hd
  rw [renderFrame_of_ready hr, finish_ok hok]
  exact ⟨rendered_respond ht .ok, hn⟩

/-- The first draw that fails cuts the frame short. -/
theorem renderFrame_fail {s : State} (hr : s.rdy = true) (p : Int) {k : Nat} (hk : k < 8 * s.inst.modules)
    (hf : FirstFailure s k) :
    Rendered s (renderFrame p s) (cutTrace s.inst.modules (rowBrackets s p) k) .transmissionError := by
  obtain ⟨hfail, ht, -⟩ := sendBrackets_fail (rowBrackets_data s p) hk hf
  rw [renderFrame_of_ready hr, finish_fail hfail]
  exact rendered_respond ht .transmissionError

/-- `RENDER` answers `PreconditionError`, `OK` or `TransmissionError`, and nothing else. -/
theorem renderFrame_responses (p : Int) (s : State) :
    ∃ st, (st = .preconditionError ∨ st = .ok ∨ st = .transmissionError) ∧
      (renderFrame p s).responses = s.responses ++ [⟨st, false⟩] := by
  cases hr : s.rdy with
  | false => exact ⟨_, .inl rfl, by rw [renderFrame_of_not_ready hr, respond_responses]⟩
  | true =>
    rcases drawsOk_or_failure s (8 * s.inst.modules) with hd | ⟨k, hk, hf⟩
    · exact ⟨_, .inr (.inl rfl), (renderFrame_ok hr p hd).1.responses⟩
    · exact ⟨_, .inr (.inr rfl), (renderFrame_fail hr p hk hf).responses⟩

end Sys2Proof.Machine
end

section
/-! PROOFS. The row byte as eight bits (R107), and a row of pixels that are all lit or all dark. -/

namespace Sys2Proof.Machine

/-- A sum as that of R107 is the number with these bits. -/
theorem sum_bits_eq_ofBits (n : Nat) (f : Nat → Bool) :
    ((List.range n).map fun b => (f b).toNat * 2 ^ b).sum = Nat.ofBits fun i : Fin n => f i := by
  induction n generalizing f with
  | zero => rfl
  | succ n ih =>
    have hhigh : ((List.range n).map fun b => (f (b + 1)).toNat * 2 ^ (b + 1)).sum =
        2 * Nat.ofBits fun i : Fin n => f (i + 1) := by
      rw [← ih fun b => f (b + 1), ← List.sum_map_mul_left]
      simp only [pow_succ', Nat.mul_left_comm]
    rw [List.range_succ_eq_map, List.map_cons, List.map_map, List.sum_cons, Nat.ofBits_succ, Nat.add_comm]
    exact congrArg₂ (· + ·) hhigh (Nat.mul_one _)

theorem rowByte_toNat (s : State) (y m : Nat) (p : Int) :
    (rowByte s y m p).toNat = ((List.range 8).map fun b => (lit s (8 * m + b) y p).toNat * 2 ^ b).sum := by
  refine (BitVec.toNat_ofNat ..).trans (Nat.mod_eq_of_lt ?_)
  rw [sum_bits_eq_ofBits 8 fun b => lit s (8 * m + b) y p]
  exact Nat.ofBits_lt_two_pow _

/-- Bit `b` of the row byte is column `8m + b` (R107). -/
theorem rowByte_getLsbD (s : State) (y m : Nat) (p : Int) {b : Nat} (hb : b < 8) :
    (rowByte s y m p).getLsbD b = lit s (8 * m + b) y p := by
  rw [BitVec.getLsbD, rowByte_toNat, sum_bits_eq_ofBits 8 fun b => lit s (8 * m + b) y p]
  exact Nat.testBit_ofBits_lt _ b hb

/-- Data bit number `b` of a frame on the wire is bit `7 - b` of the data byte (R33). -/
theorem frameBits_pairFrame_data (a d : Byte) {b : Nat} (hb : b < 8) :
    (frameBits (pairFrame a d))[8 + b]? = some (d.getLsbD (7 - b)) := by
  rw [← pairFrame_getLsbD_data a d (by omega : 7 - b < 8)]
  simp [frameBits, show 8 + b < 16 by omega, show 15 - (8 + b) = 7 - b by omega]

/-- Settles O39: the byte is the number whose bit `b` is column `8m + b`, the frame sends its bits from 7 down,
and no end of `RENDER` is an `AddressError`. -/
theorem rowByteBits : Obligations.RowByteBits := by
  unfold Obligations.RowByteBits
  intro s y m b p _ hm hb
  refine ⟨by omega, rowByte_getLsbD s y m p hb, ?_, ?_, ?_⟩
  · rw [rowByte_toNat]
    congr 1
    refine List.map_congr_left fun c _ => ?_
    cases lit s (8 * m + c) y p <;> simp
  · rw [frameBits_pairFrame_data _ _ hb, rowByte_getLsbD s y m p (by omega)]
  · rintro t r ⟨⟩ h
    obtain ⟨st, hst, hresp⟩ := renderFrame_responses p s
    have hae : st = .addressError ∧ false = r := by simpa [hresp] using h
    rcases hst with rfl | rfl | rfl <;> cases hae.1

/-- Eight columns that are all lit, or all dark, make this byte. -/
def uniformByte (v : Bool) : Byte := if v then 0xFF else 0x00

theorem uniformByte_getLsbD (v : Bool) {b : Nat} (hb : b < 8) : (uniformByte v).getLsbD b = v := by
  revert v b
  decide

theorem rowByte_of_uniform {s : State} {y m : Nat} {p : Int} {v : Bool}
    (h : ∀ b < 8, lit s (8 * m + b) y p = v) : rowByte s y m p = uniformByte v :=
  BitVec.eq_of_getLsbD_eq fun b hb => by rw [rowByte_getLsbD s y m p hb, uniformByte_getLsbD v hb, h b hb]

end Sys2Proof.Machine
end

section
/-! PROOFS. Frames with every pixel lit or every pixel dark (R110, R111). -/

namespace Sys2Proof.Machine

theorem bracketTrace_broadcast (n : Nat) (a d : Byte) : bracketTrace (broadcast n a d) = broadcastTrace n a d := by
  simp [bracketTrace, broadcast, broadcastTrace]

/-- A row whose pixels are all lit, or all dark, is a broadcast of one byte. -/
theorem rowBracket_of_uniform {s : State} {p : Int} {y : Nat} {v : Bool}
    (h : ∀ x < 8 * s.inst.modules, lit s x y p = v) :
    rowBracket s p y = broadcast s.inst.modules (digitAddr y) (uniformByte v) := by
  have hdata : rowData s y p = List.replicate s.inst.modules (uniformByte v) := by
    rw [List.eq_replicate_iff]
    refine ⟨by simp [rowData], fun d hd => ?_⟩
    obtain ⟨m, hm, rfl⟩ := List.mem_map.1 hd
    have hm := List.mem_range.1 hm
    exact rowByte_of_uniform fun b hb => h _ (by omega)
  rw [rowBracket, hdata, broadcast]

/-- All draws `ok` and every pixel lit, or every pixel dark: `RENDER` sends one byte in every pair. -/
theorem render_of_uniform {s : State} {p : Int} {v : Bool} (hr : s.rdy = true)
    (hd : DrawsOk s (8 * s.inst.modules)) (h : ∀ x y, x < 8 * s.inst.modules → y < 8 → lit s x y p = v) :
    ∃ t, exec (.render p) s = .next t ∧
      t.trace = s.trace ++ ((List.range 8).flatMap fun y =>
        broadcastTrace s.inst.modules (BitVec.ofNat 8 (1 + y)) (uniformByte v)) ∧
      Answered s t .ok false := by
  obtain ⟨hren, -⟩ := renderFrame_ok hr p hd
  refine ⟨_, rfl, ?_, hren.answered⟩
  rw [hren.trace, rowBrackets, List.flatMap_map]
  congr 1
  refine List.flatMap_congr fun y hy => ?_
  rw [rowBracket_of_uniform fun x hx => h x y hx (List.mem_range.1 hy), bracketTrace_broadcast, digitAddr]

/-- Settles O42: every level lies between 0 and 15, so the comparison of R106 is decided by the phase alone. -/
theorem phaseOutOfRange : Obligations.PhaseOutOfRange := by
  unfold Obligations.PhaseOutOfRange
  intro s p d hm hr hd hp
  have hlit (x y : Nat) : lit s x y p = decide (p < 0) := by
    have hlt := (readBrt s x y).isLt
    rw [lit_of_bright hm, decide_eq_decide]
    omega
  have hbyte : d = uniformByte (decide (p < 0)) := by
    rcases hp with ⟨hneg, rfl⟩ | ⟨hge, rfl⟩
    · rw [decide_eq_true hneg]; rfl
    · rw [decide_eq_false (by omega)]; rfl
  exact ⟨hlit, hbyte ▸ render_of_uniform hr hd fun x y _ _ => hlit x y⟩

/-- Settles O43: a level of 15 is above every phase up to 14, and a dark `PIX` is dark at every phase. -/
theorem resetBuffersFrame : Obligations.ResetBuffersFrame := by
  unfold Obligations.ResetBuffersFrame
  rintro s p d hr hd (⟨hm, hcells, -, h14, rfl⟩ | ⟨hm, hcells, rfl⟩)
  · refine render_of_uniform (v := true) hr hd fun x y hx hy => ?_
    rw [lit_of_bright hm, hcells x y hx hy, decide_eq_true_iff]
    exact Int.lt_of_le_of_lt h14 (by decide)
  · exact render_of_uniform (v := false) hr hd fun x y hx hy => by rw [lit_of_binary hm, hcells x y hx hy]

end Sys2Proof.Machine
end

section
/-! PROOFS. `RENDER` is a function of what R113 names. -/

namespace Sys2Proof.Machine

/-- The row brackets depend on `N`, the mode and the buffer this mode reads. -/
theorem rowBrackets_congr {s s' : State} (hi : s'.inst = s.inst)
    (hb : s.inst.brightMode = true → s'.brt = s.brt) (hp : s.inst.brightMode = false → s'.pix = s.pix) (p : Int) :
    rowBrackets s' p = rowBrackets s p := by
  have hlit (x y : Nat) : lit s' x y p = lit s x y p :=
    lit_congr hi (fun hm => by rw [readBrt, hb hm, readBrt]) (fun hm => by rw [readPix, hp hm, readPix]) p
  have hrow : rowBracket s' p = rowBracket s p :=
    funext fun y => by simp only [rowBracket, rowData, rowByte, hlit, hi]
  rw [rowBrackets, hrow, rowBrackets]

/-- The next draws of two states with the same coming answers. -/
theorem drawsOk_congr {s s' : State} (h : ∀ i, answer s' (s'.drawn + i) = answer s (s.drawn + i)) {k : Nat}
    (hd : DrawsOk s k) : DrawsOk s' k := fun i hi => (h i).trans (hd i hi)

/-- The same row brackets and the same coming draws put the same events on the wire and give the same answer. -/
theorem renderFrame_deterministic {s s' : State} {p : Int} (hi : s'.inst = s.inst) (hr : s.rdy = true)
    (hr' : s'.rdy = true) (hbs : rowBrackets s' p = rowBrackets s p)
    (ha : ∀ i, answer s' (s'.drawn + i) = answer s (s.drawn + i)) :
    ∃ new st, Rendered s (renderFrame p s) new st ∧ Rendered s' (renderFrame p s') new st := by
  rcases drawsOk_or_failure s (8 * s.inst.modules) with hd | ⟨k, hk, hd, hf⟩
  · exact ⟨_, _, (renderFrame_ok hr p hd).1, hbs ▸ (renderFrame_ok hr' p (hi ▸ drawsOk_congr ha hd)).1⟩
  · have h' := renderFrame_fail hr' p (hi ▸ hk) ⟨drawsOk_congr ha hd, (ha k).trans hf⟩
    rw [hi, hbs] at h'
    exact ⟨_, _, renderFrame_fail hr p hk ⟨hd, hf⟩, h'⟩

/-- Settles O44: the row brackets and the draws fix the events and the answer, and a `RENDER` leaves all that the
next one's brackets depend on. -/
theorem renderDeterministicIdempotent : Obligations.RenderDeterministicIdempotent := by
  unfold Obligations.RenderDeterministicIdempotent
  refine ⟨fun s s' p hi hr hr' hb hp ha => ?_, fun s p hr hd => ?_⟩
  · obtain ⟨new, st, h, h'⟩ := renderFrame_deterministic hi hr hr' (rowBrackets_congr hi hb hp p) ha
    exact ⟨_, _, new, st, rfl, rfl, h.trace, h'.trace, h.responses, h'.responses⟩
  · obtain ⟨h, hdrawn⟩ := renderFrame_ok hr p (hd.mono (by omega))
    obtain ⟨hrdy, hpix, hbrt⟩ := h.engine
    obtain ⟨hinst, -, horacle⟩ := h.outside
    have hd' : DrawsOk (renderFrame p s) (8 * (renderFrame p s).inst.modules) := fun i hi => by
      rw [hinst] at hi
      rw [answer, horacle, hdrawn, Nat.add_assoc]
      exact hd _ (by omega)
    obtain ⟨h', -⟩ := renderFrame_ok (hrdy.trans hr) p hd'
    obtain ⟨hrdy', hpix', hbrt'⟩ := h'.engine
    rw [rowBrackets_congr hinst (fun _ => hbrt) (fun _ => hpix)] at h'
    exact ⟨_, _, _, rfl, rfl, h.trace, h'.trace, h.engine, hrdy'.trans hrdy, hpix'.trans hpix, hbrt'.trans hbrt⟩

end Sys2Proof.Machine
end

section
/-! PROOFS. The errors of the host commands (60_exceptions.md): the table of R116 to R122 as a relation, what a
command does when it applies, and that no other error is answered but the `TransmissionError` of R117. -/

namespace Sys2Proof.Machine

/-! ## The errors that the checks find (R116, R118, R121 to R123) -/

/-- The three operations on one cell. -/
inductive CellOperation (x y : Nat) : Instr → Prop where
  | pixwr (v : Bool) : CellOperation x y (.pixwr x y v)
  | pixrd : CellOperation x y (.pixrd x y)
  | setbrt (level : Int) : CellOperation x y (.setbrt x y level)

/-- The error that the checks of a host command find, in the order of R123. -/
inductive CheckError (s : State) : Instr → Status → Prop where
  | level {level : Int} (hl : level < 0 ∨ 15 < level) : CheckError s (.setint level) .configurationError
  | address {i : Instr} {x y : Nat} (hc : CellOperation x y i) (hxy : 8 * s.inst.modules ≤ x ∨ 8 ≤ y) :
      CheckError s i .addressError
  | initReady (hr : s.rdy = true) : CheckError s .init .preconditionError
  | setintNotReady {level : Int} (h0 : 0 ≤ level) (h15 : level ≤ 15) (hr : s.rdy = false) :
      CheckError s (.setint level) .preconditionError
  | cellNotReady {i : Instr} {x y : Nat} (hc : CellOperation x y i) (hx : x < 8 * s.inst.modules) (hy : y < 8)
      (hr : s.rdy = false) : CheckError s i .preconditionError
  | fillNotReady {v : Bool} (hr : s.rdy = false) : CheckError s (.fill v) .preconditionError
  | renderNotReady {p : Int} (hr : s.rdy = false) : CheckError s (.render p) .preconditionError
  | reserved {i : Instr} (hi : i ∈ reservedCodes) : CheckError s i .illegalCommand

/-- An operation on a cell has the checks of R123 before its body, which answers `OK`. -/
theorem exec_of_cellOperation {i : Instr} {x y : Nat} (hc : CellOperation x y i) (s : State) :
    ∃ body, exec i s = .next (guarded (cellChecks x y s) body s) ∧
      ∃ r, (body s).responses = s.responses ++ [⟨.ok, r⟩] := by
  cases hc with
  | pixwr v => exact ⟨_, rfl, false, rfl⟩
  | pixrd => exact ⟨_, rfl, readPix s x y, rfl⟩
  | setbrt level => exact ⟨_, rfl, false, rfl⟩

/-- What a check finds is the command's only effect. -/
theorem exec_of_checkError {i : Instr} {s : State} {e : Status} (h : CheckError s i e) :
    exec i s = .next (respond e false s) := by
  cases h with
  | level hl => exact congrArg Host.Outcome.next (setIntensity_of_illegal (by omega) s)
  | address hc hxy =>
    obtain ⟨body, hb, -⟩ := exec_of_cellOperation hc s
    rw [hb, guarded_error (e := .addressError) (by rw [firstError_cell, if_neg (by rw [inRange_iff]; omega)])]
  | initReady hr => exact congrArg Host.Outcome.next (guarded_error (by rw [firstError_init, if_pos hr]))
  | setintNotReady h0 h15 hr =>
    exact congrArg Host.Outcome.next (guarded_error (by simp [firstError_setint, levelInRange_iff, h0, h15, hr]))
  | cellNotReady hc hx hy hr =>
    obtain ⟨body, hb, -⟩ := exec_of_cellOperation hc s
    rw [hb, guarded_error (e := .preconditionError) (by simp [firstError_cell, inRange_iff, hx, hy, hr])]
  | fillNotReady hr => exact congrArg Host.Outcome.next (guarded_error (by simp [firstError_ready, hr]))
  | renderNotReady hr => exact congrArg Host.Outcome.next (renderFrame_of_not_ready hr _)
  | reserved hi => exact exec_of_mem_reservedCodes hi s

theorem exec_onlyAnswered_of_checkError {i : Instr} {s : State} {e : Status} (h : CheckError s i e) :
    ∃ t, exec i s = .next t ∧ OnlyAnswered s t e false :=
  ⟨_, exec_of_checkError h, onlyAnswered_respond e false s⟩

/-! ## The operations that drive the wire, past their checks (R85, R86, R105) -/

/-- A wire operation that passes its checks, with its state change on `OK` and its brackets. -/
inductive WireOperation (s : State) : Instr → (State → State) → List Bracket → Prop where
  | init (hr : s.rdy = false) : WireOperation s .init setReady (initBrackets s.inst.modules)
  | setint {level : Int} (h0 : 0 ≤ level) (h15 : level ≤ 15) (hr : s.rdy = true) :
      WireOperation s (.setint level) id [setintBracket s.inst.modules level]
  | render {p : Int} (hr : s.rdy = true) : WireOperation s (.render p) id (rowBrackets s p)

section
variable {i : Instr} {s : State} {f : State → State} {bs : List Bracket}

theorem exec_of_wireOperation (h : WireOperation s i f bs) :
    exec i s = .next (finish f (sendBrackets bs s)) := by
  cases h with
  | init hr => exact congrArg Host.Outcome.next (guarded_pass (by simp [firstError_init, hr]))
  | setint h0 h15 hr =>
    rw [sendBrackets_singleton]
    exact congrArg Host.Outcome.next (setIntensity_of_ready h0 h15 hr)
  | render hr => exact congrArg Host.Outcome.next (renderFrame_of_ready hr _)

theorem WireOperation.data_length (h : WireOperation s i f bs) : ∀ b ∈ bs, b.data.length = s.inst.modules := by
  cases h with
  | init hr => exact initBrackets_data _
  | setint h0 h15 hr => exact setintBracket_data _ _
  | render hr => exact rowBrackets_data s _

/-- The state change on `OK` answers nothing by itself. -/
theorem WireOperation.responses (h : WireOperation s i f bs) (u : State) : (f u).responses = u.responses := by
  cases h with
  | init hr => exact setReady_responses u
  | setint h0 h15 hr | render hr => rfl

end

/-- A bracket that fails releases chip-select, and no later one asserts it again (R72, R117). -/
theorem sendBrackets_fail_cs {bs : List Bracket} {s : State} (h : (sendBrackets bs s).2 = .fail) :
    (sendBrackets bs s).1.cs = .deasserted := by
  cases bs with
  | nil => cases h
  | cons b bs =>
    obtain ⟨-, hcs, -⟩ := bracket_untouched b s
    rw [sendBrackets_cons]
    split
    · obtain ⟨-, hrest, -⟩ := sendBrackets_untouched bs (bracket b s).1
      exact hrest hcs
    · exact hcs

/-! ## Every host command: a check's error, `OK`, or brackets -/

/-- How a host command ends. `exec_host_cases` leaves open which error is answered, and when; here that is said. -/
inductive HostOutcome (s : State) (i : Instr) (t : State) : Prop where
  | error (e : Status) (he : CheckError s i e) (ht : t = respond e false s)
  | ok (r : Bool) (hr : t.responses = s.responses ++ [⟨.ok, r⟩])
  | wire (f : State → State) (bs : List Bracket) (hw : WireOperation s i f bs)
      (ht : t = finish f (sendBrackets bs s))

section
variable {i : Instr} {s t : State}

theorem HostOutcome.of_checkError {e : Status} (h : exec i s = .next t) (he : CheckError s i e) :
    HostOutcome s i t :=
  .error e he (Host.Outcome.next.inj (h.symm.trans (exec_of_checkError he)))

theorem HostOutcome.of_wireOperation {f : State → State} {bs : List Bracket} (h : exec i s = .next t)
    (hw : WireOperation s i f bs) : HostOutcome s i t :=
  .wire f bs hw (Host.Outcome.next.inj (h.symm.trans (exec_of_wireOperation hw)))

theorem CellOperation.hostOutcome {x y : Nat} (hc : CellOperation x y i) (h : exec i s = .next t) :
    HostOutcome s i t := by
  by_cases hxy : x < 8 * s.inst.modules ∧ y < 8
  · cases hr : s.rdy with
    | false => exact .of_checkError h (.cellNotReady hc hxy.1 hxy.2 hr)
    | true =>
      obtain ⟨body, hb, r, hok⟩ := exec_of_cellOperation hc s
      rw [hb, guarded_pass (by simp [firstError_cell, inRange_iff, hxy, hr])] at h
      exact .ok r (Host.Outcome.next.inj h ▸ hok)
  · exact .of_checkError h (.address hc (by omega))

/-- A host command falls under the table of check errors, or passes its checks: then it answers `OK` or drives
the wire. -/
theorem exec_hostOutcome (hi : i.isHost = true) (h : exec i s = .next t) : HostOutcome s i t := by
  cases i
  case init =>
    cases hr : s.rdy with
    | false => exact .of_wireOperation h (.init hr)
    | true => exact .of_checkError h (.initReady hr)
  case setint level =>
    by_cases hl : 0 ≤ level ∧ level ≤ 15
    · cases hr : s.rdy with
      | false => exact .of_checkError h (.setintNotReady hl.1 hl.2 hr)
      | true => exact .of_wireOperation h (.setint hl.1 hl.2 hr)
    · exact .of_checkError h (.level (by omega))
  case render p =>
    cases hr : s.rdy with
    | false => exact .of_checkError h (.renderNotReady hr)
    | true => exact .of_wireOperation h (.render hr)
  case fill v =>
    cases hr : s.rdy with
    | false => exact .of_checkError h (.fillNotReady hr)
    | true =>
      cases h
      exact .ok false (by rw [fillPixels, guarded_pass (by simp [firstError_ready, hr])]; rfl)
  case setbrt x y level => exact (CellOperation.setbrt level).hostOutcome h
  case pixwr x y v => exact (CellOperation.pixwr v).hostOutcome h
  case pixrd x y => exact CellOperation.pixrd.hostOutcome h
  case reserved0 | reserved8 | reserved9 | reservedA | reservedB | reservedC | reservedD | reservedE | reservedF =>
    exact .of_checkError h (.reserved (by decide))
  all_goals cases hi

/-- The status of a response read back from the list it was appended to. -/
theorem status_eq_of_respond {u : State} {e e' : Status} {b b' : Bool} (hu : u.responses = s.responses)
    (h : (respond e b u).responses = s.responses ++ [⟨e', b'⟩]) : e = e' := by
  rw [respond_responses, hu] at h
  cases List.append_cancel_left h
  rfl

/-- A host command that answers an error: a check found it, or a pair write of its brackets failed. -/
theorem exec_error_cases {e : Status} {r : Bool} (hi : i.isHost = true) (h : exec i s = .next t)
    (hr : t.responses = s.responses ++ [⟨e, r⟩]) (hne : e ≠ .ok) :
    (CheckError s i e ∧ t = respond e false s) ∨
    (e = .transmissionError ∧ ∃ f bs, WireOperation s i f bs ∧ (sendBrackets bs s).2 = .fail ∧
      t = respond .transmissionError false (sendBrackets bs s).1) := by
  rcases exec_hostOutcome hi h with ⟨e', he, rfl⟩ | ⟨r', hok⟩ | ⟨f, bs, hw, rfl⟩
  · obtain rfl := status_eq_of_respond rfl hr
    exact .inl ⟨he, rfl⟩
  · rw [hok] at hr
    cases List.append_cancel_left hr
    exact absurd rfl hne
  · obtain ⟨hu, -, -⟩ := sendBrackets_untouched bs s
    rcases finish_cases f (sendBrackets bs s) with ⟨-, ht⟩ | ⟨hfail, ht⟩ <;> rw [ht] at hr
    · exact absurd (status_eq_of_respond ((hw.responses _).trans hu.responses) hr).symm hne
    · exact .inr ⟨(status_eq_of_respond hu.responses hr).symm, f, bs, hw, hfail, ht⟩

/-- Every error but `TransmissionError` is one that a check found. -/
theorem checkError_of_answer {e : Status} {r : Bool} (hi : i.isHost = true) (h : exec i s = .next t)
    (hr : t.responses = s.responses ++ [⟨e, r⟩]) (hne : e ≠ .ok) (hnt : e ≠ .transmissionError) :
    CheckError s i e ∧ t = respond e false s := by
  rcases exec_error_cases hi h hr hne with hc | ⟨he, -⟩
  · exact hc
  · exact absurd he hnt

/-- A `TransmissionError` is a failed pair write of a wire operation. -/
theorem wireOperation_of_transmissionError {r : Bool} (hi : i.isHost = true) (h : exec i s = .next t)
    (hr : t.responses = s.responses ++ [⟨.transmissionError, r⟩]) :
    ∃ f bs, WireOperation s i f bs ∧ (sendBrackets bs s).2 = .fail ∧
      t = respond .transmissionError false (sendBrackets bs s).1 := by
  rcases exec_error_cases hi h hr (by decide) with ⟨hc, -⟩ | ⟨-, hw⟩
  · cases hc
  · exact hw

end

/-! ## The statements -/

/-- Settles O16: an illegal level is an error of the table, and the table's only `ConfigurationError`. -/
theorem configurationErrorOnlyFromSetint : Obligations.ConfigurationErrorOnlyFromSetint := by
  unfold Obligations.ConfigurationErrorOnlyFromSetint
  refine ⟨fun s level hl => exec_onlyAnswered_of_checkError (.level hl), fun i s t r hi h hr => ?_⟩
  obtain ⟨hc, -⟩ := checkError_of_answer hi h hr (by decide) (by decide)
  cases hc with
  | level hl => exact ⟨_, rfl, hl⟩

/-- Settles O25: an address out of range is an error of the table for each operation on a cell, and the table's
only `AddressError`. -/
theorem addressErrorOnOutOfRange : Obligations.AddressErrorOnOutOfRange := by
  unfold Obligations.AddressErrorOnOutOfRange
  refine ⟨fun s x y hxy => ?_, fun i s t r hi h hr => ?_⟩
  · have herr : ∀ {i}, CellOperation x y i → ∃ t, exec i s = .next t ∧ OnlyAnswered s t .addressError false :=
      fun hc => exec_onlyAnswered_of_checkError (.address hc hxy)
    exact ⟨fun v => herr (.pixwr v), herr .pixrd, fun level => herr (.setbrt level)⟩
  · obtain ⟨hc, -⟩ := checkError_of_answer hi h hr (by decide) (by decide)
    cases hc with
    | address hc hxy =>
      refine ⟨_, _, hxy, ?_⟩
      cases hc with
      | pixwr v => exact .inl ⟨v, rfl⟩
      | pixrd => exact .inr (.inl rfl)
      | setbrt level => exact .inr (.inr ⟨level, rfl⟩)

/-- Settles O26: the lifecycle rows of the table, read in both directions. -/
theorem lifecycleCheck : Obligations.LifecycleCheck := by
  unfold Obligations.LifecycleCheck
  intro s
  refine ⟨fun hr => exec_onlyAnswered_of_checkError (.initReady hr), fun hr => ⟨?_, fun x y hx hy => ?_, ?_, ?_⟩,
    fun i t r hi h hresp => ?_⟩
  · exact fun level h0 h15 => exec_onlyAnswered_of_checkError (.setintNotReady h0 h15 hr)
  · have herr : ∀ {i}, CellOperation x y i →
        ∃ t, exec i s = .next t ∧ OnlyAnswered s t .preconditionError false :=
      fun hc => exec_onlyAnswered_of_checkError (.cellNotReady hc hx hy hr)
    exact ⟨fun level => herr (.setbrt level), fun v => herr (.pixwr v), herr .pixrd⟩
  · exact fun v => exec_onlyAnswered_of_checkError (.fillNotReady hr)
  · exact fun p => exec_onlyAnswered_of_checkError (.renderNotReady hr)
  · obtain ⟨hc, -⟩ := checkError_of_answer hi h hresp (by decide) (by decide)
    cases hc with
    | initReady hr => exact .inl ⟨rfl, hr⟩
    | cellNotReady hc hx hy hr => exact .inr ⟨by cases hc <;> exact nofun, hr⟩
    | setintNotReady h0 h15 hr | fillNotReady hr | renderNotReady hr => exact .inr ⟨nofun, hr⟩

/-- Settles O27: the reserved codes are the table's rows of `IllegalCommand`. -/
theorem reservedCodesAnswerIllegalCommand : Obligations.ReservedCodesAnswerIllegalCommand := by
  unfold Obligations.ReservedCodesAnswerIllegalCommand
  exact fun i s hi => exec_onlyAnswered_of_checkError (.reserved hi)

/-- Settles O28: a check's error is a bare response to the state before, a `TransmissionError` one to the state
after the brackets, which touched the wire only. -/
theorem errorsArePrecise : Obligations.ErrorsArePrecise := by
  unfold Obligations.ErrorsArePrecise
  intro i s t e r hi h hr
  refine ⟨fun he => ?_, ?_⟩
  · have hne : e ≠ .ok ∧ e ≠ .transmissionError := by rcases he with rfl | rfl | rfl | rfl <;> decide
    obtain ⟨-, rfl⟩ := checkError_of_answer hi h hr hne.1 hne.2
    exact onlyAnswered_respond e false s
  · rintro rfl
    obtain ⟨f, bs, -, hfail, rfl⟩ := wireOperation_of_transmissionError hi h hr
    obtain ⟨new, hnew⟩ := (sendBrackets_grows bs s).trace
    have hend := rendered_respond hnew .transmissionError
    exact ⟨hend.engine, hend.outside, hend.answered, sendBrackets_fail_cs hfail, new, hend.trace⟩

/-- A wire operation whose draw `k` is the first to fail (R117): the brackets are cut there, and the operation
answers from the state they left. -/
theorem WireOperation.fails {i : Instr} {s : State} {f : State → State} {bs : List Bracket} {k : Nat}
    (hw : WireOperation s i f bs) (hk : k < bs.length * s.inst.modules) (hf : FirstFailure s k) :
    ∃ t, exec i s = .next t ∧ t.trace = s.trace ++ cutTrace s.inst.modules bs k ∧ t.cs = .deasserted ∧
      t.drawn = s.drawn + (k + 1) ∧ Answered s t .transmissionError false ∧ SameEngine s t ∧ SameOutside s t := by
  obtain ⟨hfail, htrace, hdrawn⟩ := sendBrackets_fail hw.data_length hk hf
  have hend := rendered_respond htrace .transmissionError
  exact ⟨_, (exec_of_wireOperation hw).trans (congrArg _ (finish_fail hfail)), hend.trace,
    sendBrackets_fail_cs hfail, hdrawn, hend.answered, hend.engine, hend.outside⟩

/-- Settles O18: each of the three cases is a wire operation past its checks, and only those fail a pair write. -/
theorem wireOperationFails : Obligations.WireOperationFails := by
  unfold Obligations.WireOperationFails
  refine ⟨fun s i bs k hop hk hf => ?_, fun i s t r hi h hr => ?_⟩
  · rcases hop with ⟨rfl, hr, rfl⟩ | ⟨level, rfl, h0, h15, hr, rfl⟩ | ⟨p, rfl, hr, rfl⟩
    · exact (WireOperation.init hr).fails hk hf
    · exact (WireOperation.setint h0 h15 hr).fails hk hf
    · exact (WireOperation.render hr).fails hk hf
  · obtain ⟨f, bs, hw, -⟩ := wireOperation_of_transmissionError hi h hr
    cases hw with
    | init hr => exact .inl rfl
    | setint h0 h15 hr => exact .inr (.inl ⟨_, rfl⟩)
    | render hr => exact .inr (.inr ⟨_, rfl⟩)

end Sys2Proof.Machine
end

section
/-! PROOFS. What the trace says of the chips' registers after a wire operation that fails (R105, R150, U3; log
entry 13): the whole brackets before the failed one wrote theirs, and the failed one makes its own unknown. -/

namespace Sys2Proof.Machine

/-! ## Whole brackets, and a failed one after them -/

section
variable {n m k : Nat} {a : Byte} {bs : List Bracket}

/-- Whole brackets leave a register that none of them names as it was (R41). -/
theorem chipRegister_brackets_of_ne (hm : m < n) (hn : ∀ b ∈ bs, b.data.length = n) (ha : ∀ b ∈ bs, b.addr ≠ a)
    (t : List Event) : chipRegister n m a (t ++ bs.flatMap bracketTrace) = chipRegister n m a t := by
  induction bs generalizing t with
  | nil => simp
  | cons b bs ih =>
    rw [List.forall_mem_cons] at hn ha
    rw [List.flatMap_cons, ← List.append_assoc, ih hn.2 ha.2, chipRegister_bracket a hn.1 hm, if_neg ha.1]

/-- Brackets that a failure cuts in bracket `b`: its registers are unknown, the others as the whole brackets before
it left them. -/
theorem chipRegister_cutTrace (a : Byte) (hn : ∀ b ∈ bs, b.data.length = n) (hn0 : 0 < n) {b : Bracket}
    (hb : bs[k / n]? = some b) (t : List Event) : chipRegister n m a (t ++ cutTrace n bs k) =
      if a ∈ unknownAfterFailure b.addr then none
      else chipRegister n m a (t ++ (bs.take (k / n)).flatMap bracketTrace) := by
  have hj : k % n < b.data.length := (Nat.mod_lt k hn0).trans_eq (hn b (List.mem_of_getElem? hb)).symm
  simp only [cutTrace, hb, Option.toList_some, List.flatMap_singleton]
  rw [← List.append_assoc, chipRegister_failed n m a hj]

theorem mem_unknownAfterFailure_self (a : Byte) : a ∈ unknownAfterFailure a := by
  unfold unknownAfterFailure
  split
  · assumption
  · exact List.mem_singleton_self a

/-- Brackets whose failures all make the same registers `u` unknown: cut anywhere, they leave `u` unknown and the
rest as it was. -/
theorem chipRegister_cutTrace_of_unknown {u : List Byte} (hn : ∀ b ∈ bs, b.data.length = n)
    (hu : ∀ b ∈ bs, unknownAfterFailure b.addr = u) (hk : k < bs.length * n) (hm : m < n) (t : List Event) :
    chipRegister n m a (t ++ cutTrace n bs k) = if a ∈ u then none else chipRegister n m a t := by
  have hq : k / n < bs.length := Nat.div_lt_of_lt_mul (by rwa [Nat.mul_comm])
  rw [chipRegister_cutTrace a hn (Nat.zero_lt_of_lt hm) (List.getElem?_eq_getElem hq), hu _ (List.getElem_mem hq)]
  by_cases ha : a ∈ u
  · rw [if_pos ha, if_pos ha]
  · have hne : ∀ b ∈ bs, b.addr ≠ a := by
      rintro b hb rfl
      exact ha (hu b hb ▸ mem_unknownAfterFailure_self b.addr)
    rw [if_neg ha, if_neg ha, chipRegister_brackets_of_ne hm (fun b hb => hn b (List.mem_of_mem_take hb))
      fun b hb => hne b (List.mem_of_mem_take hb)]

end

/-! ## The brackets of INIT and SETINT (R85, R86) -/

theorem initBrackets_unknown (n : Nat) : ∀ b ∈ initBrackets n, unknownAfterFailure b.addr = controlRegisters := by
  simp [initBrackets, initSequence, broadcast, unknownAfterFailure, controlRegisters]

theorem setintBracket_unknown (n : Nat) (level : Int) :
    ∀ b ∈ [setintBracket n level], unknownAfterFailure b.addr = [0x0A] := by
  simp [setintBracket, broadcast, unknownAfterFailure, controlRegisters]

/-! ## The rows of RENDER (R54, R105) -/

theorem digitAddr_toNat {y : Nat} (hy : y < 8) : (digitAddr y).toNat = 1 + y := by
  simp only [digitAddr, BitVec.toNat_ofNat]
  omega

theorem digitAddr_inj {y z : Nat} (hy : y < 8) (hz : z < 8) : digitAddr y = digitAddr z ↔ y = z := by
  rw [← BitVec.toNat_inj, digitAddr_toNat hy, digitAddr_toNat hz, Nat.add_left_cancel_iff]

/-- The digit registers are at the addresses 1 to 8 only (R54). -/
theorem digitAddr_ne {y : Nat} {a : Byte} (hy : y < 8) (ha : a = 0 ∨ 8 < a.toNat) : digitAddr y ≠ a := by
  rintro rfl
  have hnat := digitAddr_toNat hy
  rcases ha with h0 | h8
  · simp only [h0, BitVec.ofNat_eq_ofNat, BitVec.toNat_ofNat, Nat.zero_mod] at hnat
    omega
  · omega

/-- A failed row makes its own digit register unknown, and no other. -/
theorem unknownAfterFailure_digitAddr {y : Nat} (hy : y < 8) : unknownAfterFailure (digitAddr y) = [digitAddr y] := by
  have hc : ∀ c ∈ controlRegisters, 8 < c.toNat := by decide
  exact if_neg fun h => digitAddr_ne hy (.inr (hc _ h)) rfl

section
variable {s : State} {p : Int} {m q : Nat}

theorem rowBrackets_getElem? (hq : q < 8) : (rowBrackets s p)[q]? = some (rowBracket s p q) := by
  simp [rowBrackets, rows, hq]

theorem rowBrackets_take_succ (hq : q < 8) :
    (rowBrackets s p).take (q + 1) = (rowBrackets s p).take q ++ [rowBracket s p q] := by
  rw [List.take_add_one, rowBrackets_getElem? hq, Option.toList_some]

/-- Each bracket of `RENDER` is at the address of a digit register. -/
theorem rowBrackets_addr_ne {a : Byte} (ha : a = 0 ∨ 8 < a.toNat) : ∀ b ∈ rowBrackets s p, b.addr ≠ a := by
  intro b hb
  obtain ⟨y, hy, rfl⟩ := List.mem_map.1 hb
  exact digitAddr_ne (List.mem_range.1 hy) ha

/-- The first `q` rows of a `RENDER` write their digit registers and leave the others as they were. -/
theorem chipRegister_rows (hm : m < s.inst.modules) (hq : q ≤ 8) {y : Nat} (hy : y < 8) (t : List Event) :
    chipRegister s.inst.modules m (digitAddr y) (t ++ ((rowBrackets s p).take q).flatMap bracketTrace) =
      if y < q then some (rowByte s y m p) else chipRegister s.inst.modules m (digitAddr y) t := by
  induction q with
  | zero => simp
  | succ q ih =>
    have hlen : (rowBracket s p q).data.length = s.inst.modules := by simp [rowBracket, rowData]
    have hdata : (rowBracket s p q).data[m]? = some (rowByte s q m p) := by simp [rowBracket, rowData, hm]
    rw [rowBrackets_take_succ hq, List.flatMap_append, List.flatMap_singleton, ← List.append_assoc,
      chipRegister_bracket _ hlen hm, ih (by omega), hdata]
    simp only [rowBracket, digitAddr_inj hq hy]
    rcases Nat.lt_trichotomy y q with h | rfl | h
    · simp [h, h.ne', h.trans q.lt_succ_self]
    · simp
    · simp [h.ne, h.not_gt, h.not_ge]

/-- A `RENDER` cut in row `q = k / N`: the rows before it are new, its own is unknown, and the other registers are
as they were (R105, R150). -/
theorem chipRegister_cut_rows {k : Nat} (hm : m < s.inst.modules) (hk : k < 8 * s.inst.modules) (t : List Event) :
    (∀ y < 8, chipRegister s.inst.modules m (digitAddr y) (t ++ cutTrace s.inst.modules (rowBrackets s p) k) =
      if y < k / s.inst.modules then some (rowByte s y m p)
      else if y = k / s.inst.modules then none
      else chipRegister s.inst.modules m (digitAddr y) t) ∧
    ∀ a : Byte, a = 0 ∨ 8 < a.toNat →
      chipRegister s.inst.modules m a (t ++ cutTrace s.inst.modules (rowBrackets s p) k) =
        chipRegister s.inst.modules m a t := by
  have hq : k / s.inst.modules < 8 := Nat.div_lt_of_lt_mul (by rwa [Nat.mul_comm])
  have hcut (a : Byte) := chipRegister_cutTrace (m := m) a (rowBrackets_data s p) (Nat.zero_lt_of_lt hm)
    (rowBrackets_getElem? hq) t
  simp only [rowBracket, unknownAfterFailure_digitAddr hq, List.mem_singleton] at hcut
  refine ⟨fun y hy => ?_, fun a ha => ?_⟩
  · rw [hcut, chipRegister_rows hm hq.le hy]
    simp only [digitAddr_inj hy hq]
    rcases Nat.lt_trichotomy y (k / s.inst.modules) with h | h | h
    · simp [h, h.ne]
    · simp [h]
    · simp [h.not_gt, h.ne']
  · rw [hcut, if_neg (digitAddr_ne hq ha).symm, chipRegister_brackets_of_ne hm
      (fun b hb => rowBrackets_data s p b (List.mem_of_mem_take hb))
      fun b hb => rowBrackets_addr_ne ha b (List.mem_of_mem_take hb)]

end

/-! ## The statement -/

theorem WireOperation.trace_of_failure {i : Instr} {s t : State} {f : State → State} {bs : List Bracket} {k : Nat}
    (hw : WireOperation s i f bs) (hk : k < bs.length * s.inst.modules) (hf : FirstFailure s k)
    (h : exec i s = .next t) : t.trace = s.trace ++ cutTrace s.inst.modules bs k := by
  obtain ⟨t', ht', htrace, -⟩ := hw.fails hk hf
  cases h.symm.trans ht'
  exact htrace

/-- Settles O59: the failed operation leaves its brackets cut at draw `k`; those of `RENDER` each make their own
row unknown, those of `SETINT` and of `INIT` all make the same registers unknown. -/
theorem chipRegistersAfterFailure : Obligations.ChipRegistersAfterFailure := by
  unfold Obligations.ChipRegistersAfterFailure
  intro s t i k hf h
  refine ⟨?_, ?_, ?_⟩
  · rintro p rfl hr hk m hm
    rw [(WireOperation.render hr).trace_of_failure (by rwa [rowBrackets_length]) hf h]
    exact chipRegister_cut_rows hm hk s.trace
  · rintro level rfl h0 h15 hr hk m hm
    have hk' : k < [setintBracket s.inst.modules level].length * s.inst.modules := by simpa using hk
    have hcut (a : Byte) := chipRegister_cutTrace_of_unknown (a := a) (setintBracket_data s.inst.modules level)
      (setintBracket_unknown _ level) hk' hm s.trace
    rw [(WireOperation.setint h0 h15 hr).trace_of_failure hk' hf h]
    exact ⟨(hcut 0x0A).trans (if_pos (by simp)), fun a ha => (hcut a).trans (if_neg (by simpa using ha))⟩
  · rintro rfl hr hk m hm
    have hcut (a : Byte) := chipRegister_cutTrace_of_unknown (a := a) (initBrackets_data s.inst.modules)
      (initBrackets_unknown _) hk hm s.trace
    rw [(WireOperation.init hr).trace_of_failure hk hf h]
    exact ⟨fun a ha => (hcut a).trans (if_pos ha), fun a ha => (hcut a).trans (if_neg ha)⟩

end Sys2Proof.Machine
end

section
/-! PROOFS. The round trip of both instruction formats (R50 to R59): the fields of a command word built from its
four fields, and the frame of each row of the frame table. -/

namespace Sys2Proof

/-! ## The fields of a command word (R56) -/

section
variable (op : BitVec 4) (x : BitVec 12) (y v : BitVec 8)

theorem hcWord_code : (hcWord op x y v).toNat / 2 ^ 28 = op.toNat := by
  have := x.isLt; have := y.isLt; have := v.isLt
  rw [hcWord_toNat]; omega

theorem hcX_hcWord : hcX (hcWord op x y v) = x.toNat := by
  have := x.isLt; have := y.isLt; have := v.isLt
  rw [hcX_eq, hcWord_toNat]; omega

theorem hcY_hcWord : hcY (hcWord op x y v) = y.toNat := by
  have := y.isLt; have := v.isLt
  rw [hcY_eq, hcWord_toNat]; omega

theorem hcSigned_hcWord : hcSigned (hcWord op x y v) = v.toInt :=
  congrArg BitVec.toInt BitVec.extractLsb'_append_eq_right

theorem hcBit_hcWord : hcBit (hcWord op x y v) = v.getLsbD 0 := by
  rw [hcBit, hcWord, BitVec.getLsbD_append, if_pos (by decide)]

end

/-! ## The operands that fit their fields (R58) -/

theorem toInt_ofInt_of_fits {n : Int} (h : fitsSigned8 n = true) : (BitVec.ofInt 8 n).toInt = n := by
  have hn : -128 ≤ n ∧ n ≤ 127 := by simpa [fitsSigned8] using h
  exact BitVec.toInt_ofInt_eq_self (by decide) hn.1 (by omega)

theorem toNat_ofNat_of_fitsX {x : Nat} (h : fitsX x = true) : (BitVec.ofNat 12 x).toNat = x :=
  Nat.mod_eq_of_lt (of_decide_eq_true h)

theorem toNat_ofNat_of_fitsY {y : Nat} (h : fitsY y = true) : (BitVec.ofNat 8 y).toNat = y :=
  Nat.mod_eq_of_lt (of_decide_eq_true h)

theorem bitField_getLsbD (v : Bool) : (bitField v).getLsbD 0 = v := by cases v <;> rfl

/-! ## The two formats -/

/-- A host command is read back from its word: each code reads the fields it was given. -/
theorem decodeHost_encode {i : Instr} (hi : i.isHost = true) (hw : i.wf = true) :
    ∃ w, encode i = .hc w ∧ decodeHost w = i := by
  cases i
  case init => exact ⟨_, rfl, decodeHost_init (hcWord_code ..)⟩
  case setint level =>
    refine ⟨_, rfl, ?_⟩
    rw [decodeHost_setint (hcWord_code ..), hcSigned_hcWord, toInt_ofInt_of_fits hw]
  case setbrt x y level =>
    obtain ⟨⟨hx, hy⟩, hl⟩ : (fitsX x = true ∧ fitsY y = true) ∧ fitsSigned8 level = true := by
      simpa [Instr.wf] using hw
    refine ⟨_, rfl, ?_⟩
    rw [decodeHost_setbrt (hcWord_code ..), hcX_hcWord, hcY_hcWord, hcSigned_hcWord, toNat_ofNat_of_fitsX hx,
      toNat_ofNat_of_fitsY hy, toInt_ofInt_of_fits hl]
  case render p =>
    refine ⟨_, rfl, ?_⟩
    rw [decodeHost_render (hcWord_code ..), hcSigned_hcWord, toInt_ofInt_of_fits hw]
  case pixwr x y v =>
    obtain ⟨hx, hy⟩ : fitsX x = true ∧ fitsY y = true := by simpa [Instr.wf] using hw
    refine ⟨_, rfl, ?_⟩
    rw [decodeHost_pixwr (hcWord_code ..), hcX_hcWord, hcY_hcWord, hcBit_hcWord, toNat_ofNat_of_fitsX hx,
      toNat_ofNat_of_fitsY hy, bitField_getLsbD]
  case pixrd x y =>
    obtain ⟨hx, hy⟩ : fitsX x = true ∧ fitsY y = true := by simpa [Instr.wf] using hw
    refine ⟨_, rfl, ?_⟩
    rw [decodeHost_pixrd (hcWord_code ..), hcX_hcWord, hcY_hcWord, toNat_ofNat_of_fitsX hx, toNat_ofNat_of_fitsY hy]
  case fill v =>
    refine ⟨_, rfl, ?_⟩
    rw [decodeHost_fill (hcWord_code ..), hcBit_hcWord, bitField_getLsbD]
  case reserved0 | reserved8 | reserved9 | reservedA | reservedB | reservedC | reservedD | reservedE | reservedF =>
    exact ⟨_, rfl, by decide⟩
  all_goals cases hi

/-- The level of an Intensity frame fills the low half of its data byte (R53). -/
theorem intensity_data (level : Level) :
    (level.setWidth 8).toNat ≤ 15 ∧ (level.setWidth 8).extractLsb' 0 4 = level := by
  revert level
  decide

/-- A wire frame is read back from its bits, every operand at every value (R51 to R54). -/
theorem decodeFrame_encode {i : Instr} (hi : i.isHost = false) :
    ∃ w, encode i = .wf w ∧ decodeFrame w = .ok i := by
  cases i
  case wDigit0 d | wDigit1 d | wDigit2 d | wDigit3 d | wDigit4 d | wDigit5 d | wDigit6 d | wDigit7 d =>
    exact ⟨_, rfl, by simp [decodeFrame]⟩
  case wIntensity level =>
    obtain ⟨hle, hlow⟩ := intensity_data level
    refine ⟨_, rfl, ?_⟩
    simp only [decodeFrame, frameAddr_pairFrame, frameData_pairFrame, if_pos hle, hlow]
    rfl
  case wDecode | wScanlimit | wShutdown0 | wShutdown1 | wDisptest => exact ⟨_, rfl, by decide⟩
  all_goals cases hi

theorem decode_encode {i : Instr} (hw : i.wf = true) : decode (encode i) = .ok i := by
  cases hi : i.isHost with
  | true =>
    obtain ⟨w, he, hd⟩ := decodeHost_encode hi hw
    rw [he, decode, hd]
  | false =>
    obtain ⟨w, he, hd⟩ := decodeFrame_encode hi
    rw [he, decode, hd]

end Sys2Proof

namespace Sys2Proof.Machine

/-- Settles O1: the decoder evaluated on each word. -/
theorem opcodeWordsDecode : Obligations.OpcodeWordsDecode := by
  unfold Obligations.OpcodeWordsDecode
  decide

/-- Settles O2: every operand that fits its field comes back from it, in both formats. -/
theorem decodeEncodeRoundTrip : Obligations.DecodeEncodeRoundTrip := by
  unfold Obligations.DecodeEncodeRoundTrip
  exact fun i hw => decode_encode hw

/-! ## The frames that the engine may emit (R55) -/

/-- The word of a wire frame is the frame of its pair. -/
theorem encode_of_framePair {i : Instr} {a d : Byte} (h : framePair i = some (a, d)) :
    encode i = .wf (pairFrame a d) := by
  cases i <;> cases h
  case wIntensity level => rw [encode, BitVec.ofNat_toNat]
  all_goals rfl

theorem isHost_of_framePair {i : Instr} {a d : Byte} (h : framePair i = some (a, d)) : i.isHost = false := by
  cases i <;> cases h <;> rfl

/-- No row of the frame table writes a pair of R55. -/
theorem neverEmitted_of_framePair {i : Instr} {a d : Byte} (h : framePair i = some (a, d)) :
    neverEmitted a d = false := by
  cases i <;> cases h
  case wIntensity level => revert level; decide
  case wDecode | wScanlimit | wShutdown0 | wShutdown1 | wDisptest => decide
  all_goals simp [neverEmitted]

/-- Every pair outside R55 is the pair of a row of the frame table. -/
theorem exists_framePair {a d : Byte} (h : neverEmitted a d = false) : ∃ i, framePair i = some (a, d) := by
  simp only [neverEmitted, Bool.or_eq_false_iff, Bool.and_eq_false_iff, decide_eq_false_iff_not, not_not,
    not_le, not_lt] at h
  obtain ⟨⟨⟨⟨⟨⟨⟨⟨h0, hD⟩, hE⟩, h10⟩, h9⟩, hB⟩, hC⟩, hF⟩, hA⟩ := h
  obtain ⟨n, hn, rfl⟩ : ∃ n < 16, a = BitVec.ofNat 8 n := ⟨a.toNat, h10, (byte_eq_iff a (by omega)).1 rfl⟩
  interval_cases n
  · exact absurd rfl h0
  · exact ⟨.wDigit0 d, rfl⟩
  · exact ⟨.wDigit1 d, rfl⟩
  · exact ⟨.wDigit2 d, rfl⟩
  · exact ⟨.wDigit3 d, rfl⟩
  · exact ⟨.wDigit4 d, rfl⟩
  · exact ⟨.wDigit5 d, rfl⟩
  · exact ⟨.wDigit6 d, rfl⟩
  · exact ⟨.wDigit7 d, rfl⟩
  · obtain rfl := h9.resolve_left fun h => h rfl
    exact ⟨.wDecode, rfl⟩
  · have hd : d.toNat ≤ 15 := hA.resolve_left fun h => h rfl
    have hlow : BitVec.ofNat 8 (d.setWidth 4).toNat = d := by
      rw [BitVec.toNat_setWidth, Nat.mod_eq_of_lt (by omega), BitVec.ofNat_toNat, BitVec.setWidth_eq]
    exact ⟨.wIntensity (d.setWidth 4), congrArg (fun d => some (0x0A, d)) hlow⟩
  · obtain rfl := hB.resolve_left fun h => h rfl
    exact ⟨.wScanlimit, rfl⟩
  · rcases hC with (h | rfl) | rfl
    · exact absurd rfl h
    · exact ⟨.wShutdown0, rfl⟩
    · exact ⟨.wShutdown1, rfl⟩
  · exact absurd rfl hD
  · exact absurd rfl hE
  · obtain rfl := hF.resolve_left fun h => h rfl
    exact ⟨.wDisptest, rfl⟩

/-- Settles O3: the rows of the frame table write exactly the pairs outside R55, and each is read back from its
frame. -/
theorem frameDecodeExact : Obligations.FrameDecodeExact := by
  unfold Obligations.FrameDecodeExact
  refine fun w => ⟨fun i h => ?_, fun ⟨i, h⟩ => neverEmitted_of_framePair (framePair_of_decodeFrame h), fun h => ?_⟩
  · have hp := framePair_of_decodeFrame h
    exact ⟨by rw [encode_of_framePair hp, pairFrame_split], hp⟩
  · obtain ⟨i, hp⟩ := exists_framePair h
    obtain ⟨v, he, hd⟩ := decodeFrame_encode (isHost_of_framePair hp)
    rw [encode_of_framePair hp, pairFrame_split] at he
    cases he
    exact ⟨i, hd⟩

end Sys2Proof.Machine
end

section
/-! PROOFS. Cutting the bits of a bracket into frames (R33, R50). -/

namespace Sys2Proof.Machine

/-- Bits read most significant first: the low `n` bits of a frame come after what was read before them. -/
theorem foldl_lowBits (w : Frame) (n before : Nat) :
    (lowBits w n).foldl (fun v b => 2 * v + b.toNat) before = before * 2 ^ n + w.toNat % 2 ^ n := by
  induction n generalizing before with
  | zero => simp [lowBits, Nat.mod_one]
  | succ n ih =>
    have hbit : w.toNat % 2 ^ (n + 1) = w.toNat % 2 ^ n + 2 ^ n * (w.getLsbD n).toNat := by
      rw [Nat.mod_pow_succ, BitVec.getLsbD, Nat.toNat_testBit]
    rw [lowBits, List.foldl_cons, ih, hbit]
    ring

/-- The sixteen bits of a frame are its number. -/
theorem bitsToNat_frameBits (w : Frame) : bitsToNat (frameBits w) = w.toNat := by
  have h := foldl_lowBits w 16 0
  rwa [lowBits_sixteen, Nat.zero_mul, Nat.zero_add, Nat.mod_eq_of_lt w.isLt] at h

/-- The first sixteen bits are cut off as one frame. -/
theorem cutFrames_frameBits_append (fuel : Nat) (w : Frame) (bs : List Bool) :
    cutFrames (fuel + 1) (frameBits w ++ bs) = w :: cutFrames fuel bs := by
  have hlen : (frameBits w).length = 16 := by simp [frameBits]
  have hge : ¬(frameBits w ++ bs).length < 16 := by simp [hlen]
  rw [cutFrames, if_neg hge, List.take_left' hlen, List.drop_left' hlen, bitsToNat_frameBits, BitVec.ofNat_toNat,
    BitVec.setWidth_eq]

/-- Settles O8, by induction on the frames sent. -/
theorem cutFramesRecoversFrames : Obligations.CutFramesRecoversFrames := by
  unfold Obligations.CutFramesRecoversFrames
  intro ws
  induction ws with
  | nil => rfl
  | cons w ws ih => rw [List.flatMap_cons, List.length_cons, cutFrames_frameBits_append, ih]

end Sys2Proof.Machine
end

section
/-! PROOFS. What the next step runs, and that it always answers a next state (R2, R78, R115; log entry 2). -/

namespace Sys2Proof.Machine

/-- What a move of the engine answers. -/
def Move.perform : Move → Host.Outcome State Fault Refusal
  | .run i s => exec i s
  | .go s => .next s

theorem step_eq_perform (s : State) : step s = (fetch s).perform := rfl

/-! ## An idle engine -/

/-- Settles O9: an idle engine takes the command at the head of the queue. -/
theorem stepRunsHostCommand : Obligations.StepRunsHostCommand := by
  unfold Obligations.StepRunsHostCommand
  intro s w rest hb hi
  have hf : fetch s = .run (decodeHost w) { s with inputs := rest } := by simp [fetch, hb, fetchIdle, hi, popInput]
  rw [step_eq_perform, hf, Move.perform]

/-- Settles O11: with an empty queue an idle engine stays. -/
theorem idleEngineWaits : Obligations.IdleEngineWaits := by
  unfold Obligations.IdleEngineWaits
  intro s hb hi
  have hf : fetch s = .go s := by simp [fetch, hb, fetchIdle, hi]
  rw [step_eq_perform, hf, Move.perform]

/-! ## A busy engine -/

/-- An operation goes on, with no input consumed, unless the outside's next input acts on it. -/
theorem fetch_of_busy {s : State} (hb : s.busy = true) (hr : s.inputs.head? ≠ some .reset)
    (hp : s.inputs.head? ≠ some .pulse) (hw : s.inputs.head? ≠ some .wait) : fetch s = fetchOperation s := by
  rw [fetch, if_pos hb, fetchBusy]
  rcases hi : s.inputs with _ | ⟨_ | _ | _ | _ | _, rest⟩ <;> simp_all

theorem fetch_of_wait {s : State} (hb : s.busy = true) (hw : s.inputs.head? = some .wait) :
    fetch s = fetchOperation (popInput s) := by
  obtain ⟨rest, hi⟩ := List.head?_eq_some_iff.1 hw
  rw [fetch, if_pos hb, fetchBusy, hi]

/-- A pair not yet begun whose frame is a row of the table is that instruction. -/
theorem fetchOperation_of_decodeFrame {s : State} {w : Frame} {rest : List Frame} {i : Instr} {op : Op} {n : Fin 5}
    {y : Fin 8} {m : Nat} (hc : s.cs = .asserted) (hf : s.frames = w :: rest) (hp : s.pos = .active op n y m 15)
    (hd : decodeFrame w = .ok i) : fetchOperation s = .run i s := by
  simp [fetchOperation, fetchPair, hc, hf, hp, hd]

/-- Settles O10: the pair at `POS` is the decoded instruction, before or after a `wait` is consumed. -/
theorem stepRunsWireFrame : Obligations.StepRunsWireFrame := by
  unfold Obligations.StepRunsWireFrame
  intro s w rest i op n y m hb hc hf hp hr hpl hd
  refine ⟨fun hw => ?_, fun hw => ?_⟩
  · rw [step_eq_perform, fetch_of_busy hb hr hpl hw, fetchOperation_of_decodeFrame hc hf hp hd, Move.perform]
  · rw [step_eq_perform, fetch_of_wait hb hw,
      fetchOperation_of_decodeFrame (s := popInput s) (w := w) (rest := rest) hc hf hp hd, Move.perform, popInput]

/-! ## Every step answers a next state -/

theorem exec_host_next {i : Instr} (hi : i.isHost = true) (s : State) : ∃ t, exec i s = .next t := by
  cases i
  case wDigit0 | wDigit1 | wDigit2 | wDigit3 | wDigit4 | wDigit5 | wDigit6 | wDigit7 => cases hi
  case wDecode | wIntensity | wScanlimit | wShutdown0 | wShutdown1 | wDisptest => cases hi
  all_goals exact ⟨_, rfl⟩

/-- The one stop of the model, a frame outside a bracket, is never fetched. -/
theorem fetchOperation_next (s : State) : ∃ t, (fetchOperation s).perform = .next t := by
  unfold fetchOperation
  split
  · exact ⟨_, rfl⟩
  · exact ⟨_, rfl⟩
  · rename_i w rest hc hf
    unfold fetchPair
    split
    · exact ⟨_, rfl⟩
    · split
      · cases hd : decodeFrame w with
        | error e => exact ⟨_, rfl⟩
        | ok i =>
          refine ⟨sendPair (frameAddr w) (frameData w) s, ?_⟩
          simp only [Move.perform, exec_of_framePair (framePair_of_decodeFrame hd), execPair, hc]
      · exact ⟨_, rfl⟩

/-- A reset, a pulse and acceptance are moves of the engine; the rest is fetched as above. -/
theorem step_next (s : State) : ∃ t, step s = .next t := by
  rw [step_eq_perform, fetch]
  split
  · rw [fetchBusy]
    split
    · exact ⟨_, rfl⟩
    · exact ⟨_, rfl⟩
    · exact fetchOperation_next _
    · exact fetchOperation_next _
    · exact fetchOperation_next _
    · exact fetchOperation_next _
  · rw [fetchIdle]
    split
    · exact ⟨_, rfl⟩
    · exact exec_host_next (decodeHost_isHost _) _
    · exact ⟨_, rfl⟩
    · exact ⟨_, rfl⟩
    · exact ⟨_, rfl⟩
    · exact ⟨_, rfl⟩

/-- Settles O13: the moves are host commands, pairs of an open bracket, and moves of the engine itself. -/
theorem everyStepAnswersNext : Obligations.EveryStepAnswersNext := by
  unfold Obligations.EveryStepAnswersNext
  exact step_next

end Sys2Proof.Machine
end

section
/-! PROOFS. A clock pulse in the terms of the small steps (R33): it is the pair's failure, its end, or a bit in
between. -/

namespace Sys2Proof.Machine

/-- What a bit inside a pair leaves: all but `SR`, `SDO`, the bit-level trace, the bit index and the counters is as
before. -/
structure BitSpec (s t : State) : Prop where
  inst : t.inst = s.inst
  rdy : t.rdy = s.rdy
  pix : t.pix = s.pix
  brt : t.brt = s.brt
  cs : t.cs = s.cs
  sck : t.sck = false
  busy : t.busy = s.busy
  trace : t.trace = s.trace
  responses : t.responses = s.responses
  frames : t.frames = s.frames
  inputs : t.inputs = s.inputs

theorem bitSpec_first (w : Frame) (p : Pos) (s : State) :
    BitSpec s { shiftBit (w.getLsbD 15) (loadPair (frameAddr w) (frameData w) (draw s).1) with pos := p } := by
  constructor <;> simp

theorem bitSpec_next (b : Bool) (p : Pos) (s : State) : BitSpec s { shiftBit b s with pos := p } := by
  constructor <;> simp

/-- What one clock pulse does to the operation. -/
inductive PulseEffect (s t : State) : Prop where
  | none (h : t = s)
  | failed (w : Frame) (rest : List Frame) (hc : s.cs = .asserted) (hf : s.frames = w :: rest)
      (h : t = sendPair (frameAddr w) (frameData w) s)
  | bit (op : Op) (n : Fin 5) (y : Fin 8) (m : Nat) (k k' : Fin 16) (hp : s.pos = .active op n y m k)
      (hp' : t.pos = .active op n y m k') (h : BitSpec s t)
  | last (w : Frame) (rest : List Frame) (hc : s.cs = .asserted) (hf : s.frames = w :: rest)
      (h : t = finishPair w 0 s)

theorem pulse_effect (s : State) : PulseEffect s (pulse s) := by
  cases pulse_cases s with
  | none _ h => exact .none h
  | failed w rest _ _ _ _ hc hf _ ha h =>
    refine .failed w rest hc hf ?_
    rw [h, sendPair, pair_of_fail ha]
    rfl
  | first w _ op n y m _ _ hp _ h => exact .bit op n y m _ _ hp (by rw [h]) (h ▸ bitSpec_first w _ s)
  | next _ _ op n y m _ _ _ hp _ _ h => exact .bit op n y m _ _ hp (by rw [h]) (h ▸ bitSpec_next _ _ s)
  | last w rest _ _ _ _ hc hf _ h => exact .last w rest hc hf h

end Sys2Proof.Machine
end

section
/-! PROOFS. What a small step of an operation leaves as it was: the static parameters, both buffers and the queue of
inputs (R11, R38); and so the buffers' invariant over every step. -/

namespace Sys2Proof.Machine

/-- The static parameters, both buffers and the queue of inputs are as before. -/
structure SmallFrame (s t : State) : Prop where
  inst : t.inst = s.inst
  pix : t.pix = s.pix
  brt : t.brt = s.brt
  inputs : t.inputs = s.inputs

theorem SmallFrame.refl (s : State) : SmallFrame s s := ⟨rfl, rfl, rfl, rfl⟩

/-! ## Small steps -/

theorem openNext_smallFrame (s : State) : SmallFrame s (openNext s) := by
  rcases openNext_cases s with ⟨-, h⟩ | ⟨_, _, _, _, _, -, h⟩ <;> rw [h]
  · exact .refl s
  · exact ⟨rfl, rfl, rfl, rfl⟩

theorem closeNext_smallFrame (s : State) : SmallFrame s (closeNext s) := by
  rcases closeNext_cases s with ⟨-, h⟩ | ⟨_, _, _, _, _, p, -, -, h⟩ | ⟨op, _, _, _, _, -, -, h⟩ <;> rw [h]
  · exact .refl s
  · exact ⟨rfl, rfl, rfl, rfl⟩
  · rcases onSuccess_eq op (closeBracket s) with ⟨-, ho⟩ | ⟨-, ho⟩ <;> rw [ho] <;> exact ⟨rfl, rfl, rfl, rfl⟩

theorem sendPair_smallFrame (a d : Byte) (s : State) : SmallFrame s (sendPair a d s) := by
  have hu := (pair_spec a d s).untouched
  rcases sendPair_cases a d s with ⟨-, -, h⟩ | ⟨-, -, h⟩ <;> rw [h] <;> exact ⟨hu.inst, hu.pix, hu.brt, hu.inputs⟩

theorem finishPair_smallFrame (w : Frame) (k : Fin 16) (s : State) : SmallFrame s (finishPair w k s) :=
  have h := finishPair_spec w k s
  ⟨h.inst, h.pix, h.brt, h.inputs⟩

theorem pulse_smallFrame (s : State) : SmallFrame s (pulse s) := by
  cases pulse_effect s with
  | none h =>
    rw [h]
    exact .refl s
  | failed w _ _ _ h => exact h ▸ sendPair_smallFrame (frameAddr w) (frameData w) s
  | bit _ _ _ _ _ _ _ _ h => exact ⟨h.inst, h.pix, h.brt, h.inputs⟩
  | last w _ _ _ h => exact h ▸ finishPair_smallFrame w 0 s

theorem OperationCase.smallFrame {s t : State} (h : OperationCase s t) : SmallFrame s t := by
  rcases h with ⟨-, h⟩ | ⟨-, -, h⟩ | ⟨-, -, h⟩ | ⟨w, _, _, _, _, _, -, -, -, h⟩ | ⟨w, _, _, _, _, _, k, -, -, -, -, h⟩
  · exact h ▸ openNext_smallFrame s
  · exact h ▸ closeNext_smallFrame s
  · exact h ▸ .refl s
  · exact h ▸ sendPair_smallFrame (frameAddr w) (frameData w) s
  · exact h ▸ finishPair_smallFrame w k s

/-- Settles O12: the operation goes on by a small step, and that leaves the queue alone. -/
theorem busyAcceptsNoCommand : Obligations.BusyAcceptsNoCommand := by
  unfold Obligations.BusyAcceptsNoCommand
  intro s w rest hb hi
  have hhead : s.inputs.head? = some (.command w) ∨ s.inputs.head? = some (.start w) := by
    rcases hi with h | h <;> simp [h]
  have hfetch : fetch s = fetchOperation s := by
    apply fetch_of_busy hb <;> rcases hhead with h | h <;> simp [h]
  obtain ⟨t, ht⟩ := fetchOperation_next s
  exact ⟨t, by rw [step_eq_perform, hfetch, ht], (fetchOperation_cases ht).smallFrame.inputs⟩

/-! ## The static parameters -/

theorem accept_inst (w : HostWord) (s : State) : (accept (decodeHost w) s).inst = s.inst := by
  rcases accept_host_cases w s with ⟨h, -⟩ | ⟨op, h, -⟩
  · exact (exec_host_effect (decodeHost_isHost w) h).inst
  · rw [h, begin_inst]

theorem step_inst {s t : State} (h : step s = .next t) : t.inst = s.inst := by
  cases step_cases h with
  | idle _ _ h => rw [h]
  | command w _ _ _ h => exact (exec_host_effect (decodeHost_isHost w) h).inst
  | start w _ _ _ h => exact h ▸ accept_inst w (popInput s)
  | idleInput _ _ _ h => rw [h, popInput_inst]
  | reset _ _ h => rw [h, resetEngine_inst, popInput_inst]
  | busyPulse _ _ _ h => exact h ▸ (pulse_smallFrame (popInput s)).inst
  | operation _ _ _ h => exact h.smallFrame.inst

/-- Settles O49: host commands, small steps and resets each leave the static parameters alone. -/
theorem staticParametersNeverChange : Obligations.StaticParametersNeverChange := by
  unfold Obligations.StaticParametersNeverChange
  exact fun _ _ => step_inst

/-! ## The buffers -/

/-- The buffers' invariant is about the two buffers and `N` only. -/
theorem BuffersOk.congr {s t : State} (hs : BuffersOk s) (hi : t.inst = s.inst) (hp : t.pix = s.pix)
    (hb : t.brt = s.brt) : BuffersOk t := by
  rwa [BuffersOk, cellCount, hi, hp, hb]

theorem SmallFrame.buffersOk {s t : State} (h : SmallFrame s t) (hs : BuffersOk s) : BuffersOk t :=
  hs.congr h.inst h.pix h.brt

/-- The end of a wire operation changes `RDY` and the response only. -/
theorem finish_smallFrame {f : State → State} (hf : f = setReady ∨ f = id) (bs : List Bracket) (s : State) :
    SmallFrame s (finish f (sendBrackets bs s)) := by
  obtain ⟨hu, -, -⟩ := sendBrackets_untouched bs s
  rcases finish_cases f (sendBrackets bs s) with ⟨-, h⟩ | ⟨-, h⟩ <;> rw [h]
  · rcases hf with rfl | rfl <;> exact ⟨hu.inst, hu.pix, hu.brt, hu.inputs⟩
  · exact ⟨hu.inst, hu.pix, hu.brt, hu.inputs⟩

/-- A host command writes its buffer in range only, and in canonical form. -/
theorem exec_host_buffersOk {i : Instr} {s t : State} (hi : i.isHost = true) (h : exec i s = .next t)
    (hs : BuffersOk s) : BuffersOk t := by
  have ⟨hp, hb, hpn, hbn⟩ := hs
  rcases exec_host_cases hi h with ⟨e, r, rfl⟩ | ⟨x, y, v, -, hxy, -, rfl⟩ | ⟨x, y, level, -, hxy, -, rfl⟩ |
    ⟨v, -, -, rfl⟩ | ⟨-, -, rfl⟩ | ⟨level, -, -, -, rfl⟩ | ⟨p, -, -, rfl⟩
  · exact hs.congr rfl rfl rfl
  · exact ⟨Memory.wf_write hp, hb, Memory.below_write (cellKey_lt hxy) hpn, hbn⟩
  · exact ⟨hp, Memory.wf_write hb, hpn, Memory.below_write (cellKey_lt hxy) hbn⟩
  · exact ⟨Memory.wf_fill, hb, Memory.below_fill, hbn⟩
  · exact (finish_smallFrame (.inl rfl) _ s).buffersOk hs
  · exact (finish_smallFrame (.inr rfl) _ s).buffersOk hs
  · exact (finish_smallFrame (.inr rfl) _ s).buffersOk hs

theorem accept_buffersOk (w : HostWord) {s : State} (hs : BuffersOk s) : BuffersOk (accept (decodeHost w) s) := by
  rcases accept_host_cases w s with ⟨h, -⟩ | ⟨op, h, -⟩
  · exact exec_host_buffersOk (decodeHost_isHost w) h hs
  · exact hs.congr (by rw [h, begin_inst]) (by rw [h, begin_pix]) (by rw [h, begin_brt])

/-- Empty lists of cells are in canonical form and in range. -/
theorem resetEngine_buffersOk (s : State) : BuffersOk (resetEngine s) := ⟨rfl, rfl, rfl, rfl⟩

/-- Settles O51: only host commands and resets write the buffers, and both keep their form. -/
theorem stepKeepsBuffersOk : Obligations.StepKeepsBuffersOk := by
  unfold Obligations.StepKeepsBuffersOk
  intro s t hs h
  cases step_cases h with
  | idle _ _ h => exact h ▸ hs
  | command w _ _ _ h => exact exec_host_buffersOk (decodeHost_isHost w) h hs
  | start w _ _ _ h => exact h ▸ accept_buffersOk w hs
  | idleInput _ _ _ h => exact h ▸ hs
  | reset _ _ h => exact h ▸ resetEngine_buffersOk _
  | busyPulse _ _ _ h => exact h ▸ (pulse_smallFrame (popInput s)).buffersOk hs
  | operation _ _ _ h => exact h.smallFrame.buffersOk hs

end Sys2Proof.Machine
end

section
/-! PROOFS. The idle invariant over one step (R22): what ends an operation releases the wire, and what goes on with
one keeps `BUSY`. -/

namespace Sys2Proof.Machine

/-! ## States that meet the invariant -/

/-- While an operation is in progress the invariant asks for a low `SCK` only. -/
theorem IdleInvariant.of_busy {t : State} (hk : t.sck = false) (hb : t.busy = true) : IdleInvariant t :=
  ⟨hk, fun h => absurd (hb.symm.trans h) (by decide)⟩

/-- An operation that has ended with chip-select released. -/
theorem IdleInvariant.respond {s : State} {e : Status} {r : Bool} (hc : s.cs = .deasserted) (hk : s.sck = false) :
    IdleInvariant (respond e r s) :=
  ⟨hk, fun _ => ⟨hc, hk, rfl, rfl⟩⟩

/-- A whole host operation from a quiet engine leaves it quiet. -/
theorem HostEffect.idleInvariant {s t : State} (h : HostEffect s t) (hs : Quiet s) : IdleInvariant t := by
  obtain ⟨hc, hk, -, -⟩ := hs
  exact ⟨h.sck hk, fun _ => ⟨h.cs hc, h.sck hk, h.pos, h.frames⟩⟩

/-! ## Small steps -/

theorem accept_idleInvariant (w : HostWord) {s : State} (hs : Quiet s) : IdleInvariant (accept (decodeHost w) s) := by
  rcases accept_host_cases w s with ⟨h, -⟩ | ⟨op, h, -⟩
  · exact (exec_host_effect (decodeHost_isHost w) h).idleInvariant hs
  · obtain ⟨-, hk, -, -⟩ := hs
    rw [h]
    exact .of_busy hk rfl

section
variable {s : State} (hk : s.sck = false) (hb : s.busy = true)
include hk hb

theorem openNext_idleInvariant : IdleInvariant (openNext s) := by
  rcases openNext_cases s with ⟨-, h⟩ | ⟨_, _, _, _, _, -, h⟩ <;> rw [h]
  · exact .of_busy hk hb
  · exact .of_busy hk hb

theorem closeNext_idleInvariant : IdleInvariant (closeNext s) := by
  rcases closeNext_cases s with ⟨-, h⟩ | ⟨_, _, _, _, _, _, -, -, h⟩ | ⟨op, _, _, _, _, -, -, h⟩ <;> rw [h]
  · exact .of_busy hk hb
  · exact .of_busy hk hb
  · rcases onSuccess_eq op (closeBracket s) with ⟨-, ho⟩ | ⟨-, ho⟩ <;> rw [ho] <;> exact .respond rfl hk

omit hk in
theorem sendPair_idleInvariant (a d : Byte) : IdleInvariant (sendPair a d s) := by
  have hp := pair_spec a d s
  rcases sendPair_cases a d s with ⟨-, -, h⟩ | ⟨-, -, h⟩ <;> rw [h]
  · exact .of_busy hp.sck (hp.untouched.busy.trans hb)
  · exact .respond rfl hp.sck

omit hk in
theorem finishPair_idleInvariant (w : Frame) (k : Fin 16) : IdleInvariant (finishPair w k s) :=
  have h := finishPair_spec w k s
  .of_busy h.sck (h.busy.trans hb)

theorem pulse_idleInvariant : IdleInvariant (pulse s) := by
  cases pulse_effect s with
  | none h =>
    rw [h]
    exact .of_busy hk hb
  | failed w _ _ _ h => exact h ▸ sendPair_idleInvariant hb (frameAddr w) (frameData w)
  | bit _ _ _ _ _ _ _ _ h => exact .of_busy h.sck (h.busy.trans hb)
  | last w _ _ _ h => exact h ▸ finishPair_idleInvariant hb w 0

theorem OperationCase.idleInvariant {t : State} (h : OperationCase s t) : IdleInvariant t := by
  rcases h with ⟨-, h⟩ | ⟨-, -, h⟩ | ⟨-, -, h⟩ | ⟨w, _, _, _, _, _, -, -, -, h⟩ | ⟨w, _, _, _, _, _, k, -, -, -, -, h⟩
  · exact h ▸ openNext_idleInvariant hk hb
  · exact h ▸ closeNext_idleInvariant hk hb
  · exact h ▸ .of_busy hk hb
  · exact h ▸ sendPair_idleInvariant hb (frameAddr w) (frameData w)
  · exact h ▸ finishPair_idleInvariant hb w k

end

/-! ## The step -/

/-- Settles O52: an idle engine is quiet, so a command leaves it quiet or begins an operation; a busy one keeps
`BUSY` until the `D` of its last bracket. -/
theorem stepKeepsIdleInvariant : Obligations.StepKeepsIdleInvariant := by
  unfold Obligations.StepKeepsIdleInvariant
  intro s t hs h
  have ⟨hk, hq⟩ := hs
  cases step_cases h with
  | idle _ _ h => exact h ▸ hs
  | command w _ hb _ h => exact (exec_host_effect (decodeHost_isHost w) h).idleInvariant (hq hb)
  | start w _ hb _ h => exact h ▸ accept_idleInvariant w (hq hb)
  | idleInput _ _ _ h => exact h ▸ hs
  | reset _ _ h => exact h ▸ ⟨rfl, fun _ => ⟨resetEngine_cs _, rfl, rfl, rfl⟩⟩
  | busyPulse _ hb _ h => exact h ▸ pulse_idleInvariant hk hb
  | operation i hb _ h => exact OperationCase.idleInvariant (s := { s with inputs := i }) hk hb h

end Sys2Proof.Machine
end

section
/-! PROOFS. What changes `RDY` (R12, R85, R128). -/

namespace Sys2Proof.Machine

/-! ## Host commands -/

/-- `SETINT` and `RENDER` leave `RDY` alone, however they end. -/
theorem finish_id_rdy (bs : List Bracket) (s : State) : (finish id (sendBrackets bs s)).rdy = s.rdy := by
  obtain ⟨hu, -, -⟩ := sendBrackets_untouched bs s
  rcases finish_cases id (sendBrackets bs s) with ⟨-, h⟩ | ⟨-, h⟩ <;> rw [h] <;> exact hu.rdy

/-- A host command changes `RDY` only as an `INIT` whose brackets all went out, and then it answers `OK`. -/
theorem exec_host_rdy {i : Instr} {s t : State} (hi : i.isHost = true) (h : exec i s = .next t) :
    t.rdy = s.rdy ∨ (i = .init ∧ t.rdy = true ∧ t.responses = s.responses ++ [⟨.ok, false⟩]) := by
  rcases exec_host_cases hi h with ⟨e, r, rfl⟩ | ⟨x, y, v, -, -, -, rfl⟩ | ⟨x, y, level, -, -, -, rfl⟩ |
    ⟨v, -, -, rfl⟩ | ⟨hinit, -, rfl⟩ | ⟨level, -, -, -, rfl⟩ | ⟨p, -, -, rfl⟩
  · exact .inl rfl
  · exact .inl rfl
  · exact .inl rfl
  · exact .inl rfl
  · obtain ⟨hu, -, -⟩ := sendBrackets_untouched (initBrackets s.inst.modules) s
    rcases finish_cases setReady (sendBrackets (initBrackets s.inst.modules) s) with ⟨-, hf⟩ | ⟨-, hf⟩ <;> rw [hf]
    · exact .inr ⟨hinit, rfl, congrArg (· ++ _) hu.responses⟩
    · exact .inl hu.rdy
  · exact .inl (finish_id_rdy _ s)
  · exact .inl (finish_id_rdy _ s)

/-! ## Small steps -/

theorem openNext_rdy (s : State) : (openNext s).rdy = s.rdy := by
  rcases openNext_cases s with ⟨-, h⟩ | ⟨_, _, _, _, _, -, h⟩ <;> rw [h]
  rfl

theorem sendPair_rdy (a d : Byte) (s : State) : (sendPair a d s).rdy = s.rdy := by
  have hr := (pair_spec a d s).untouched.rdy
  rcases sendPair_cases a d s with ⟨-, -, h⟩ | ⟨-, -, h⟩ <;> rw [h] <;> exact hr

theorem pulse_rdy (s : State) : (pulse s).rdy = s.rdy := by
  cases pulse_effect s with
  | none h => rw [h]
  | failed w _ _ _ h => rw [h, sendPair_rdy]
  | bit _ _ _ _ _ _ _ _ h => exact h.rdy
  | last w _ _ _ h => rw [h, (finishPair_spec w 0 s).rdy]

/-- The fifth bracket of `INIT` is its last (R85). -/
theorem init_last {n : Fin 5} {y : Fin 8} (h : nextBracket .init n y = none) : n = 4 := by
  simp only [nextBracket, ite_eq_right_iff, reduceCtorEq, imp_false] at h
  omega

/-- Closing a bracket changes `RDY` only after the fifth one of `INIT`, and then the operation answers `OK`. -/
theorem closeNext_rdy (s : State) : (closeNext s).rdy = s.rdy ∨
    ((closeNext s).rdy = true ∧ (closeNext s).responses = s.responses ++ [⟨.ok, false⟩] ∧
      (closeNext s).trace = s.trace ++ [.d] ∧ ∃ y m k, s.pos = .active .init 4 y m k) := by
  rcases closeNext_cases s with ⟨-, h⟩ | ⟨_, _, _, _, _, _, -, -, h⟩ | ⟨op, n, y, m, k, hp, hn, h⟩ <;> rw [h]
  · exact .inl rfl
  · exact .inl rfl
  · rcases onSuccess_eq op (closeBracket s) with ⟨rfl, ho⟩ | ⟨-, ho⟩ <;> rw [ho]
    · obtain rfl := init_last hn
      exact .inr ⟨rfl, rfl, rfl, y, m, k, hp⟩
    · exact .inl rfl

/-! ## The step -/

/-- Settles O30: of the host commands only a whole `INIT` changes `RDY`, of the small steps only the `D` of its
fifth bracket, and a reset clears it. -/
theorem readyChangesOnlyByInitOrReset : Obligations.ReadyChangesOnlyByInitOrReset := by
  unfold Obligations.ReadyChangesOnlyByInitOrReset
  intro s t h hne
  cases step_cases h with
  | idle _ _ h => exact absurd (h ▸ rfl) hne
  | command w rest hb hi h =>
    rcases exec_host_rdy (decodeHost_isHost w) h with hr | ⟨hinit, hr, hresp⟩
    · exact absurd hr hne
    · exact .inl ⟨hr, hresp, .inl ⟨hb, w, rest, hi, hinit⟩⟩
  | start w _ _ _ h => exact absurd (h ▸ accept_rdy (decodeHost w) (popInput s)) hne
  | idleInput _ _ _ h => exact absurd (h ▸ rfl) hne
  | reset rest hi h => exact .inr ⟨h ▸ rfl, rest, hi⟩
  | busyPulse _ _ _ h => exact absurd (h ▸ pulse_rdy (popInput s)) hne
  | operation i hb _ h =>
    rcases h with ⟨-, h⟩ | ⟨hc, hf, h⟩ | ⟨-, -, h⟩ | ⟨w, _, _, _, _, _, -, -, -, h⟩ |
      ⟨w, _, _, _, _, _, k, -, -, -, -, h⟩
    · exact absurd (h ▸ openNext_rdy _) hne
    · subst h
      rcases closeNext_rdy { s with inputs := i } with hr | ⟨hr, hresp, htrace, hpos⟩
      · exact absurd hr hne
      · exact .inl ⟨hr, hresp, .inr ⟨hb, hc, hf, htrace, hpos⟩⟩
    · exact absurd (h ▸ rfl) hne
    · exact absurd (h ▸ sendPair_rdy _ _ _) hne
    · exact absurd (h ▸ (finishPair_spec w k _).rdy) hne

end Sys2Proof.Machine
end

section
/-! PROOFS. The set of emitted frames is closed (R55): every bracket of an operation holds allowed pairs, and a step
emits or keeps pending no others. -/

namespace Sys2Proof.Machine

/-! ## The brackets of the operations -/

/-- No pair of the bracket is one of R55. -/
def BracketAllowed (b : Bracket) : Prop := ∀ d ∈ b.data, neverEmitted b.addr d = false

theorem broadcast_allowed {a d : Byte} (h : neverEmitted a d = false) (n : Nat) : BracketAllowed (broadcast n a d) :=
  fun _ hd => List.eq_of_mem_replicate hd ▸ h

theorem initBrackets_allowed (n : Nat) : ∀ b ∈ initBrackets n, BracketAllowed b := by
  have hw : ∀ w ∈ initSequence, neverEmitted w.1 w.2 = false := by simp [initSequence, neverEmitted]
  intro b hb
  obtain ⟨w, hmem, rfl⟩ := List.mem_map.1 hb
  exact broadcast_allowed (hw w hmem) n

/-- A level in range stays below 0x10 in the data byte (R53). -/
theorem setintBracket_allowed {level : Int} (h : levelInRange level = true) (n : Nat) :
    BracketAllowed (setintBracket n level) := by
  obtain ⟨h0, h15⟩ := (levelInRange_iff level).1 h
  have hd := intensityByte_toNat h0 h15
  have hle : (intensityByte level).toNat ≤ 15 := by omega
  exact broadcast_allowed (by simp [neverEmitted, hle]) n

/-- A digit register takes every byte (R54). -/
theorem rowBracket_allowed (s : State) (p : Int) {y : Nat} (hy : y < 8) : BracketAllowed (rowBracket s p y) := by
  intro d _
  unfold rowBracket
  interval_cases y <;> simp [neverEmitted, digitAddr]

theorem rowBrackets_allowed (s : State) (p : Int) : ∀ b ∈ rowBrackets s p, BracketAllowed b := by
  intro b hb
  obtain ⟨y, hy, rfl⟩ := List.mem_map.1 hb
  exact rowBracket_allowed s p (List.mem_range.1 hy)

theorem bracketAt_allowed (s : State) {op : Op} (hop : ∀ level, op = .setint level → levelInRange level = true)
    (n : Fin 5) (y : Fin 8) : BracketAllowed (bracketAt s op n y) := by
  cases op with
  | init => exact initBrackets_allowed _ _ (List.mem_map_of_mem (List.get_mem _ _))
  | setint level => exact setintBracket_allowed (hop level rfl) _
  | render p => exact rowBracket_allowed s p y.isLt

/-! ## Traces -/

/-- Every event of the trace is allowed. -/
def TraceAllowed (s : State) : Prop := ∀ e ∈ s.trace, eventAllowed e = true

theorem TraceAllowed.append {s t : State} {new : List Event} (hs : TraceAllowed s) (ht : t.trace = s.trace ++ new)
    (hn : ∀ e ∈ new, eventAllowed e = true) : TraceAllowed t := by
  rw [TraceAllowed, ht]
  exact List.forall_mem_append.2 ⟨hs, hn⟩

theorem IsPairOf.allowed {a d : Byte} {e : Event} (h : IsPairOf a d e) (hn : neverEmitted a d = false) :
    eventAllowed e = true := by
  rcases h with rfl | rfl <;> simp [eventAllowed, hn]

theorem closeBracket_allowed {s : State} (hs : TraceAllowed s) : TraceAllowed (closeBracket s) :=
  hs.append rfl (List.forall_mem_singleton.2 rfl)

theorem openBracket_allowed {s : State} (hs : TraceAllowed s) : TraceAllowed (openBracket s) :=
  hs.append rfl (List.forall_mem_singleton.2 rfl)

theorem pair_allowed {a d : Byte} (hn : neverEmitted a d = false) {s : State} (hs : TraceAllowed s) :
    TraceAllowed (pair a d s).1 := by
  obtain ⟨e, he, ht⟩ := pair_trace a d s
  exact hs.append ht (List.forall_mem_singleton.2 (he.allowed hn))

theorem bracket_allowed {b : Bracket} (hb : BracketAllowed b) {s : State} (hs : TraceAllowed s) :
    TraceAllowed (bracket b s).1 := by
  obtain ⟨es, hes, -, ht⟩ := sendPairs_trace b.addr b.data (openBracket s)
  refine closeBracket_allowed ((openBracket_allowed hs).append ht fun e he => ?_)
  obtain ⟨d, hd, h⟩ := hes e he
  exact h.allowed (hb d hd)

theorem sendBrackets_allowed {bs : List Bracket} (hb : ∀ b ∈ bs, BracketAllowed b) {s : State}
    (hs : TraceAllowed s) : TraceAllowed (sendBrackets bs s).1 := by
  induction bs generalizing s with
  | nil => exact hs
  | cons b bs ih =>
    obtain ⟨hfirst, hrest⟩ := List.forall_mem_cons.1 hb
    rw [sendBrackets_cons]
    split
    · exact ih hrest (bracket_allowed hfirst hs)
    · exact bracket_allowed hfirst hs

theorem finish_allowed {f : State → State} (hf : f = setReady ∨ f = id) {bs : List Bracket}
    (hb : ∀ b ∈ bs, BracketAllowed b) {s : State} (hs : TraceAllowed s) :
    TraceAllowed (finish f (sendBrackets bs s)) := by
  have h := sendBrackets_allowed hb hs
  rcases finish_cases f (sendBrackets bs s) with ⟨-, he⟩ | ⟨-, he⟩ <;> rw [he]
  · rcases hf with rfl | rfl <;> exact h
  · exact h

theorem exec_host_allowed {i : Instr} {s t : State} (hi : i.isHost = true) (h : exec i s = .next t)
    (hs : TraceAllowed s) : TraceAllowed t := by
  rcases exec_host_cases hi h with ⟨e, r, rfl⟩ | ⟨x, y, v, -, -, -, rfl⟩ | ⟨x, y, level, -, -, -, rfl⟩ |
    ⟨v, -, -, rfl⟩ | ⟨-, -, rfl⟩ | ⟨level, -, hl, -, rfl⟩ | ⟨p, -, -, rfl⟩
  · exact hs
  · exact hs
  · exact hs
  · exact hs
  · exact finish_allowed (.inl rfl) (initBrackets_allowed _) hs
  · exact finish_allowed (.inr rfl) (List.forall_mem_singleton.2 (setintBracket_allowed hl _)) hs
  · exact finish_allowed (.inr rfl) (rowBrackets_allowed s p) hs

/-! ## The invariant of ended operations and of operations in progress -/

/-- An operation that has ended leaves no pair pending. -/
theorem FramesAllowed.of_ended {t : State} (ht : TraceAllowed t) (hf : t.frames = []) (hp : t.pos = .idle) :
    FramesAllowed t :=
  ⟨ht, by simp [hf], by simp [hp]⟩

/-- A `SETINT` stays with its level as `POS` advances within its operation. -/
theorem FramesAllowed.of_active {t : State} {op : Op} {n : Fin 5} {y : Fin 8} {m : Nat} {k : Fin 16}
    (ht : TraceAllowed t) (hf : ∀ w ∈ t.frames, neverEmitted (frameAddr w) (frameData w) = false)
    (hp : t.pos = .active op n y m k) (hop : ∀ level, op = .setint level → levelInRange level = true) :
    FramesAllowed t := by
  refine ⟨ht, hf, fun level n' y' m' k' h => ?_⟩
  rw [hp] at h
  cases h
  exact hop level rfl

/-- The next bracket belongs to the same operation, from its first pair on. -/
theorem nextBracket_active {op : Op} {n : Fin 5} {y : Fin 8} {p : Pos} (h : nextBracket op n y = some p) :
    ∃ n' y', p = .active op n' y' 0 15 := by
  cases op with
  | init => exact ⟨_, _, (Option.some.inj (Option.ite_none_right_eq_some.1 h).2).symm⟩
  | setint level => cases h
  | render phase => exact ⟨_, _, (Option.some.inj (Option.ite_none_right_eq_some.1 h).2).symm⟩

section
variable {s : State} (hs : FramesAllowed s)
include hs

/-- The level of a `SETINT` in progress. -/
theorem FramesAllowed.level {op : Op} {n : Fin 5} {y : Fin 8} {m : Nat} {k : Fin 16}
    (hp : s.pos = .active op n y m k) : ∀ level, op = .setint level → levelInRange level = true := by
  rintro level rfl
  obtain ⟨-, -, hl⟩ := hs
  exact hl level n y m k hp

/-! ## Small steps -/

theorem accept_framesAllowed (w : HostWord) : FramesAllowed (accept (decodeHost w) s) := by
  obtain ⟨ht, hf, -⟩ := hs
  rcases accept_host_cases w s with ⟨h, -⟩ | ⟨op, h, hop⟩
  · have he := exec_host_effect (decodeHost_isHost w) h
    exact .of_ended (exec_host_allowed (decodeHost_isHost w) h ht) he.frames he.pos
  · rw [h]
    exact .of_active ht hf rfl hop

theorem openNext_framesAllowed : FramesAllowed (openNext s) := by
  rcases openNext_cases s with ⟨-, h⟩ | ⟨op, n, y, m, k, hp, h⟩ <;> rw [h]
  · exact hs
  · have hop := hs.level hp
    obtain ⟨ht, -, -⟩ := hs
    refine .of_active (openBracket_allowed ht) (fun w hw => ?_) rfl hop
    obtain ⟨d, hd, rfl⟩ := List.mem_map.1 hw
    rw [frameAddr_pairFrame, frameData_pairFrame]
    exact bracketAt_allowed s hop n y d hd

theorem closeNext_framesAllowed : FramesAllowed (closeNext s) := by
  rcases closeNext_cases s with ⟨-, h⟩ | ⟨op, n, y, m, k, p, hp, hn, h⟩ | ⟨op, _, _, _, _, -, -, h⟩ <;> rw [h]
  · exact hs
  · have hop := hs.level hp
    obtain ⟨n', y', rfl⟩ := nextBracket_active hn
    obtain ⟨ht, hf, -⟩ := hs
    exact .of_active (closeBracket_allowed ht) hf rfl hop
  · obtain ⟨ht, -, -⟩ := hs
    have hd := closeBracket_allowed ht
    rcases onSuccess_eq op (closeBracket s) with ⟨-, ho⟩ | ⟨-, ho⟩ <;> rw [ho] <;> exact .of_ended hd rfl rfl

/-- A pair that is over: those after it are still allowed. -/
theorem FramesAllowed.of_nextPair {t : State} (ht : TraceAllowed t) (hf : t.frames = s.frames.tail)
    (hp : t.pos = nextPair s.frames.tail s.pos) : FramesAllowed t := by
  have ⟨_, hall, _⟩ := hs
  have hpend : ∀ w ∈ t.frames, neverEmitted (frameAddr w) (frameData w) = false := fun w hw =>
    hall w (List.mem_of_mem_tail (hf ▸ hw))
  rcases hpos : s.pos with _ | ⟨op, n, y, m, k⟩
  · exact ⟨ht, hpend, by simp [hp, hpos]⟩
  · have hop := hs.level hpos
    rcases hr : s.frames.tail with _ | ⟨w, rest⟩ <;> rw [hpos, hr] at hp
    · exact .of_active ht hpend hp hop
    · exact .of_active ht hpend hp hop

theorem finishPair_framesAllowed {w : Frame} (hw : neverEmitted (frameAddr w) (frameData w) = false) (k : Fin 16) :
    FramesAllowed (finishPair w k s) := by
  have h := finishPair_spec w k s
  have ht : TraceAllowed (finishPair w k s) :=
    TraceAllowed.append hs.1 h.trace (List.forall_mem_singleton.2 (IsPairOf.allowed (.inl rfl) hw))
  exact hs.of_nextPair ht h.frames h.pos

theorem sendPair_framesAllowed {a d : Byte} (hn : neverEmitted a d = false) : FramesAllowed (sendPair a d s) := by
  have hu := (pair_spec a d s).untouched
  have ht := pair_allowed hn hs.1
  rcases sendPair_cases a d s with ⟨-, -, h⟩ | ⟨-, -, h⟩ <;> rw [h]
  · refine hs.of_nextPair ht ?_ ?_
    · rw [advancePair_frames, hu.frames]
    · rw [advancePair_pos, hu.frames, hu.pos]
  · exact .of_ended (closeBracket_allowed ht) rfl rfl

/-- The first pending pair. -/
theorem FramesAllowed.head {w : Frame} {rest : List Frame} (hf : s.frames = w :: rest) :
    neverEmitted (frameAddr w) (frameData w) = false := by
  obtain ⟨-, hpend, -⟩ := hs
  exact hpend w (hf ▸ List.mem_cons_self)

theorem pulse_framesAllowed : FramesAllowed (pulse s) := by
  cases pulse_effect s with
  | none h =>
    rw [h]
    exact hs
  | failed w _ _ hf h => exact h ▸ sendPair_framesAllowed hs (hs.head hf)
  | bit _ _ _ _ _ _ hp hp' h =>
    have hop := hs.level hp
    obtain ⟨ht, hpend, -⟩ := hs
    exact .of_active (by rwa [TraceAllowed, h.trace]) (by rwa [h.frames]) hp' hop
  | last w _ _ hf h => exact h ▸ finishPair_framesAllowed hs (hs.head hf) 0

theorem OperationCase.framesAllowed {t : State} (h : OperationCase s t) : FramesAllowed t := by
  rcases h with ⟨-, h⟩ | ⟨-, -, h⟩ | ⟨-, -, h⟩ | ⟨w, _, _, _, _, _, -, hf, -, h⟩ |
    ⟨w, _, _, _, _, _, k, -, hf, -, -, h⟩
  · exact h ▸ openNext_framesAllowed hs
  · exact h ▸ closeNext_framesAllowed hs
  · exact h ▸ hs
  · exact h ▸ sendPair_framesAllowed hs (hs.head hf)
  · exact h ▸ finishPair_framesAllowed hs (hs.head hf) k

end

/-! ## The step -/

theorem resetEngine_framesAllowed {s : State} (hs : FramesAllowed s) : FramesAllowed (resetEngine s) := by
  have htrace : (resetEngine s).trace = _ := (resetEngine_trace s).trans (releaseBracket_trace s)
  refine .of_ended (TraceAllowed.append hs.1 htrace ?_) rfl rfl
  split <;> simp [eventAllowed]

/-- Settles O54: brackets are built of allowed pairs, and a step appends only pending ones. -/
theorem stepKeepsFramesAllowed : Obligations.StepKeepsFramesAllowed := by
  unfold Obligations.StepKeepsFramesAllowed
  intro s t hs h
  cases step_cases h with
  | idle _ _ h => exact h ▸ hs
  | command w _ _ _ h =>
    have he := exec_host_effect (decodeHost_isHost w) h
    exact .of_ended (exec_host_allowed (decodeHost_isHost w) h hs.1) he.frames he.pos
  | start w _ _ _ h => exact h ▸ accept_framesAllowed (s := popInput s) hs w
  | idleInput _ _ _ h => exact h ▸ hs
  | reset _ _ h => exact h ▸ resetEngine_framesAllowed (s := popInput s) hs
  | busyPulse _ _ _ h => exact h ▸ pulse_framesAllowed (s := popInput s) hs
  | operation i _ _ h => exact OperationCase.framesAllowed (s := { s with inputs := i }) hs h

end Sys2Proof.Machine
end

section
/-! PROOFS. Host operations send whole brackets (R72, R74), and when none fails their bits are the images of their
events (R6, R33). -/

namespace Sys2Proof.Machine

/-- From `s` to `t` a whole number of brackets of `n` pairs went out, cut by failures only; if none failed, the
bit-level trace grew by their images. -/
def SendsWhole (n : Nat) (s t : State) : Prop :=
  ∃ new, t.trace = s.trace ++ new ∧ WholeBrackets n new ∧
    (NoFailure new → t.wire = s.wire ++ new.flatMap eventBits)

/-- Both traces are as before. -/
theorem SendsWhole.of_silent {n : Nat} {s t : State} (ht : t.trace = s.trace) (hw : t.wire = s.wire) :
    SendsWhole n s t :=
  ⟨[], by simp [ht], rfl, fun _ => by simp [hw]⟩

theorem SendsWhole.trans {n : Nat} {s t u : State} (h : SendsWhole n s t) (h' : SendsWhole n t u) :
    SendsWhole n s u := by
  obtain ⟨new, ht, hb, hw⟩ := h
  obtain ⟨new', ht', hb', hw'⟩ := h'
  refine ⟨new ++ new', by rw [ht', ht, List.append_assoc], ?_, fun hn => ?_⟩
  · rw [WholeBrackets, scanEvents_append, hb]
    exact hb'
  · have hn₁ : NoFailure new := fun a d he => hn a d (List.mem_append_left _ he)
    have hn₂ : NoFailure new' := fun a d he => hn a d (List.mem_append_right _ he)
    rw [hw' hn₂, hw hn₁, List.flatMap_append, List.append_assoc]

/-! ## Brackets -/

/-- A bracket that fails in one of its `n` pairs is well formed (R72). -/
theorem wholeBrackets_failedTrace {n j : Nat} {b : Bracket} (hb : b.data.length = n) (hj : j < n) :
    WholeBrackets n (failedTrace b j) := by
  subst hb
  have hlen : (b.data.take j).length = j := List.length_take_of_le hj.le
  simp only [WholeBrackets, failedTrace, List.cons_append, scanEvents, scanEvent]
  rw [scanEvents_append, scanEvents_pairs false b.addr _ (by omega), hlen, List.getElem?_eq_getElem hj]
  simp [scanEvents, scanEvent, hj]

theorem failedTrace_failure {j : Nat} {b : Bracket} (hj : j < b.data.length) : ¬NoFailure (failedTrace b j) :=
  fun h => h b.addr b.data[j] (by simp [failedTrace, List.getElem?_eq_getElem hj])

theorem bracket_sendsWhole {n : Nat} {b : Bracket} (hb : b.data.length = n) (s : State) :
    SendsWhole n s (bracket b s).1 := by
  subst hb
  rcases drawsOk_or_failure s b.data.length with hd | ⟨j, hj, hf⟩
  · obtain ⟨-, ht, hw, -⟩ := bracket_ok hd
    exact ⟨_, ht, scanEvents_bracketTrace rfl false, fun _ => hw⟩
  · obtain ⟨-, ht, -⟩ := bracket_fail hj hf
    exact ⟨_, ht, wholeBrackets_failedTrace rfl hj, fun hn => absurd hn (failedTrace_failure hj)⟩

theorem sendBrackets_sendsWhole {n : Nat} {bs : List Bracket} (hn : ∀ b ∈ bs, b.data.length = n) (s : State) :
    SendsWhole n s (sendBrackets bs s).1 := by
  induction bs generalizing s with
  | nil => exact .of_silent rfl rfl
  | cons b bs ih =>
    obtain ⟨hb, hbs⟩ := List.forall_mem_cons.1 hn
    rw [sendBrackets_cons]
    split
    · exact (bracket_sendsWhole hb s).trans (ih hbs _)
    · exact bracket_sendsWhole hb s

/-! ## Host operations -/

theorem finish_sendsWhole {f : State → State} (hf : f = setReady ∨ f = id) {n : Nat} {bs : List Bracket}
    (hn : ∀ b ∈ bs, b.data.length = n) (s : State) : SendsWhole n s (finish f (sendBrackets bs s)) := by
  have h := sendBrackets_sendsWhole hn s
  rcases finish_cases f (sendBrackets bs s) with ⟨-, he⟩ | ⟨-, he⟩ <;> rw [he]
  · rcases hf with rfl | rfl <;> exact h
  · exact h

theorem exec_host_sendsWhole {i : Instr} {s t : State} (hi : i.isHost = true) (h : exec i s = .next t) :
    SendsWhole s.inst.modules s t := by
  rcases exec_host_cases hi h with ⟨e, r, rfl⟩ | ⟨x, y, v, -, -, -, rfl⟩ | ⟨x, y, level, -, -, -, rfl⟩ |
    ⟨v, -, -, rfl⟩ | ⟨-, -, rfl⟩ | ⟨level, -, -, -, rfl⟩ | ⟨p, -, -, rfl⟩
  · exact .of_silent rfl rfl
  · exact .of_silent rfl rfl
  · exact .of_silent rfl rfl
  · exact .of_silent rfl rfl
  · exact finish_sendsWhole (.inl rfl) (initBrackets_data _) s
  · exact finish_sendsWhole (.inr rfl) (setintBracket_data _ level) s
  · exact finish_sendsWhole (.inr rfl) (rowBrackets_data s p) s

/-- Settles O36: a bracket that goes out whole puts the images of its events on the wire. -/
theorem bitTraceRefinesTrace : Obligations.BitTraceRefinesTrace := by
  unfold Obligations.BitTraceRefinesTrace
  intro i s t hi h
  obtain ⟨new, ht, -, hw⟩ := exec_host_sendsWhole hi h
  exact ⟨new, ht, hw⟩

/-- Settles O56: each bracket, whole or failed, is well formed and releases chip-select. -/
theorem operationsSendWholeBrackets : Obligations.OperationsSendWholeBrackets := by
  unfold Obligations.OperationsSendWholeBrackets
  intro i s hi hc
  obtain ⟨t, h⟩ := exec_host_next hi s
  obtain ⟨new, ht, hb, -⟩ := exec_host_sendsWhole hi h
  exact ⟨t, new, h, ht, hb, (exec_host_effect hi h).cs hc⟩

end Sys2Proof.Machine
end

section
/-! PROOFS. The trace over one step (R16, R24, R74): what a step appends goes on from where the trace stands, and
`POS` follows the pending pairs. -/

namespace Sys2Proof.Machine

/-! ## Where the trace stands -/

theorem scanPoint_of_deasserted {s : State} (h : s.cs = .deasserted) : scanPoint s = .outside := by
  simp [scanPoint, h]

theorem scanPoint_of_asserted {s : State} (h : s.cs = .asserted) :
    scanPoint s = .inside (s.inst.modules - s.frames.length) := by
  simp [scanPoint, h]

theorem PosTracks.of_deasserted {s : State} (h : s.cs = .deasserted) : PosTracks s := by
  intro hc
  rw [h] at hc
  cases hc

/-- What is well formed without cuts is well formed with them. -/
theorem scanEvent_cuts {n : Nat} {q q' : Scan} {e : Event} (h : scanEvent false n q e = some q') :
    scanEvent true n q e = some q' := by
  cases q <;> cases e
  case inside.d j =>
    obtain ⟨-, h⟩ := Option.ite_none_right_eq_some.1 h
    exact h
  all_goals exact h

theorem scanEvents_cuts {n : Nat} {q q' : Scan} {es : List Event} (h : scanEvents false n q es = some q') :
    scanEvents true n q es = some q' := by
  induction es generalizing q with
  | nil => exact h
  | cons e es ih =>
    simp only [scanEvents] at h ⊢
    cases he : scanEvent false n q e with
    | none => simp [he] at h
    | some q₁ =>
      rw [scanEvent_cuts he]
      exact ih (by simpa [he] using h)

/-- What a step other than a reset does to the trace: it goes on from where the trace stands, and `POS` agrees. -/
structure TraceStep (s t : State) : Prop where
  appends : ∃ new, t.trace = s.trace ++ new ∧
    scanEvents false s.inst.modules (scanPoint s) new = some (scanPoint t)
  pos : PosTracks t

/-- A trace that grew by events well formed from where it stood. -/
theorem TraceTracks.append {s t : State} {new : List Event} (hs : TraceTracks s) (hi : t.inst = s.inst)
    (ht : t.trace = s.trace ++ new) (hn : scanEvents true s.inst.modules (scanPoint s) new = some (scanPoint t))
    (hp : PosTracks t) : TraceTracks t := by
  refine ⟨?_, hp⟩
  rw [hi, ht, scanEvents_append, hs.1]
  exact hn

/-- Nothing that the trace or `POS` depends on has changed. -/
theorem TraceStep.of_same {s t : State} (hp : PosTracks t) (ht : t.trace = s.trace) (hi : t.inst = s.inst)
    (hc : t.cs = s.cs) (hf : t.frames = s.frames) : TraceStep s t :=
  ⟨⟨[], by simp [ht], by simp [scanEvents, scanPoint, hi, hc, hf]⟩, hp⟩

/-- A host operation from a released chip-select. -/
theorem TraceStep.of_host {i : Instr} {s t : State} (hi : i.isHost = true) (h : exec i s = .next t)
    (hc : s.cs = .deasserted) : TraceStep s t := by
  obtain ⟨new, ht, hb, -⟩ := exec_host_sendsWhole hi h
  have hct := (exec_host_effect hi h).cs hc
  refine ⟨⟨new, ht, ?_⟩, .of_deasserted hct⟩
  rw [scanPoint_of_deasserted hc, scanPoint_of_deasserted hct]
  exact hb

/-! ## Small steps -/

theorem accept_traceStep (w : HostWord) {s : State} (hc : s.cs = .deasserted) :
    TraceStep s (accept (decodeHost w) s) := by
  rcases accept_host_cases w s with ⟨h, -⟩ | ⟨op, h, -⟩
  · exact .of_host (decodeHost_isHost w) h hc
  · rw [h]
    exact .of_same (.of_deasserted hc) rfl rfl rfl rfl

/-- The `A` of a bracket, with its `N` pairs to be sent. -/
theorem openNext_traceStep {s : State} (hs : PosTracks s) (hc : s.cs = .deasserted) : TraceStep s (openNext s) := by
  rcases openNext_cases s with ⟨-, h⟩ | ⟨op, n, y, m, k, -, h⟩ <;> rw [h]
  · exact .of_same hs rfl rfl rfl rfl
  · have hlen := bracketAt_length s op n y
    refine ⟨⟨[.a], rfl, ?_⟩, fun _ => ⟨hlen.le, op, n, y, 0, 15, rfl, ?_⟩⟩
    · rw [scanPoint_of_deasserted hc, scanPoint_of_asserted rfl]
      simp [scanEvents, scanEvent, hlen]
    · simp [hlen]

/-- The `D` of a bracket whose `N` pairs are sent. -/
theorem closeNext_traceStep {s : State} (hs : PosTracks s) (hc : s.cs = .asserted) (hf : s.frames = []) :
    TraceStep s (closeNext s) := by
  have hd : ∀ t : State, t.cs = .deasserted → t.trace = s.trace ++ [.d] → TraceStep s t := fun t hct ht =>
    ⟨⟨[.d], ht, by rw [scanPoint_of_asserted hc, scanPoint_of_deasserted hct]; simp [scanEvents, scanEvent, hf]⟩,
      .of_deasserted hct⟩
  rcases closeNext_cases s with ⟨-, h⟩ | ⟨_, _, _, _, _, _, -, -, h⟩ | ⟨op, _, _, _, _, -, -, h⟩ <;> rw [h]
  · exact .of_same hs rfl rfl rfl rfl
  · exact hd _ rfl rfl
  · rcases onSuccess_eq op (closeBracket s) with ⟨-, ho⟩ | ⟨-, ho⟩ <;> rw [ho] <;> exact hd _ rfl rfl

section
variable {s t : State} {w : Frame} {rest : List Frame} (hs : PosTracks s) (hc : s.cs = .asserted)
  (hf : s.frames = w :: rest)
include hs hc hf

/-- A pair was written, and the next one is at `POS`, if one is pending. -/
theorem TraceStep.of_pair {a d : Byte} (hi : t.inst = s.inst) (hct : t.cs = s.cs) (hft : t.frames = s.frames.tail)
    (hp : t.pos = nextPair s.frames.tail s.pos) (ht : t.trace = s.trace ++ [.p a d]) : TraceStep s t := by
  obtain ⟨hle, op, n, y, m, k, hpos, hm⟩ := hs hc
  rw [hf, List.length_cons] at hle hm
  rw [hf, List.tail_cons] at hft hp
  refine ⟨⟨_, ht, ?_⟩, fun _ => ?_⟩
  · rw [scanPoint_of_asserted hc, scanPoint_of_asserted (hct.trans hc), hi, hf, hft]
    have hlt : s.inst.modules - (rest.length + 1) < s.inst.modules := by omega
    have hnext : s.inst.modules - (rest.length + 1) + 1 = s.inst.modules - rest.length := by omega
    simp [scanEvents, scanEvent, hlt, hnext]
  · rw [hi, hft]
    refine ⟨by omega, ?_⟩
    cases rest with
    | nil => exact ⟨op, n, y, m, 0, by rw [hp, hpos, nextPair_nil], hm⟩
    | cons w' rest =>
      refine ⟨op, n, y, m + 1, 15, by rw [hp, hpos, nextPair_cons], ?_⟩
      rw [List.length_cons] at hle hm ⊢
      omega

/-- A pair failed, and its bracket was closed at once (R72). -/
theorem TraceStep.of_failure {a d : Byte} (hct : t.cs = .deasserted) (ht : t.trace = s.trace ++ [.f a d, .d]) :
    TraceStep s t := by
  obtain ⟨hle, -⟩ := hs hc
  rw [hf, List.length_cons] at hle
  refine ⟨⟨_, ht, ?_⟩, .of_deasserted hct⟩
  have hlt : s.inst.modules - (rest.length + 1) < s.inst.modules := by omega
  rw [scanPoint_of_asserted hc, scanPoint_of_deasserted hct]
  simp [scanEvents, scanEvent, hf, hlt]

theorem sendPair_traceStep (a d : Byte) : TraceStep s (sendPair a d s) := by
  have hp := pair_spec a d s
  have hu := hp.untouched
  rcases sendPair_cases a d s with ⟨-, hr, h⟩ | ⟨-, hr, h⟩ <;> rw [h]
  · refine .of_pair hs hc hf hu.inst hp.cs ?_ ?_ (hp.traceOk hr)
    · rw [advancePair_frames, hu.frames]
    · rw [advancePair_pos, hu.frames, hu.pos]
  · refine .of_failure (a := a) (d := d) hs hc hf rfl ?_
    rw [respond_trace, closeBracket_trace, hp.traceFail hr, List.append_assoc, List.singleton_append]

theorem finishPair_traceStep (k : Fin 16) : TraceStep s (finishPair w k s) :=
  have h := finishPair_spec w k s
  .of_pair hs hc hf h.inst h.cs h.frames h.pos h.trace

end

section
variable {s : State} (hs : PosTracks s)
include hs

/-- A bit inside a pair: `POS` stays at the pair. -/
theorem BitSpec.traceStep {t : State} (h : BitSpec s t) {op : Op} {n : Fin 5} {y : Fin 8} {m : Nat} {k k' : Fin 16}
    (hp : s.pos = .active op n y m k) (hp' : t.pos = .active op n y m k') : TraceStep s t := by
  refine .of_same (fun hc => ?_) h.trace h.inst h.cs h.frames
  obtain ⟨hle, op', n', y', m', k'', hpos, hm⟩ := hs (h.cs ▸ hc)
  rw [hp] at hpos
  cases hpos
  rw [h.inst, h.frames]
  exact ⟨hle, _, _, _, _, _, hp', hm⟩

theorem pulse_traceStep : TraceStep s (pulse s) := by
  cases pulse_effect s with
  | none h =>
    rw [h]
    exact .of_same hs rfl rfl rfl rfl
  | failed w _ hc hf h => exact h ▸ sendPair_traceStep hs hc hf (frameAddr w) (frameData w)
  | bit _ _ _ _ _ _ hp hp' h => exact h.traceStep hs hp hp'
  | last w _ hc hf h => exact h ▸ finishPair_traceStep hs hc hf 0

theorem OperationCase.traceStep {t : State} (h : OperationCase s t) : TraceStep s t := by
  rcases h with ⟨hc, h⟩ | ⟨hc, hf, h⟩ | ⟨-, -, h⟩ | ⟨w, _, _, _, _, _, hc, hf, -, h⟩ |
    ⟨w, _, _, _, _, _, k, hc, hf, -, -, h⟩
  · exact h ▸ openNext_traceStep hs hc
  · exact h ▸ closeNext_traceStep hs hc hf
  · rw [h]
    exact .of_same hs rfl rfl rfl rfl
  · exact h ▸ sendPair_traceStep hs hc hf (frameAddr w) (frameData w)
  · exact h ▸ finishPair_traceStep hs hc hf k

end

/-! ## The step -/

/-- The queue of inputs is no part of what the trace depends on. -/
theorem TraceStep.of_inputs {s t : State} {q : List Input} (h : TraceStep { s with inputs := q } t) :
    TraceStep s t :=
  ⟨h.appends, h.pos⟩

/-- Every step but a reset goes on from where the trace stands. -/
theorem step_traceStep {s t : State} (hq : IdleInvariant s) (hs : PosTracks s) (h : step s = .next t)
    (hr : s.inputs.head? ≠ some .reset) : TraceStep s t := by
  obtain ⟨-, hq⟩ := hq
  cases step_cases h with
  | idle _ _ h =>
    rw [h]
    exact .of_same hs rfl rfl rfl rfl
  | command w _ hb _ h => exact (TraceStep.of_host (s := popInput s) (decodeHost_isHost w) h (hq hb).1).of_inputs
  | start w _ hb _ h => exact h ▸ (accept_traceStep w (s := popInput s) (hq hb).1).of_inputs
  | idleInput _ _ _ h =>
    rw [h]
    exact .of_same hs rfl rfl rfl rfl
  | reset _ hi _ => exact absurd (by rw [hi, List.head?_cons]) hr
  | busyPulse _ _ _ h => exact h ▸ (pulse_traceStep (s := popInput s) hs).of_inputs
  | operation i _ _ h => exact (OperationCase.traceStep (s := { s with inputs := i }) hs h).of_inputs

/-- A reset closes an open bracket, wherever the trace stands (R24). -/
theorem resetEngine_traceTracks {s : State} (hs : TraceTracks s) : TraceTracks (resetEngine s) := by
  refine hs.append (resetEngine_inst s) ((resetEngine_trace s).trans (releaseBracket_trace s)) ?_
    (.of_deasserted (resetEngine_cs s))
  rw [scanPoint_of_deasserted (resetEngine_cs s)]
  cases hc : s.cs with
  | deasserted => simp [scanPoint_of_deasserted hc, scanEvents]
  | asserted => simp [scanPoint_of_asserted hc, scanEvents, scanEvent]

/-- Settles O53: a reset appends the `D` it must, and any other step goes on without cutting a bracket. -/
theorem stepKeepsTraceTracks : Obligations.StepKeepsTraceTracks := by
  unfold Obligations.StepKeepsTraceTracks
  intro s t hq hs h
  by_cases hr : s.inputs.head? = some .reset
  · obtain ⟨rest, hi⟩ := List.head?_eq_some_iff.1 hr
    rw [step_of_reset hi] at h
    cases h
    exact ⟨resetEngine_traceTracks (s := popInput s) hs, _,
      (resetEngine_trace (popInput s)).trans (releaseBracket_trace (popInput s)), fun hn => absurd hr hn, fun _ => rfl⟩
  · obtain ⟨⟨new, ht, hn⟩, hp⟩ := step_traceStep hq hs.2 h hr
    exact ⟨hs.append (step_inst h) ht (scanEvents_cuts hn) hp, new, ht, fun _ => hn, fun h => absurd h hr⟩

end Sys2Proof.Machine
end

section
/-! PROOFS. The buffer operations (42_buffers.md): the cell or cells each of them writes, and that none touches the
wire or `RDY`. -/

namespace Sys2Proof.Machine

/-! ## Operations in Ready on a cell in range -/

section
variable {s : State} (hr : s.rdy = true)
include hr

theorem fillPixels_of_ready (v : Bool) : fillPixels v s = respond .ok false (fillPix v s) :=
  guarded_pass (by rw [firstError_ready, if_pos hr])

variable {x y : Nat} (hx : x < 8 * s.inst.modules) (hy : y < 8)
include hx hy

theorem firstError_cell_of_ready : firstError (cellChecks x y s) = none := by
  rw [firstError_cell, if_pos ((inRange_iff s x y).2 ⟨hx, hy⟩), if_pos hr]

theorem pixelWrite_of_ready (v : Bool) : pixelWrite x y v s = respond .ok false (writePix x y v s) :=
  guarded_pass (firstError_cell_of_ready hr hx hy)

theorem pixelRead_of_ready : pixelRead x y s = respond .ok (readPix s x y) s :=
  guarded_pass (firstError_cell_of_ready hr hx hy)

end

/-! ## Cells after a write -/

theorem cellKey_ne {x y x' y' : Nat} (hy : y < 8) (hy' : y' < 8) (hne : (x', y') ≠ (x, y)) :
    cellKey x' y' ≠ cellKey x y := fun h => by
  obtain ⟨rfl, rfl⟩ := cellKey_inj hy' hy h
  exact hne rfl

/-! ## The statements -/

/-- Settles O20: the write is at the cell's key, and no other cell of rows 0 to 7 has it. -/
theorem pixwrWritesOneCell : Obligations.PixwrWritesOneCell := by
  unfold Obligations.PixwrWritesOneCell
  intro s x y v hx hy hr hwf
  refine ⟨_, congrArg Host.Outcome.next (pixelWrite_of_ready hr hx hy v), Memory.read_write_same hwf,
    fun x' y' hy' hne => Memory.read_write_other (cellKey_ne hy hy' hne), rfl, rfl, ?_, ?_, ?_⟩
  · exact ⟨rfl, rfl, rfl, rfl, rfl, rfl, rfl, rfl⟩
  · exact ⟨rfl, rfl, rfl⟩
  · exact ⟨rfl, rfl, rfl, rfl⟩

/-- Settles O21: past its checks `PIXRD` is a bare response. -/
theorem pixrdAnswersPixel : Obligations.PixrdAnswersPixel := by
  unfold Obligations.PixrdAnswersPixel
  exact fun s x y hx hy hr =>
    ⟨_, congrArg Host.Outcome.next (pixelRead_of_ready hr hx hy), onlyAnswered_respond .ok (readPix s x y) s⟩

/-- Settles O22: every cell in range has a key that the fill covers. -/
theorem fillWritesEveryCell : Obligations.FillWritesEveryCell := by
  unfold Obligations.FillWritesEveryCell
  intro s v hr
  refine ⟨_, congrArg Host.Outcome.next (fillPixels_of_ready hr v),
    fun x y hx hy => Memory.read_fill (cellKey_lt ((inRange_iff s x y).2 ⟨hx, hy⟩)), rfl, rfl, ?_, ?_, ?_⟩
  · exact ⟨rfl, rfl, rfl, rfl, rfl, rfl, rfl, rfl⟩
  · exact ⟨rfl, rfl, rfl⟩
  · exact ⟨rfl, rfl, rfl, rfl⟩

/-- Settles O23: as `PIXWR`, with the level clamped first. -/
theorem setbrtStoresClampedLevel : Obligations.SetbrtStoresClampedLevel := by
  unfold Obligations.SetbrtStoresClampedLevel
  intro s x y level hx hy hr hwf
  have hread : readBrt (respond .ok false (writeBrt x y (clamp15 level) s)) x y = clamp15 level :=
    readBrt_writeBrt_same hwf x y _
  refine ⟨_, congrArg Host.Outcome.next (setBrightness_of_ready hx hy hr level),
    (congrArg (fun v : Level => (v.toNat : Int)) hread).trans (clamp15_toNat level), fun x' y' hy' hne => Memory.read_write_other (cellKey_ne hy hy' hne), rfl, rfl, ?_, ?_, ?_⟩
  · exact ⟨rfl, rfl, rfl, rfl, rfl, rfl, rfl, rfl⟩
  · exact ⟨rfl, rfl, rfl⟩
  · exact ⟨rfl, rfl, rfl, rfl⟩

/-- Settles O24: what is left of the host commands only answers, or writes a buffer and answers. -/
theorem bufferOperationsOffWire : Obligations.BufferOperationsOffWire := by
  unfold Obligations.BufferOperationsOffWire
  intro i s t hi hinit hsetint hrender h
  rcases exec_host_cases hi h with ⟨e, r, rfl⟩ | ⟨x, y, v, -, -, -, rfl⟩ | ⟨x, y, level, -, -, -, rfl⟩ |
    ⟨v, -, -, rfl⟩ | ⟨hi, -⟩ | ⟨level, hi, -⟩ | ⟨p, hi, -⟩
  · exact ⟨⟨rfl, rfl, rfl, rfl, rfl, rfl, rfl, rfl⟩, rfl⟩
  · exact ⟨⟨rfl, rfl, rfl, rfl, rfl, rfl, rfl, rfl⟩, rfl⟩
  · exact ⟨⟨rfl, rfl, rfl, rfl, rfl, rfl, rfl, rfl⟩, rfl⟩
  · exact ⟨⟨rfl, rfl, rfl, rfl, rfl, rfl, rfl, rfl⟩, rfl⟩
  · exact absurd hi hinit
  · exact absurd hi (hsetint level)
  · exact absurd hi (hrender p)

/-! ## Before `INIT` -/

theorem CheckError.ne_ok {s : State} {i : Instr} {e : Status} (h : CheckError s i e) : e ≠ .ok := by
  cases h <;> exact nofun

/-- An operation on a cell fails one of its two checks. -/
theorem CellOperation.checkError {s : State} {i : Instr} {x y : Nat} (hc : CellOperation x y i) (hr : s.rdy = false) :
    ∃ e, CheckError s i e := by
  by_cases hxy : x < 8 * s.inst.modules ∧ y < 8
  · exact ⟨_, .cellNotReady hc hxy.1 hxy.2 hr⟩
  · exact ⟨_, .address hc (by omega)⟩

/-- In Uninitialized a check fails for every host command but `INIT` (R118). -/
theorem checkError_of_not_ready {i : Instr} (hi : i.isHost = true) (hne : i ≠ .init) {s : State} (hr : s.rdy = false) :
    ∃ e, CheckError s i e := by
  cases i
  case init => exact absurd rfl hne
  case setint level =>
    by_cases hl : 0 ≤ level ∧ level ≤ 15
    · exact ⟨_, .setintNotReady hl.1 hl.2 hr⟩
    · exact ⟨_, .level (by omega)⟩
  case render p => exact ⟨_, .renderNotReady hr⟩
  case fill v => exact ⟨_, .fillNotReady hr⟩
  case setbrt x y level => exact (CellOperation.setbrt level).checkError hr
  case pixwr x y v => exact (CellOperation.pixwr v).checkError hr
  case pixrd x y => exact CellOperation.pixrd.checkError hr
  case reserved0 | reserved8 | reserved9 | reservedA | reservedB | reservedC | reservedD | reservedE | reservedF =>
    exact ⟨_, .reserved (by decide)⟩
  all_goals cases hi

/-- Settles O29: in Uninitialized every command but `INIT` has an error of the table. -/
theorem nothingWorksBeforeInit : Obligations.NothingWorksBeforeInit := by
  unfold Obligations.NothingWorksBeforeInit
  intro i s hi hne hr
  obtain ⟨e, he⟩ := checkError_of_not_ready hi hne hr
  obtain ⟨t, ht, honly⟩ := exec_onlyAnswered_of_checkError he
  exact ⟨t, e, ht, he.ne_ok, honly⟩

end Sys2Proof.Machine
end

section
/-! PROOFS. The wire operations when every draw is `ok` (R85, R86, R105), and what the trace then says of the chips'
registers (R41; log entry 13). -/

namespace Sys2Proof.Machine

/-! ## Success -/

/-- Brackets of which there is at least one leave chip-select released. -/
theorem sendBrackets_cs {bs : List Bracket} (hne : bs ≠ []) (s : State) :
    (sendBrackets bs s).1.cs = .deasserted := by
  cases bs with
  | nil => exact absurd rfl hne
  | cons b bs =>
    obtain ⟨-, hc, -⟩ := bracket_untouched b s
    rw [sendBrackets_cons]
    split
    · obtain ⟨-, hrest, -⟩ := sendBrackets_untouched bs (bracket b s).1
      exact hrest hc
    · exact hc

theorem WireOperation.brackets_ne_nil {s : State} {i : Instr} {f : State → State} {bs : List Bracket}
    (hw : WireOperation s i f bs) : bs ≠ [] := by
  cases hw with
  | init hr | setint h0 h15 hr => exact List.cons_ne_nil _ _
  | render hr => exact List.ne_nil_of_length_pos (by rw [rowBrackets_length]; decide)

/-- All draws `ok`: the operation's brackets go out whole, then comes its state change and the answer `OK`. -/
theorem WireOperation.succeeds {s : State} {i : Instr} {f : State → State} {bs : List Bracket}
    (hw : WireOperation s i f bs) (hd : DrawsOk s (bs.length * s.inst.modules)) :
    ∃ u, exec i s = .next (respond .ok false (f u)) ∧ Untouched s u ∧ u.cs = .deasserted ∧
      u.trace = s.trace ++ bs.flatMap bracketTrace ∧ u.drawn = s.drawn + bs.length * s.inst.modules := by
  obtain ⟨hok, ht, -, hn⟩ := sendBrackets_ok hw.data_length hd
  exact ⟨_, (exec_of_wireOperation hw).trans (congrArg _ (finish_ok hok)), (sendBrackets_untouched bs s).1,
    sendBrackets_cs hw.brackets_ne_nil s, ht, hn⟩

theorem initBrackets_trace (n : Nat) : (initBrackets n).flatMap bracketTrace =
    broadcastTrace n 0x0C 0x00 ++ broadcastTrace n 0x0F 0x00 ++ broadcastTrace n 0x0B 0x07 ++
      broadcastTrace n 0x09 0x00 ++ broadcastTrace n 0x0C 0x01 := by
  simp [initBrackets, initSequence, bracketTrace_broadcast]

/-- Settles O14: the five broadcasts go out whole, and `RDY` is set. -/
theorem initSucceeds : Obligations.InitSucceeds := by
  unfold Obligations.InitSucceeds
  intro s hr hd
  obtain ⟨u, h, hu, hc, ht, hn⟩ := (WireOperation.init hr).succeeds hd
  rw [initBrackets_trace] at ht
  exact ⟨_, h, ht, rfl, hu.pix, hu.brt, hc, hn, ⟨rfl, rfl, rfl, congrArg (· ++ _) hu.responses⟩,
    hu.inst, hu.inputs, hu.oracle⟩

/-- Settles O15: the one Intensity bracket goes out whole. -/
theorem setintSucceeds : Obligations.SetintSucceeds := by
  unfold Obligations.SetintSucceeds
  intro s level h0 h15 hr hd
  obtain ⟨u, h, hu, hc, ht, hn⟩ := (WireOperation.setint h0 h15 hr).succeeds (by simpa using hd)
  rw [List.flatMap_singleton, setintBracket, bracketTrace_broadcast] at ht
  rw [List.length_singleton, Nat.one_mul] at hn
  exact ⟨_, h, ht, hc, hn, ⟨rfl, rfl, rfl, congrArg (· ++ _) hu.responses⟩, ⟨hu.rdy, hu.pix, hu.brt⟩,
    hu.inst, hu.inputs, hu.oracle⟩

/-- A row bracket names its modules in order (R105). -/
theorem rowBrackets_trace (s : State) (p : Int) : (rowBrackets s p).flatMap bracketTrace =
    (List.range 8).flatMap fun y => Event.a ::
      (List.range s.inst.modules).map (fun m => Event.p (BitVec.ofNat 8 (1 + y)) (rowByte s y m p)) ++ [Event.d] := by
  simp [rowBrackets, rows, List.flatMap_map, bracketTrace, rowBracket, rowData, digitAddr, Function.comp_def]

/-- Settles O37: the eight row brackets go out whole, and nothing of the engine changes. -/
theorem renderSucceeds : Obligations.RenderSucceeds := by
  unfold Obligations.RenderSucceeds
  intro s p hr hd
  obtain ⟨u, h, hu, hc, ht, hn⟩ := (WireOperation.render (p := p) hr).succeeds (by rwa [rowBrackets_length])
  rw [rowBrackets_trace] at ht
  rw [rowBrackets_length] at hn
  exact ⟨_, h, ht, hc, hn, ⟨rfl, rfl, rfl, congrArg (· ++ _) hu.responses⟩, ⟨hu.rdy, hu.pix, hu.brt⟩,
    hu.inst, hu.inputs, hu.oracle⟩

/-! ## `SETINT` before `RENDER` (R18) -/

/-- `SETINT` in Ready takes `N` draws at most, and leaves all that `RENDER` depends on. -/
theorem setint_then_drawsOk {s : State} (level : Int) {k : Nat} (hr : s.rdy = true)
    (hd : DrawsOk s (s.inst.modules + k)) :
    ∃ t, exec (.setint level) s = .next t ∧ SameEngine s t ∧ t.inst = s.inst ∧ DrawsOk t k := by
  by_cases hl : 0 ≤ level ∧ level ≤ 15
  · obtain ⟨u, h, hu, -, -, hn⟩ := (WireOperation.setint hl.1 hl.2 hr).succeeds
      (hd.mono (by rw [List.length_singleton]; omega))
    rw [List.length_singleton, Nat.one_mul] at hn
    exact ⟨_, h, ⟨hu.rdy, hu.pix, hu.brt⟩, hu.inst, (DrawsOk.shift hu hn hd : DrawsOk u k)⟩
  · exact ⟨_, congrArg Host.Outcome.next (setIntensity_of_illegal hl s), ⟨rfl, rfl, rfl⟩, rfl, hd.mono (by omega)⟩

/-- Settles O46: the row brackets are the same after `SETINT` as before it. -/
theorem setintLeavesRenderAlone : Obligations.SetintLeavesRenderAlone := by
  unfold Obligations.SetintLeavesRenderAlone
  intro s level p hr hd
  obtain ⟨t, h, hsame, hi, hdt⟩ := setint_then_drawsOk level (k := 8 * s.inst.modules) hr (hd.mono (by omega))
  obtain ⟨hrdy, hpix, hbrt⟩ := hsame
  obtain ⟨ht, -⟩ := renderFrame_ok (hrdy.trans hr) p (by rwa [hi])
  obtain ⟨hs, -⟩ := renderFrame_ok hr p (hd.mono (by omega))
  rw [rowBrackets_congr hi (fun _ => hbrt) (fun _ => hpix)] at ht
  exact ⟨t, _, _, _, h, ⟨hrdy, hpix, hbrt⟩, hi, rfl, rfl, ht.trace, hs.trace⟩

/-! ## The chips' registers -/

/-- Settles O57: each row bracket writes its digit register of module `m`, and no bracket names another register. -/
theorem chipRegistersAfterRender : Obligations.ChipRegistersAfterRender := by
  unfold Obligations.ChipRegistersAfterRender
  intro s t p hr hd h m hm
  cases h
  have htrace := (renderFrame_ok hr p hd).1.trace
  rw [htrace]
  have hall : (rowBrackets s p).take 8 = rowBrackets s p := List.take_of_length_le (rowBrackets_length s p).le
  refine ⟨fun y hy => ?_, fun a ha => chipRegister_brackets_of_ne hm (rowBrackets_data s p) (rowBrackets_addr_ne ha) _⟩
  have hrow := chipRegister_rows (p := p) hm (le_refl 8) hy s.trace
  rwa [hall, if_pos hy] at hrow

/-- The last bracket of `INIT` that names a register fixes it (R41, R85). -/
theorem chipRegister_init {n m : Nat} (hm : m < n) (a : Byte) (t : List Event) :
    chipRegister n m a (t ++ (initBrackets n).flatMap bracketTrace) =
      if a = 0x0C then some 0x01 else if a = 0x09 then some 0x00 else if a = 0x0B then some 0x07
      else if a = 0x0F then some 0x00 else chipRegister n m a t := by
  have hb (t : List Event) (b d : Byte) : chipRegister n m a (t ++ bracketTrace (broadcast n b d)) =
      if b = a then some d else chipRegister n m a t := by
    rw [chipRegister_bracket a (b := broadcast n b d) List.length_replicate hm]
    simp [broadcast, hm]
  have hsplit : t ++ (initBrackets n).flatMap bracketTrace = t ++ bracketTrace (broadcast n 0x0C 0x00) ++
      bracketTrace (broadcast n 0x0F 0x00) ++ bracketTrace (broadcast n 0x0B 0x07) ++
      bracketTrace (broadcast n 0x09 0x00) ++ bracketTrace (broadcast n 0x0C 0x01) := by
    simp [initBrackets, initSequence]
  rw [hsplit, hb, hb, hb, hb, hb]
  simp only [eq_comm (b := a)]
  split_ifs <;> rfl

/-- Settles O58: each of the four control registers holds what its last bracket wrote. -/
theorem chipRegistersAfterInit : Obligations.ChipRegistersAfterInit := by
  unfold Obligations.ChipRegistersAfterInit
  intro s t hr hd h m hm
  obtain ⟨u, h', -, -, htrace, -⟩ := (WireOperation.init hr).succeeds hd
  cases h.symm.trans h'
  have htrace : (respond .ok false (setReady u)).trace = _ := htrace
  have hreg (a : Byte) := chipRegister_init hm a s.trace
  rw [← htrace] at hreg
  refine ⟨hreg 0x0C, hreg 0x0F, hreg 0x0B, hreg 0x09, fun a ha => ?_⟩
  have hctrl : ∀ c ∈ controlRegisters, 8 < c.toNat ∧ c ≠ 0x0A := by decide
  have hne : a ∉ controlRegisters := fun hc => ha.elim (hctrl a hc).1.not_ge (hctrl a hc).2
  simp only [controlRegisters, List.mem_cons, List.not_mem_nil, or_false, not_or] at hne
  obtain ⟨hC, hF, hB, h9⟩ := hne
  rw [hreg, if_neg hC, if_neg h9, if_neg hB, if_neg hF]

end Sys2Proof.Machine
end

section
/-! PROOFS. The wire frames as instructions (R52 to R54, R70 to R72; log entry 8). -/

namespace Sys2Proof.Machine

section
variable {i : Instr} {a d : Byte} {s : State} (h : framePair i = some (a, d))
include h

theorem exec_of_framePair_asserted (hc : s.cs = .asserted) : exec i s = .next (sendPair a d s) := by
  rw [exec_of_framePair h]
  simp only [execPair, hc]

theorem exec_of_framePair_deasserted (hc : s.cs = .deasserted) : exec i s = .fault .pairOutsideBracket := by
  rw [exec_of_framePair h]
  simp only [execPair, hc]

end

/-- After a pair that was written `SDO` holds the last bit of its data byte (R33). -/
theorem pair_sdo {a d : Byte} {s : State} (ha : answer s s.drawn = .ok) : (pair a d s).1.sdo = d.getLsbD 0 := by
  obtain ⟨-, hsdo⟩ := shiftOut_lines (pairFrame a d) 15 (loadPair a d (draw s).1)
  rw [pair_of_ok ha, ← pairFrame_getLsbD_data a d (by decide)]
  exact hsdo

/-- Settles O31: the instruction is the pair of its bracket, and `POS` then goes on. -/
theorem wireFrameSendsPair : Obligations.WireFrameSendsPair := by
  unfold Obligations.WireFrameSendsPair
  intro i a d s h hc ha
  have hp := pair_spec a d s
  have hr := hp.answer.trans ha
  have hu := hp.untouched
  have hsend : sendPair a d s = advancePair (pair a d s).1 := by rw [sendPair, pair_of_ok ha, afterPair]
  have hwire := hp.wireOk hr
  rw [frameBits, List.map_map] at hwire
  refine ⟨_, (exec_of_framePair_asserted h hc).trans (congrArg _ hsend), hp.traceOk hr, hwire, hp.cs.trans hc, hp.sck,
    pair_sdo ha, hp.drawn, ?_, ?_, hu.busy, hu.responses, ⟨hu.rdy, hu.pix, hu.brt⟩, hu.inst, hu.inputs, hu.oracle⟩
  · rw [advancePair_frames, hu.frames]
  · rw [advancePair_pos, hu.frames, hu.pos]

/-- Settles O32: the failed pair's `F`, then the `D` of its bracket and the answer of its operation. -/
theorem wireFrameFails : Obligations.WireFrameFails := by
  unfold Obligations.WireFrameFails
  intro i a d s h hc ha
  have hp := pair_spec a d s
  have hr := hp.answer.trans ha
  have hu := hp.untouched
  have hsend : sendPair a d s = respond .transmissionError false (closeBracket (pair a d s).1) := by
    rw [sendPair, pair_of_fail ha, afterPair, abortBracket, raise_eq]
  refine ⟨_, (exec_of_framePair_asserted h hc).trans (congrArg _ hsend), ?_, rfl, hp.drawn,
    ⟨rfl, rfl, rfl, congrArg (· ++ _) hu.responses⟩, ⟨hu.rdy, hu.pix, hu.brt⟩, hu.inst, hu.inputs, hu.oracle⟩
  rw [respond_trace, closeBracket_trace, hp.traceFail hr, List.append_assoc, List.singleton_append]

/-- Settles O33: the precondition of `T.PAIR` is the frame's own check. -/
theorem wireFrameNeedsBracket : Obligations.WireFrameNeedsBracket := by
  unfold Obligations.WireFrameNeedsBracket
  exact fun i a d s h hc => exec_of_framePair_deasserted h hc

end Sys2Proof.Machine
end

section
/-! PROOFS. The soft PWM count (R108), the state right after reset (R24), and that it meets the invariants. -/

namespace Sys2Proof.Machine

/-- Of the numbers below `n`, `min l n` are below `l`. -/
theorem length_filter_range_lt (l n : Nat) : ((List.range n).filter fun p => decide (p < l)).length = min l n := by
  induction n with
  | zero => simp
  | succ n ih =>
    rw [List.range_succ, List.filter_append, List.length_append, ih]
    by_cases h : n < l
    · rw [List.filter_singleton, decide_eq_true h]; simp; omega
    · rw [List.filter_singleton, decide_eq_false h]; simp; omega

/-- Settles O41: a pixel of level `L` is lit exactly in the phases below `L`. -/
theorem softPwmCount : Obligations.SoftPwmCount := by
  unfold Obligations.SoftPwmCount
  intro s x y phases hm
  have hlit : (fun p : Nat => lit s x y (p : Int)) = fun p => decide (p < (readBrt s x y).toNat) :=
    funext fun p => by rw [lit_of_bright hm, decide_eq_decide, Int.ofNat_lt]
  rw [hlit, length_filter_range_lt]

/-- Settles O47: the fields of `State.reset`, and an `N` of at least 1 and at most 512. -/
theorem resetState : Obligations.ResetState := by
  unfold Obligations.ResetState
  exact ⟨rfl, fun _ _ => ⟨rfl, rfl⟩, rfl, rfl, rfl, rfl, rfl, rfl, Nat.le_add_left .., Config.otherModules.isLt⟩

/-- Settles O55: after reset nothing is in progress, the buffers list no cell and the trace is empty. -/
theorem resetMeetsInvariants : Obligations.ResetMeetsInvariants := by
  unfold Obligations.ResetMeetsInvariants
  exact ⟨⟨rfl, rfl, rfl, rfl⟩, ⟨rfl, fun _ => ⟨rfl, rfl, rfl, rfl⟩⟩, ⟨rfl, .of_deasserted rfl⟩,
    .of_ended nofun rfl rfl, .of_deasserted rfl⟩

end Sys2Proof.Machine
end

section
/-! PROOFS. The transport reads and writes nothing but the wire (R43, R70 to R73): it commutes with every change of
the rest of the state; and so `RENDER` is blind to the buffer its mode does not read. -/

namespace Sys2Proof.Machine

/-- A change of the state that the parts of `T.BRACKET` neither see nor touch. -/
structure WireBlind (g : State → State) : Prop where
  openBracket (s : State) : openBracket (g s) = g (openBracket s)
  closeBracket (s : State) : closeBracket (g s) = g (closeBracket s)
  shiftBit (b : Bool) (s : State) : shiftBit b (g s) = g (shiftBit b s)
  draw (s : State) : draw (g s) = (g (draw s).1, (draw s).2)
  loadPair (a d : Byte) (s : State) : loadPair a d (g s) = g (loadPair a d s)
  pairSent (a d : Byte) (s : State) : pairSent a d (g s) = g (pairSent a d s)
  pairFailed (a d : Byte) (s : State) : pairFailed a d (g s) = g (pairFailed a d s)

section
variable {g : State → State} (hg : WireBlind g)
include hg

theorem WireBlind.shiftOut (w : BitVec 16) (n : Nat) (s : State) : shiftOut w n (g s) = g (shiftOut w n s) := by
  induction n generalizing s with
  | zero => rfl
  | succ n ih => rw [Machine.shiftOut, hg.shiftBit, ih, Machine.shiftOut]

theorem WireBlind.pair (a d : Byte) (s : State) : pair a d (g s) = (g (pair a d s).1, (pair a d s).2) := by
  rw [Machine.pair, Machine.pair, hg.draw]
  rcases Machine.draw s with ⟨u, r⟩
  cases r with
  | ok => simp only [hg.loadPair, hg.shiftOut, hg.pairSent]
  | fail => simp only [hg.pairFailed]

theorem WireBlind.sendPairs (a : Byte) (dv : List Byte) (s : State) :
    sendPairs a dv (g s) = (g (sendPairs a dv s).1, (sendPairs a dv s).2) := by
  induction dv generalizing s with
  | nil => rfl
  | cons d dv ih =>
    rw [sendPairs_cons, sendPairs_cons, hg.pair]
    split
    · exact ih _
    · rfl

theorem WireBlind.bracket (b : Bracket) (s : State) :
    bracket b (g s) = (g (bracket b s).1, (bracket b s).2) := by
  rw [bracket_eq, bracket_eq, hg.openBracket, hg.sendPairs, hg.closeBracket]

theorem WireBlind.sendBrackets (bs : List Bracket) (s : State) :
    sendBrackets bs (g s) = (g (sendBrackets bs s).1, (sendBrackets bs s).2) := by
  induction bs generalizing s with
  | nil => rfl
  | cons b bs ih =>
    rw [sendBrackets_cons, sendBrackets_cons, hg.bracket]
    split
    · exact ih _
    · rfl

/-- A change that `RENDER` does not see in its checks and its rows goes through it. -/
theorem WireBlind.renderFrame (hresp : ∀ e r s, respond e r (g s) = g (respond e r s)) {s : State} {p : Int}
    (hr : (g s).rdy = s.rdy) (hbs : rowBrackets (g s) p = rowBrackets s p) :
    renderFrame p (g s) = g (renderFrame p s) := by
  cases hrdy : s.rdy with
  | false => rw [renderFrame_of_not_ready (hr.trans hrdy), renderFrame_of_not_ready hrdy, hresp]
  | true =>
    rw [renderFrame_of_ready (hr.trans hrdy), renderFrame_of_ready hrdy, hbs, hg.sendBrackets]
    rcases Machine.sendBrackets (rowBrackets s p) s with ⟨u, r⟩
    cases r with
    | ok => exact hresp .ok false u
    | fail => exact hresp .transmissionError false u

end

/-- The state with other contents of `PIX`. -/
def withPix (pix : Memory Bool) (s : State) : State := { s with pix := pix }

/-- The state with other contents of `BRT`. -/
def withBrt (brt : Memory Level) (s : State) : State := { s with brt := brt }

theorem wireBlind_withPix (pix : Memory Bool) : WireBlind (withPix pix) :=
  ⟨fun _ => rfl, fun _ => rfl, fun _ _ => rfl, fun _ => rfl, fun _ _ _ => rfl, fun _ _ _ => rfl, fun _ _ _ => rfl⟩

theorem wireBlind_withBrt (brt : Memory Level) : WireBlind (withBrt brt) :=
  ⟨fun _ => rfl, fun _ => rfl, fun _ _ => rfl, fun _ => rfl, fun _ _ _ => rfl, fun _ _ _ => rfl, fun _ _ _ => rfl⟩

theorem renderFrame_withPix {s : State} (hm : s.inst.brightMode = true) (pix : Memory Bool) (p : Int) :
    renderFrame p (withPix pix s) = withPix pix (renderFrame p s) :=
  have hbs : rowBrackets (withPix pix s) p = rowBrackets s p :=
    rowBrackets_congr (s := s) (s' := withPix pix s) rfl (fun _ => rfl) (fun hb => by rw [hm] at hb; cases hb) p
  (wireBlind_withPix pix).renderFrame (fun _ _ _ => rfl) rfl hbs

theorem renderFrame_withBrt {s : State} (hm : s.inst.brightMode = false) (brt : Memory Level) (p : Int) :
    renderFrame p (withBrt brt s) = withBrt brt (renderFrame p s) :=
  have hbs : rowBrackets (withBrt brt s) p = rowBrackets s p :=
    rowBrackets_congr (s := s) (s' := withBrt brt s) rfl (fun hb => by rw [hm] at hb; cases hb) (fun _ => rfl) p
  (wireBlind_withBrt brt).renderFrame (fun _ _ _ => rfl) rfl hbs

/-- Settles O45: the other buffer is seen neither by the rows nor by the transport. -/
theorem renderIgnoresOtherBuffer : Obligations.RenderIgnoresOtherBuffer := by
  unfold Obligations.RenderIgnoresOtherBuffer
  intro s t p h
  cases h
  exact ⟨fun pix hm => congrArg Host.Outcome.next (renderFrame_withPix hm pix p),
    fun brt hm => congrArg Host.Outcome.next (renderFrame_withBrt hm brt p)⟩

end Sys2Proof.Machine
end

section
/-! PROOFS. Clock pulses and whole pairs (R16, R33): from any bit of a pair the pulses that are left end where the
rest of the pair, in one step, ends. -/

namespace Sys2Proof.Machine

/-- The state with `POS` elsewhere. -/
def withPos (p : Pos) (s : State) : State := { s with pos := p }

/-- The state with another queue of inputs. -/
def withInputs (q : List Input) (s : State) : State := { s with inputs := q }

@[simp] theorem withPos_cs (p : Pos) (s : State) : (withPos p s).cs = s.cs := rfl
@[simp] theorem withPos_frames (p : Pos) (s : State) : (withPos p s).frames = s.frames := rfl
@[simp] theorem withPos_pos (p : Pos) (s : State) : (withPos p s).pos = p := rfl
@[simp] theorem withPos_busy (p : Pos) (s : State) : (withPos p s).busy = s.busy := rfl

theorem wireBlind_withPos (p : Pos) : WireBlind (withPos p) :=
  ⟨fun _ => rfl, fun _ => rfl, fun _ _ => rfl, fun _ => rfl, fun _ _ _ => rfl, fun _ _ _ => rfl, fun _ _ _ => rfl⟩

theorem wireBlind_withInputs (q : List Input) : WireBlind (withInputs q) :=
  ⟨fun _ => rfl, fun _ => rfl, fun _ _ => rfl, fun _ => rfl, fun _ _ _ => rfl, fun _ _ _ => rfl, fun _ _ _ => rfl⟩

/-! ## An idle engine -/

/-- An idle engine drops the pulses in its queue (log entry 19). -/
theorem run_idle_pulses {j k : Nat} (hjk : j ≤ k) {s : State} (hb : s.busy = false)
    (hi : s.inputs = List.replicate j .pulse) : run k s = .next (withInputs [] s) := by
  induction k generalizing j s with
  | zero =>
    obtain rfl : j = 0 := by omega
    have hs : withInputs [] s = s := by rw [withInputs, ← (show s.inputs = [] from hi)]
    rw [hs]
    rfl
  | succ k ih =>
    cases j with
    | zero =>
      have hstep : step s = .next s := idleEngineWaits s hb hi
      rw [run_of_next hstep]
      exact ih (Nat.zero_le k) hb hi
    | succ j =>
      have hstep : step s = .next (popInput s) := by
        rw [step_eq_perform, fetch, hb, if_neg (by decide), fetchIdle, hi]
        rfl
      have htail : (popInput s).inputs = List.replicate j .pulse := by rw [popInput_inputs, hi]; rfl
      rw [run_of_next hstep]
      exact ih (s := popInput s) (by omega) hb htail

/-! ## The rest of a pair -/

/-- Where `POS` goes after a pair does not depend on the bit at which it stood. -/
theorem advancePair_withPos {s : State} {op : Op} {n : Fin 5} {y : Fin 8} {m : Nat} {k : Fin 16}
    (hp : s.pos = .active op n y m k) (k' : Fin 16) :
    advancePair (withPos (.active op n y m k') s) = advancePair s := by
  have hnext : nextPair s.frames.tail (.active op n y m k') = nextPair s.frames.tail s.pos := by
    rw [hp]
    cases s.frames.tail <;> rfl
  simp only [advancePair, withPos, hnext]

theorem finishPair_withPos {s : State} {op : Op} {n : Fin 5} {y : Fin 8} {m : Nat} {k₀ : Fin 16}
    (hp : s.pos = .active op n y m k₀) (w : Frame) (k k' : Fin 16) :
    finishPair w k (withPos (.active op n y m k') s) = finishPair w k s := by
  have hg := wireBlind_withPos (.active op n y m k')
  have hpos : (pairSent (frameAddr w) (frameData w) (shiftOut s.sr (k.val + 1) s)).pos = .active op n y m k₀ :=
    (shiftOut_untouched s.sr (k.val + 1) s).pos.trans hp
  rw [finishPair, hg.shiftOut, hg.pairSent]
  exact advancePair_withPos hpos k'

/-- A bit by itself, then the rest of the pair, is the rest from that bit on. -/
theorem finishPair_shiftBit {s : State} {op : Op} {n : Fin 5} {y : Fin 8} {m : Nat} {k : Fin 16}
    (hp : s.pos = .active op n y m k) (h0 : k.val ≠ 0) (w : Frame) :
    finishPair w (k - 1) (withPos (.active op n y m (k - 1)) (shiftBit (s.sr.getLsbD k.val) s)) =
      finishPair w k s := by
  have hpred : (k - 1).val + 1 = k.val := by
    rw [Fin.val_sub_one_of_ne_zero fun h => h0 (congrArg Fin.val h)]
    omega
  rw [finishPair_withPos (s := shiftBit (s.sr.getLsbD k.val) s) hp, finishPair, hpred, finishPair, shiftOut, shiftBit_sr]

/-- A pair whose draw is `ok` is the draw, the load of `SR`, and all sixteen bits. -/
theorem sendPair_of_ok {s : State} (ha : answer s s.drawn = .ok) (w : Frame) :
    sendPair (frameAddr w) (frameData w) s = finishPair w 15 (loadPair (frameAddr w) (frameData w) (draw s).1) := by
  rw [sendPair, pair_of_ok ha]
  rfl

theorem sendPair_withInputs (q : List Input) (a d : Byte) (s : State) :
    sendPair a d (withInputs q s) = withInputs q (sendPair a d s) := by
  rw [sendPair, (wireBlind_withInputs q).pair, sendPair]
  rcases pair a d s with ⟨u, r⟩
  cases r <;> rfl

theorem sendPair_busy_of_fail {a d : Byte} {s : State} (ha : answer s s.drawn = .fail) :
    (sendPair a d s).busy = false := by
  rw [sendPair, pair_of_fail ha]
  rfl

/-! ## Steps inside a bracket -/

section
variable {s : State} {w : Frame} {rest : List Frame} {op : Op} {n : Fin 5} {y : Fin 8} {m : Nat} {k : Fin 16}

theorem step_of_pulse (hb : s.busy = true) {q : List Input} (hi : s.inputs = .pulse :: q) :
    step s = .next (pulse (popInput s)) := by
  rw [step_eq_perform, fetch, if_pos hb, fetchBusy, hi]
  rfl

variable (hc : s.cs = .asserted) (hf : s.frames = w :: rest)
include hc hf

theorem pulse_of_ok (hp : s.pos = .active op n y m 15) (ha : answer s s.drawn = .ok) :
    pulse s = withPos (.active op n y m 14)
      (shiftBit (w.getLsbD 15) (loadPair (frameAddr w) (frameData w) (draw s).1)) := by
  simp only [pulse, hc, hf, hp]
  exact firstPulse_ok hp ha

theorem pulse_of_fail (hp : s.pos = .active op n y m 15) (ha : answer s s.drawn = .fail) :
    pulse s = sendPair (frameAddr w) (frameData w) s := by
  have hfirst : firstPulse w s = abortBracket (pairFailed (frameAddr w) (frameData w) (draw s).1) := by
    simp only [firstPulse, draw, ha]
  rw [sendPair, pair_of_fail ha, afterPair, ← hfirst]
  simp only [pulse, hc, hf, hp]
  rfl

variable (hp : s.pos = .active op n y m k)
include hp

theorem pulse_of_bit (h0 : k.val ≠ 0) (hk : k.val ≠ 15) :
    pulse s = withPos (.active op n y m (k - 1)) (shiftBit (s.sr.getLsbD k.val) s) := by
  simp only [pulse, hc, hf, hp, if_neg hk, pulseBit, if_neg h0]
  exact setBit_of_active (s := shiftBit _ s) (k - 1) hp

theorem pulse_of_lastBit (h0 : k.val = 0) : pulse s = finishPair w k s := by
  have hk : k.val ≠ 15 := by omega
  simp only [pulse, hc, hf, hp, if_neg hk, pulseBit, if_pos h0]

theorem step_of_bit (hb : s.busy = true) (hi : s.inputs = []) (hk : k.val ≠ 15) :
    step s = .next (finishPair w k s) := by
  rw [step_of_busy hb hi]
  simp only [fetchOperation, fetchPair, hc, hf, hp, if_neg hk]

/-- From bit `k` on: some pulses and one step for the rest, or a pulse for each bit left. -/
theorem run_pulses (hb : s.busy = true) (hk : k.val ≠ 15) {j : Nat} {q : List Input}
    (hq : (j ≤ k.val ∧ q = List.replicate j .pulse) ∨ (j = k.val ∧ q = List.replicate (j + 1) .pulse)) :
    run (j + 1) (withInputs q s) = .next (finishPair w k (withInputs [] s)) := by
  induction j generalizing s k q with
  | zero =>
    rcases hq with ⟨-, rfl⟩ | ⟨h0, rfl⟩
    · exact run_of_next (k := 0) (step_of_bit (s := withInputs [] s) hc hf hp hb rfl hk)
    · have hstep : step (withInputs [.pulse] s) = .next (pulse (withInputs [] s)) := step_of_pulse hb rfl
      rw [pulse_of_lastBit (s := withInputs [] s) hc hf hp h0.symm] at hstep
      exact run_of_next (k := 0) hstep
  | succ j ih =>
    have h0 : k.val ≠ 0 := by omega
    have hpred : (k - 1).val = k.val - 1 := Fin.val_sub_one_of_ne_zero fun h => h0 (congrArg Fin.val h)
    obtain ⟨q, rfl, hq'⟩ : ∃ q', q = .pulse :: q' ∧
        ((j ≤ (k - 1).val ∧ q' = List.replicate j .pulse) ∨
          (j = (k - 1).val ∧ q' = List.replicate (j + 1) .pulse)) := by
      rcases hq with ⟨hj, rfl⟩ | ⟨hj, rfl⟩
      · exact ⟨_, rfl, .inl ⟨by omega, rfl⟩⟩
      · exact ⟨_, rfl, .inr ⟨by omega, rfl⟩⟩
    have hstep : step (withInputs (.pulse :: q) s) = .next (pulse (withInputs q s)) := step_of_pulse hb rfl
    have hpulse : pulse (withInputs q s) =
        withInputs q (withPos (.active op n y m (k - 1)) (shiftBit (s.sr.getLsbD k.val) s)) :=
      pulse_of_bit (s := withInputs q s) hc hf hp h0 hk
    rw [run_of_next hstep, hpulse, ih (s := withPos (.active op n y m (k - 1)) (shiftBit (s.sr.getLsbD k.val) s))
      (by simp [hc]) (by simp [hf]) (withPos_pos ..) (by simp [hb]) (by omega) hq',
      ← finishPair_shiftBit (s := withInputs [] s) hp h0 w]
    rfl

end

/-- After the first pulse of a pair whose frame is in `SR`: pulses as above end the whole pair. -/
theorem run_pulses_after_first {v : State} {w : Frame} {rest : List Frame} {op : Op} {n : Fin 5} {y : Fin 8} {m : Nat}
    (hb : v.busy = true) (hc : v.cs = .asserted) (hf : v.frames = w :: rest) (hp : v.pos = .active op n y m 15)
    (hsr : v.sr = w) {i : Nat} {q : List Input} (hq : (i ≤ (14 : Fin 16).val ∧ q = List.replicate i .pulse) ∨
      (i = (14 : Fin 16).val ∧ q = List.replicate (i + 1) .pulse)) :
    run (i + 1) (withInputs q (withPos (.active op n y m 14) (shiftBit (w.getLsbD 15) v))) =
      .next (finishPair w 15 (withInputs [] v)) := by
  subst hsr
  rw [run_pulses (s := withPos (.active op n y m 14) (shiftBit (v.sr.getLsbD 15) v)) (w := v.sr) (rest := rest)
    (by simp [hc]) (by simp [hf]) (withPos_pos ..) (by simp [hb]) (by decide) hq,
    ← finishPair_shiftBit (s := withInputs [] v) hp (by decide) v.sr]
  rfl

/-- A pair not yet begun: the first pulse, then pulses as above. -/
theorem run_pulses_of_pair {s : State} {w : Frame} {rest : List Frame} {op : Op} {n : Fin 5} {y : Fin 8} {m : Nat}
    (hb : s.busy = true) (hc : s.cs = .asserted) (hf : s.frames = w :: rest) (hp : s.pos = .active op n y m 15)
    {i : Nat} {q : List Input} (hq : (i ≤ (14 : Fin 16).val ∧ q = List.replicate i .pulse) ∨
      (i = (14 : Fin 16).val ∧ q = List.replicate (i + 1) .pulse)) :
    run (i + 2) (withInputs (.pulse :: q) s) = .next (sendPair (frameAddr w) (frameData w) (withInputs [] s)) := by
  have hstep : step (withInputs (.pulse :: q) s) = .next (pulse (withInputs q s)) := step_of_pulse hb rfl
  rw [run_of_next hstep]
  cases ha : answer s s.drawn with
  | ok =>
    rw [pulse_of_ok (s := withInputs q s) hc hf hp ha, sendPair_of_ok (s := withInputs [] s) ha]
    exact run_pulses_after_first (v := loadPair (frameAddr w) (frameData w) (draw s).1) hb hc hf hp
      (pairFrame_split w) hq
  | fail =>
    rw [pulse_of_fail (s := withInputs q s) hc hf hp ha, sendPair_withInputs, sendPair_withInputs]
    rcases hq with ⟨-, rfl⟩ | ⟨-, rfl⟩
    · exact run_idle_pulses i.le_succ (sendPair_busy_of_fail ha) rfl
    · exact run_idle_pulses (le_refl _) (sendPair_busy_of_fail ha) rfl

/-- Settles O34: after its first pulse the pair has failed and the engine is idle, or the bits left end it. -/
theorem sixteenPulsesMakePair : Obligations.SixteenPulsesMakePair := by
  unfold Obligations.SixteenPulsesMakePair
  intro s w rest op n y m hb hc hf hp
  have hpair : step (withInputs [] s) = .next (sendPair (frameAddr w) (frameData w) (withInputs [] s)) :=
    step_pair hb rfl hc hf hp
  refine ⟨?_, fun j hj => ?_⟩
  · exact (run_pulses_of_pair hb hc hf hp (i := 14) (.inr ⟨rfl, rfl⟩)).trans hpair.symm
  · cases j with
    | zero => exact (run_of_next (k := 0) hpair).trans hpair.symm
    | succ i => exact (run_pulses_of_pair hb hc hf hp (.inl ⟨Nat.le_of_succ_le_succ hj, rfl⟩)).trans hpair.symm

end Sys2Proof.Machine
end

section
/-! PROOFS. An operation run in small steps, and the whole operation (R16, R38): between two small steps the engine
is where the whole operation is between two pairs, but for `BUSY`, `POS` and the pending pairs. -/

namespace Sys2Proof.Machine

/-! ## Runs that reach a state -/

/-- Some number of steps from `s` ends in `t`. -/
def Reaches (s t : State) : Prop := ∃ k, run k s = .next t

theorem Reaches.refl (s : State) : Reaches s s := ⟨0, rfl⟩

theorem Reaches.trans {s t u : State} (h : Reaches s t) (h' : Reaches t u) : Reaches s u := by
  obtain ⟨j, hj⟩ := h
  obtain ⟨k, hk⟩ := h'
  exact ⟨j + k, (run_append hj).trans hk⟩

theorem Reaches.of_step {s t : State} (h : step s = .next t) : Reaches s t := ⟨1, run_of_next (k := 0) h⟩

/-! ## An operation in progress -/

/-- An operation in progress at `p`, with these pairs pending, on the wire as `s` has it. -/
def inProgress (p : Pos) (fs : List Frame) (s : State) : State := { s with busy := true, pos := p, frames := fs }

theorem wireBlind_inProgress (p : Pos) (fs : List Frame) : WireBlind (inProgress p fs) :=
  ⟨fun _ => rfl, fun _ => rfl, fun _ _ => rfl, fun _ => rfl, fun _ _ _ => rfl, fun _ _ _ => rfl, fun _ _ _ => rfl⟩

/-! ## The pairs of a bracket -/

theorem sendPair_inProgress_ok {a d : Byte} {s : State} (hr : (pair a d s).2 = .ok) (p : Pos) (w : Frame)
    (rest : List Frame) :
    sendPair a d (inProgress p (w :: rest) s) = inProgress (nextPair rest p) rest (pair a d s).1 := by
  rw [sendPair, (wireBlind_inProgress p (w :: rest)).pair, hr]
  rfl

theorem sendPair_inProgress_fail {a d : Byte} {s : State} (hr : (pair a d s).2 = .fail) (p : Pos) (fs : List Frame) :
    sendPair a d (inProgress p fs s) = respond .transmissionError false (closeBracket (pair a d s).1) := by
  rw [sendPair, (wireBlind_inProgress p fs).pair, hr]
  rfl

/-- After a pair `POS` is at the first bit of the next, if there is one. -/
theorem nextPair_active (fs : List Frame) (op : Op) (n : Fin 5) (y : Fin 8) (m : Nat) (k : Fin 16) :
    ∃ m' k', nextPair fs (.active op n y m k) = .active op n y m' k' ∧ (fs ≠ [] → k' = 15) := by
  cases fs with
  | nil => exact ⟨m, 0, rfl, fun h => absurd rfl h⟩
  | cons w rest => exact ⟨m + 1, 15, rfl, fun _ => rfl⟩

/-- Where the pairs of a bracket lead in small steps: past the last one, or to the end of the operation. -/
theorem sendPairs_reaches {a : Byte} {dv : List Byte} {s : State} {op : Op} {n : Fin 5} {y : Fin 8} {m : Nat}
    {k : Fin 16} (hc : s.cs = .asserted) (hi : s.inputs = []) (hk : dv.map (pairFrame a) ≠ [] → k = 15) :
    ((sendPairs a dv s).2 = .ok ∧ ∃ m' k', Reaches (inProgress (.active op n y m k) (dv.map (pairFrame a)) s)
      (inProgress (.active op n y m' k') [] (sendPairs a dv s).1)) ∨
    ((sendPairs a dv s).2 = .fail ∧ Reaches (inProgress (.active op n y m k) (dv.map (pairFrame a)) s)
      (respond .transmissionError false (closeBracket (sendPairs a dv s).1))) := by
  induction dv generalizing s m k with
  | nil => exact .inl ⟨rfl, m, k, .refl _⟩
  | cons d dv ih =>
    obtain rfl := hk (List.cons_ne_nil _ _)
    have hspec := pair_spec a d s
    have hstep := step_pair (s := inProgress (.active op n y m 15) ((d :: dv).map (pairFrame a)) s)
      rfl hi hc rfl rfl
    rw [frameAddr_pairFrame, frameData_pairFrame] at hstep
    rw [sendPairs_cons]
    cases hr : (pair a d s).2 with
    | ok =>
      rw [List.map_cons, sendPair_inProgress_ok hr] at hstep
      obtain ⟨m', k', hnext, hk'⟩ := nextPair_active (dv.map (pairFrame a)) op n y m 15
      rw [hnext] at hstep
      rw [if_pos rfl]
      rcases ih (s := (pair a d s).1) (m := m') (hspec.cs.trans hc) (hspec.untouched.inputs.trans hi) hk' with
        ⟨hok, m'', k'', h⟩ | ⟨hfail, h⟩
      · exact .inl ⟨hok, m'', k'', (Reaches.of_step hstep).trans h⟩
      · exact .inr ⟨hfail, (Reaches.of_step hstep).trans h⟩
    | fail =>
      rw [List.map_cons, sendPair_inProgress_fail hr] at hstep
      rw [if_neg (by decide)]
      exact .inr ⟨rfl, .of_step hstep⟩

/-! ## A bracket -/

/-- Where an operation stands after the bracket at `(n, y)`: before the next one, or at its end. -/
def afterBracket (op : Op) (n : Fin 5) (y : Fin 8) (s : State) : State :=
  match nextBracket op n y with
  | some p => inProgress p [] s
  | none => respond .ok false (onSuccess op s)

theorem afterBracket_of_some {op : Op} {n : Fin 5} {y : Fin 8} {p : Pos} (h : nextBracket op n y = some p) (s : State) :
    afterBracket op n y s = inProgress p [] s := by
  simp only [afterBracket, h]

theorem afterBracket_of_none {op : Op} {n : Fin 5} {y : Fin 8} (h : nextBracket op n y = none) (s : State) :
    afterBracket op n y s = respond .ok false (onSuccess op s) := by
  simp only [afterBracket, h]

theorem closeNext_inProgress (op : Op) (n : Fin 5) (y : Fin 8) (m : Nat) (k : Fin 16) (s : State) :
    closeNext (inProgress (.active op n y m k) [] s) = afterBracket op n y (closeBracket s) := by
  rcases closeNext_cases (inProgress (.active op n y m k) [] s) with ⟨h, -⟩ | ⟨_, _, _, _, _, p, hp, hn, h⟩ |
    ⟨_, _, _, _, _, hp, hn, h⟩
  · cases h
  · cases hp
    rw [h, afterBracket_of_some hn]
    rfl
  · cases hp
    rw [h, afterBracket_of_none hn]
    cases op <;> rfl

section
variable {s : State} {op : Op} {n : Fin 5} {y : Fin 8} {m : Nat} {k : Fin 16} (hi : s.inputs = [])
include hi

/-- The `A` of the bracket at `POS`. -/
theorem step_open (hc : s.cs = .deasserted) (fs : List Frame) :
    step (inProgress (.active op n y m k) fs s) =
      .next (inProgress (.active op n y 0 15) (bracketFrames (bracketAt s op n y)) (openBracket s)) := by
  have hcs : (inProgress (.active op n y m k) fs s).cs = .deasserted := hc
  rw [step_of_busy (s := inProgress (.active op n y m k) fs s) rfl hi]
  simp only [fetchOperation, hcs]
  cases op <;> rfl

/-- The `D` of a bracket whose pairs are all sent. -/
theorem step_close (hc : s.cs = .asserted) :
    step (inProgress (.active op n y m k) [] s) = .next (afterBracket op n y (closeBracket s)) := by
  have hcs : (inProgress (.active op n y m k) [] s).cs = .asserted := hc
  have hfs : (inProgress (.active op n y m k) [] s).frames = [] := rfl
  rw [step_of_busy (s := inProgress (.active op n y m k) [] s) rfl hi]
  simp only [fetchOperation, hcs, hfs, closeNext_inProgress]

/-- The bracket at `POS` in small steps does to the wire what the whole bracket does. -/
theorem bracket_reaches (hc : s.cs = .deasserted) (fs : List Frame) :
    ((bracket (bracketAt s op n y) s).2 = .ok ∧ Reaches (inProgress (.active op n y m k) fs s)
      (afterBracket op n y (bracket (bracketAt s op n y) s).1)) ∨
    ((bracket (bracketAt s op n y) s).2 = .fail ∧ Reaches (inProgress (.active op n y m k) fs s)
      (respond .transmissionError false (bracket (bracketAt s op n y) s).1)) := by
  obtain ⟨hu, hcs, -⟩ := sendPairs_untouched (bracketAt s op n y).addr (bracketAt s op n y).data (openBracket s)
  have hopen := Reaches.of_step (step_open (op := op) (n := n) (y := y) (m := m) (k := k) hi hc fs)
  rcases sendPairs_reaches (a := (bracketAt s op n y).addr) (dv := (bracketAt s op n y).data) (s := openBracket s)
    (op := op) (n := n) (y := y) (m := 0) (k := 15) rfl hi (fun _ => rfl) with ⟨hok, m', k', h⟩ | ⟨hfail, h⟩
  · have hclose := step_close (op := op) (n := n) (y := y) (m := m') (k := k') (hu.inputs.trans hi) hcs
    exact .inl ⟨hok, (hopen.trans h).trans (.of_step hclose)⟩
  · exact .inr ⟨hfail, hopen.trans h⟩

end

/-! ## The brackets of an operation -/

/-- The brackets that an operation still has to send from the one at `(n, y)` on. -/
inductive Schedule (s : State) (op : Op) : Fin 5 → Fin 8 → List Bracket → Prop where
  | last {n : Fin 5} {y : Fin 8} (h : nextBracket op n y = none) : Schedule s op n y [bracketAt s op n y]
  | more {n n' : Fin 5} {y y' : Fin 8} {bs : List Bracket} (h : nextBracket op n y = some (.active op n' y' 0 15))
      (hs : Schedule s op n' y' bs) : Schedule s op n y (bracketAt s op n y :: bs)

/-- The five writes of `INIT`, in order (R85). -/
theorem init_schedule (s : State) : Schedule s .init 0 0 (initBrackets s.inst.modules) :=
  .more rfl (.more rfl (.more rfl (.more rfl (.last rfl))))

theorem setint_schedule (s : State) (level : Int) :
    Schedule s (.setint level) 0 0 [setintBracket s.inst.modules level] :=
  .last rfl

/-- The eight rows of `RENDER`, in order (R105). -/
theorem render_schedule (s : State) (p : Int) : Schedule s (.render p) 0 0 (rowBrackets s p) :=
  .more rfl (.more rfl (.more rfl (.more rfl (.more rfl (.more rfl (.more rfl (.last rfl)))))))

/-- The brackets are read from what the transport leaves untouched. -/
theorem bracketAt_of_untouched {s u : State} (hu : Untouched s u) (op : Op) (n : Fin 5) (y : Fin 8) :
    bracketAt u op n y = bracketAt s op n y := by
  cases op with
  | init | setint level => simp only [bracketAt, hu.inst]
  | render p =>
    have hrows := rowBrackets_congr hu.inst (fun _ => hu.brt) (fun _ => hu.pix) p
    apply Option.some.inj
    rw [bracketAt, bracketAt, ← rowBrackets_getElem? y.isLt, ← rowBrackets_getElem? y.isLt, hrows]

/-- The brackets of a schedule in small steps end as the whole operation does. -/
theorem Schedule.reaches {s u : State} {op : Op} {n : Fin 5} {y : Fin 8} {bs : List Bracket}
    (h : Schedule s op n y bs) (hu : Untouched s u) (hi : s.inputs = []) (hc : u.cs = .deasserted) {m : Nat}
    {k : Fin 16} (fs : List Frame) :
    Reaches (inProgress (.active op n y m k) fs u) (finish (onSuccess op) (sendBrackets bs u)) := by
  induction h generalizing u m k fs with
  | @last n y h =>
    have hb := bracketAt_of_untouched hu op n y
    have hreach := bracket_reaches (op := op) (n := n) (y := y) (m := m) (k := k) (hu.inputs.trans hi) hc fs
    rw [hb, afterBracket_of_none h] at hreach
    rw [sendBrackets_singleton]
    rcases hreach with ⟨hok, hr⟩ | ⟨hfail, hr⟩
    · rwa [finish_ok hok]
    · rwa [finish_fail hfail]
  | @more n n' y y' bs h hs ih =>
    have hb := bracketAt_of_untouched hu op n y
    have hreach := bracket_reaches (op := op) (n := n) (y := y) (m := m) (k := k) (hu.inputs.trans hi) hc fs
    rw [hb, afterBracket_of_some h] at hreach
    obtain ⟨hu', hc', -⟩ := bracket_untouched (bracketAt s op n y) u
    rw [sendBrackets_cons]
    rcases hreach with ⟨hok, hr⟩ | ⟨hfail, hr⟩
    · rw [if_pos hok]
      exact hr.trans (ih (hu.trans hu') hc' [])
    · rwa [if_neg (by rw [hfail]; decide)]

/-! ## The statement -/

/-- A wire operation that is begun ends as the whole operation does. -/
theorem begin_reaches {s : State} {op : Op} {bs : List Bracket} (h : Schedule s op 0 0 bs) (hi : s.inputs = [])
    (hc : s.cs = .deasserted) : Reaches (begin op s) (finish (onSuccess op) (sendBrackets bs s)) :=
  h.reaches (.refl s) hi hc s.frames

/-- A command that is accepted in small steps ends as the whole command does. -/
theorem accept_reaches {i : Instr} (hi : i.isHost = true) {s : State} (hin : s.inputs = []) (hc : s.cs = .deasserted) :
    ∃ t, exec i s = .next t ∧ Reaches (accept i s) t := by
  rcases accept_cases hi s with ⟨t, h, ha, -⟩ | ⟨rfl, hr, ha⟩ | ⟨level, rfl, hl, hr, ha⟩ | ⟨p, rfl, hr, ha⟩ <;> rw [ha]
  · exact ⟨t, h, .refl t⟩
  · exact ⟨_, exec_of_wireOperation (.init hr), begin_reaches (init_schedule s) hin hc⟩
  · obtain ⟨h0, h15⟩ := (levelInRange_iff level).1 hl
    exact ⟨_, exec_of_wireOperation (.setint h0 h15 hr), begin_reaches (setint_schedule s level) hin hc⟩
  · exact ⟨_, exec_of_wireOperation (.render hr), begin_reaches (render_schedule s p) hin hc⟩

/-- Settles O35: an accepted command goes through its schedule, and each bracket of it does to the wire what the
whole bracket does. -/
theorem smallStepsRefineOperation : Obligations.SmallStepsRefineOperation := by
  unfold Obligations.SmallStepsRefineOperation
  rintro s w hb ⟨hc, -⟩
  obtain ⟨t, hexec, k, hrun⟩ := accept_reaches (decodeHost_isHost w) (s := withInputs [] s) rfl hc
  have hstart : step (withInputs [.start w] s) = .next (accept (decodeHost w) (withInputs [] s)) := by
    rw [step_eq_perform, fetch, if_neg (by rw [show (withInputs [.start w] s).busy = false from hb]; decide)]
    rfl
  have hcommand : step (withInputs [.command w] s) = exec (decodeHost w) (withInputs [] s) :=
    stepRunsHostCommand _ w [] hb rfl
  exact ⟨k + 1, t, (run_of_next hstart).trans hrun, hcommand.trans hexec⟩

end Sys2Proof.Machine
end
